-- ==== Sys2Proof/Word.lean ====
section
/-!
DEFINITION. The word types of the engine (00_scope.md R8, R10; 10_state.md R21; 30_encoding.md R70).
-/

namespace Sys2Proof

/-- A register value, a lane of the permutation state, or a window register: 64 bits (R21, R24, R214). -/
abbrev Word := BitVec 64

/-- A `u32`: an FNV operand, or a command word (R22, R70). -/
abbrev Word32 := BitVec 32

/-- One byte of MEM or of a byte string (R10, R50). -/
abbrev Byte := BitVec 8

/-- A 4-bit register field of a command; every value names a register (R21, R70, R71). -/
abbrev RegIdx := BitVec 4

/-- `bytes[n]`, a byte string of `n` bytes indexed from 0 (R10). The digest types are
`Bytes 32`, `Bytes 64`, `Bytes 128` and `Bytes 256` (R14). -/
abbrev Bytes (n : Nat) := Vector Byte n

end Sys2Proof
end

