-- ==== Sys2Proof/Syntax.lean ====
section
/-!
DEFINITION. The 24 commands of ECMD version 1 (30_encoding.md R74), one constructor for each row of
the opcode table. A constructor carries exactly the register fields its sub-format uses (R72), in the
assembler's order RD, RA, RB, RC (R76).
-/

namespace Sys2Proof

/-- One ECMD command. -/
inductive Instr where
  | keccakf
  | sload (ra : RegIdx)
  | sstore (ra : RegIdx)
  | sinit256
  | sinit512
  | sabsorb (ra rb : RegIdx)
  | sfinal
  | ssqueeze (ra : RegIdx)
  | keccak256 (ra rb rc : RegIdx)
  | keccak512 (ra rb rc : RegIdx)
  | fnv1 (rd ra rb : RegIdx)
  | fnv1v (ra rb rc : RegIdx)
  | eseed (ra rc : RegIdx)
  | enum (rd ra : RegIdx)
  | ecrst
  | ecip (rd ra : RegIdx)
  | prime (rd ra : RegIdx)
  | lcount (rd ra : RegIdx)
  | dcount (rd ra : RegIdx)
  | ctxset (ra rb : RegIdx)
  | buildlc (ra : RegIdx)
  | ditem512 (ra rc : RegIdx)
  | ditem1024 (ra rc : RegIdx)
  | ditem2048 (ra rc : RegIdx)
deriving DecidableEq, Repr

end Sys2Proof
end

