-- ==== Sys2Proof/WellFormed.lean ====
section
/-!
DEFINITION. When a 32-bit command word is well formed, field by field (30_encoding.md R70, R72, R75):
its OP is assigned, its FN is 0, and every register field its sub-format does not use is 0.

The type `Instr` holds only well-formed commands (each register field is 4 bits and each value names a
register), so the check is on words. It is written from the field table and the list of reserved OP
values, apart from the mask and match test of the decoder (Decode.lean, R73), so that the two can be
held against each other.
-/

namespace Sys2Proof

/-- The sub-formats of R72, named by the register fields they use. -/
inductive Format where
  | N | A | AB | AC | ABC | DA | DAB
deriving DecidableEq, Repr

namespace Format

/-- Does the sub-format use RD? (R72) -/
def usesRd : Format → Bool
  | .DA | .DAB => true
  | .N | .A | .AB | .AC | .ABC => false

/-- Does the sub-format use RA? (R72) -/
def usesRa : Format → Bool
  | .N => false
  | .A | .AB | .AC | .ABC | .DA | .DAB => true

/-- Does the sub-format use RB? (R72) -/
def usesRb : Format → Bool
  | .AB | .ABC | .DAB => true
  | .N | .A | .AC | .DA => false

/-- Does the sub-format use RC? (R72) -/
def usesRc : Format → Bool
  | .AC | .ABC => true
  | .N | .A | .AB | .DA | .DAB => false

end Format

/-- The six fields of a command word (R70). -/
structure Fields where
  op : BitVec 8
  rd : RegIdx
  ra : RegIdx
  rb : RegIdx
  rc : RegIdx
  fn : BitVec 8
deriving DecidableEq, Repr

/-- The fields of a word at the bit positions of R70. -/
def Fields.ofWord (w : Word32) : Fields :=
  { op := w.extractLsb' 0 8, rd := w.extractLsb' 8 4, ra := w.extractLsb' 12 4,
    rb := w.extractLsb' 16 4, rc := w.extractLsb' 20 4, fn := w.extractLsb' 24 8 }

/-- The OP values R75 reserves: 0x00 to 0x0F, 0x1A to 0x1F, 0x22 to 0x2F, 0x34 to 0x37, 0x3B to 0x3F,
0x42 to 0x4F, and 0x53 to 0xFF. -/
def reservedOp (op : BitVec 8) : Bool :=
  let n := op.toNat
  n ≤ 0x0F || (0x1A ≤ n && n ≤ 0x1F) || (0x22 ≤ n && n ≤ 0x2F) || (0x34 ≤ n && n ≤ 0x37) ||
    (0x3B ≤ n && n ≤ 0x3F) || (0x42 ≤ n && n ≤ 0x4F) || 0x53 ≤ n

/-- The sub-format of an assigned OP (R74); `none` where R75 reserves the OP. -/
def formatOf (op : BitVec 8) : Option Format :=
  if reservedOp op then none
  else if op ∈ [0x10#8, 0x13#8, 0x14#8, 0x16#8, 0x32#8] then some .N
  else if op ∈ [0x11#8, 0x12#8, 0x17#8, 0x41#8] then some .A
  else if op ∈ [0x15#8, 0x40#8] then some .AB
  else if op ∈ [0x30#8, 0x50#8, 0x51#8, 0x52#8] then some .AC
  else if op ∈ [0x18#8, 0x19#8, 0x21#8] then some .ABC
  else if op ∈ [0x31#8, 0x33#8, 0x38#8, 0x39#8, 0x3A#8] then some .DA
  else some .DAB

/-- FN and every unused register field are 0 (R72). -/
def Fields.unusedZero (f : Fields) (fmt : Format) : Bool :=
  f.fn == 0 && (fmt.usesRd || f.rd == 0) && (fmt.usesRa || f.ra == 0) &&
    (fmt.usesRb || f.rb == 0) && (fmt.usesRc || f.rc == 0)

/-- A well-formed command word: an assigned OP, and zero in FN and in every unused field (R72, R75). -/
def wellFormed (w : Word32) : Bool :=
  match formatOf (Fields.ofWord w).op with
  | none => false
  | some fmt => (Fields.ofWord w).unusedZero fmt

end Sys2Proof
end

