-- ==== Sys2Proof/Decode.lean ====
section
/-!
DEFINITION. The decoder and the encoder (30_encoding.md R70 to R75).

A command is one 32-bit word that the host writes to CMD; nothing is fetched from MEM (R64), so the
decoder reads a word and no bytes have to be put in order (log 12).
-/

namespace Sys2Proof

/-! ## Fields (R70) -/

/-- OP, bits [7:0]. -/
def opField (w : Word32) : BitVec 8 := w.extractLsb' 0 8
/-- RD, bits [11:8]. -/
def rdField (w : Word32) : RegIdx := w.extractLsb' 8 4
/-- RA, bits [15:12]. -/
def raField (w : Word32) : RegIdx := w.extractLsb' 12 4
/-- RB, bits [19:16]. -/
def rbField (w : Word32) : RegIdx := w.extractLsb' 16 4
/-- RC, bits [23:20]. -/
def rcField (w : Word32) : RegIdx := w.extractLsb' 20 4

/-! ## The opcode table (R72, R74) -/

/-- The fixed-bit mask of a sub-format (R72). -/
def formatMask : Format → Word32
  | .N => 0xFFFFFFFF
  | .A => 0xFFFF0FFF
  | .AB => 0xFFF00FFF
  | .AC => 0xFF0F0FFF
  | .ABC => 0xFF000FFF
  | .DA => 0xFFFF00FF
  | .DAB => 0xFFF000FF

/-- One row of the opcode table: OP, sub-format, and the command the register fields RD, RA, RB, RC
make (R74). -/
structure Row where
  op : BitVec 8
  fmt : Format
  build : RegIdx → RegIdx → RegIdx → RegIdx → Instr

/-- A row's match value: `zext_32(OP)` (R74). -/
def Row.pattern (r : Row) : Word32 := r.op.setWidth 32

/-- The opcode map of R74, in the table's order. -/
def opcodeTable : List Row :=
  [ ⟨0x10, .N, fun _ _ _ _ => .keccakf⟩,
    ⟨0x11, .A, fun _ ra _ _ => .sload ra⟩,
    ⟨0x12, .A, fun _ ra _ _ => .sstore ra⟩,
    ⟨0x13, .N, fun _ _ _ _ => .sinit256⟩,
    ⟨0x14, .N, fun _ _ _ _ => .sinit512⟩,
    ⟨0x15, .AB, fun _ ra rb _ => .sabsorb ra rb⟩,
    ⟨0x16, .N, fun _ _ _ _ => .sfinal⟩,
    ⟨0x17, .A, fun _ ra _ _ => .ssqueeze ra⟩,
    ⟨0x18, .ABC, fun _ ra rb rc => .keccak256 ra rb rc⟩,
    ⟨0x19, .ABC, fun _ ra rb rc => .keccak512 ra rb rc⟩,
    ⟨0x20, .DAB, fun rd ra rb _ => .fnv1 rd ra rb⟩,
    ⟨0x21, .ABC, fun _ ra rb rc => .fnv1v ra rb rc⟩,
    ⟨0x30, .AC, fun _ ra _ rc => .eseed ra rc⟩,
    ⟨0x31, .DA, fun rd ra _ _ => .enum rd ra⟩,
    ⟨0x32, .N, fun _ _ _ _ => .ecrst⟩,
    ⟨0x33, .DA, fun rd ra _ _ => .ecip rd ra⟩,
    ⟨0x38, .DA, fun rd ra _ _ => .prime rd ra⟩,
    ⟨0x39, .DA, fun rd ra _ _ => .lcount rd ra⟩,
    ⟨0x3A, .DA, fun rd ra _ _ => .dcount rd ra⟩,
    ⟨0x40, .AB, fun _ ra rb _ => .ctxset ra rb⟩,
    ⟨0x41, .A, fun _ ra _ _ => .buildlc ra⟩,
    ⟨0x50, .AC, fun _ ra _ rc => .ditem512 ra rc⟩,
    ⟨0x51, .AC, fun _ ra _ rc => .ditem1024 ra rc⟩,
    ⟨0x52, .AC, fun _ ra _ rc => .ditem2048 ra rc⟩ ]

/-! ## The decoder (R73) -/

/-- Why a word is no command (R75). -/
inductive Reject where
  /-- R75 reserves this OP. -/
  | reservedOpcode (op : BitVec 8)
  /-- The OP is assigned, but FN or an unused register field is not 0; the offending bits. -/
  | reservedBits (bits : Word32)
deriving DecidableEq, Repr

/-- R73: look the OP up, then test the word against the row's mask and match. -/
def decode (w : Word32) : Except Reject Instr :=
  match opcodeTable.find? (fun r => r.op == opField w) with
  | none => .error (.reservedOpcode (opField w))
  | some r =>
    if w &&& formatMask r.fmt = r.pattern then
      .ok (r.build (rdField w) (raField w) (rbField w) (rcField w))
    else .error (.reservedBits ((w &&& formatMask r.fmt) ^^^ r.pattern))

/-- The command of a word given as the opcode table numbers its bits (bit 0 the least significant).
A row has at most 32 bits, and the bits above `nbits` are 0. -/
def decodeTableWord (nbits w : Nat) : Option Instr :=
  if nbits ≤ 32 ∧ w < 2 ^ 32 then
    match decode (BitVec.ofNat 32 w) with
    | .ok i => some i
    | .error _ => none
  else none

/-! ## The encoder (R70, R74) -/

/-- Put the fields at their places, FN = 0 (R70). -/
def assemble (op : BitVec 8) (rd ra rb rc : RegIdx) : Word32 :=
  0#8 ++ rc ++ rb ++ ra ++ rd ++ op

/-- The word of a command: its OP of R74, its register fields, and 0 elsewhere. -/
def encode : Instr → Word32
  | .keccakf => assemble 0x10 0 0 0 0
  | .sload ra => assemble 0x11 0 ra 0 0
  | .sstore ra => assemble 0x12 0 ra 0 0
  | .sinit256 => assemble 0x13 0 0 0 0
  | .sinit512 => assemble 0x14 0 0 0 0
  | .sabsorb ra rb => assemble 0x15 0 ra rb 0
  | .sfinal => assemble 0x16 0 0 0 0
  | .ssqueeze ra => assemble 0x17 0 ra 0 0
  | .keccak256 ra rb rc => assemble 0x18 0 ra rb rc
  | .keccak512 ra rb rc => assemble 0x19 0 ra rb rc
  | .fnv1 rd ra rb => assemble 0x20 rd ra rb 0
  | .fnv1v ra rb rc => assemble 0x21 0 ra rb rc
  | .eseed ra rc => assemble 0x30 0 ra 0 rc
  | .enum rd ra => assemble 0x31 rd ra 0 0
  | .ecrst => assemble 0x32 0 0 0 0
  | .ecip rd ra => assemble 0x33 rd ra 0 0
  | .prime rd ra => assemble 0x38 rd ra 0 0
  | .lcount rd ra => assemble 0x39 rd ra 0 0
  | .dcount rd ra => assemble 0x3A rd ra 0 0
  | .ctxset ra rb => assemble 0x40 0 ra rb 0
  | .buildlc ra => assemble 0x41 0 ra 0 0
  | .ditem512 ra rc => assemble 0x50 0 ra 0 rc
  | .ditem1024 ra rc => assemble 0x51 0 ra 0 rc
  | .ditem2048 ra rc => assemble 0x52 0 ra 0 rc

end Sys2Proof
end

