-- ==== Sys2Proof/Config.lean ====
section
/-!
DEFINITION. What one implementation fixes, and the values the spec leaves open.

The open parameters are MEM_BYTES (00_scope.md R7, U13) and WINDOW_BASE (93_implementation_defined.md
U6). LATENCY (R7, U14) is where the host's `wait` stands among its actions; log 1.
-/

namespace Sys2Proof

/-- The parameters of one machine. A state carries them and no step changes them (logs 2 and 11). -/
structure Config where
  /-- MEM_BYTES: MEM has the addresses 0 to `memBytes - 1` (R7, R50). -/
  memBytes : Nat
  /-- WINDOW_BASE: where the platform puts the 256-byte host register window (R214, U6). -/
  windowBase : Nat
deriving DecidableEq, Repr

/-- The parameters of the reset state: DESIGN CHOICE, the spec leaves them open. MEM_BYTES is 2^64, the
largest R7 allows (log 2), and WINDOW_BASE is 0 (log 11). -/
def Config.reset : Config := { memBytes := 2 ^ 64, windowBase := 0 }

/-- FREE VALUE. What a window read made while BUSY = 1 returns (R215, U4), one for each draw. Log 4. -/
opaque Config.freeWord : Nat → Word

/-- FREE VALUE. What reset leaves in byte `k` of the destination of the command it cuts off (R231, U5):
`freeByte draw k`. Log 5. -/
opaque Config.freeByte : Nat → Nat → Byte

end Sys2Proof
end

