-- ==== Sys2Proof/Machine/State.lean ====
section
/-!
DEFINITION. The state of the machine: all the spec gives the engine (10_state.md), MEM
(20_memory.md R50), the two parameters, and the model's own three fields for the outside world
(INVENTORY.md, '## State').

Reserved bits of STATUS and SCTRL, error codes 6 to 15 and SPH value 3 never occur (U10, U11, U12), so
they are not stored; Machine/Flags.lean lays the fields out as the host reads them (log 14).
-/

namespace Sys2Proof.Machine

/-! ## The permutation state and the sponge controller (R24, R25) -/

/-- The 25 lanes S[0] to S[24]; lane S[x + 5·y] is column x, row y (R24). -/
abbrev Lanes := Vector Word 25

/-- SPH, the phase of the sponge controller (R25). -/
inductive Phase where
  | idle | absorb | squeeze
deriving DecidableEq, Repr

/-- SW, the width of the sponge: 0 = 256-bit, 1 = 512-bit (R25). -/
inductive Width where
  | w256 | w512
deriving DecidableEq, Repr

/-- The permutation state and the three fields of the sponge controller (R24, R25). A private Keccak
state of a command (R32) is a value of this type too. -/
structure Sponge where
  /-- S, the permutation state. -/
  lanes : Lanes
  /-- SPH. -/
  sph : Phase
  /-- SW. -/
  sw : Width
  /-- SPOS, the bytes absorbed into the current block. -/
  spos : Nat
deriving DecidableEq, Repr

/-! ## The context registers and the epoch cache (R26, R27) -/

/-- LCBASE and LCCOUNT, which locate the light cache (R26). -/
structure Context where
  lcbase : Word
  lccount : Word
deriving DecidableEq, Repr

/-- The one slot of the reverse lookup: ECEPOCH and ECSEED (R27). -/
structure EpochCache where
  ecepoch : Word
  ecseed : Bytes 32
deriving DecidableEq, Repr

/-! ## Status and errors (R29, R30, R201) -/

/-- The error codes of R201; codes 6 to 15 never occur (U11). -/
inductive ErrCode where
  | none | illegalCmd | sequence | context | invalidEpoch | busFault
deriving DecidableEq, Repr

/-- The fields of STATUS (R29). -/
structure Status where
  busy : Bool
  err : Bool
  nf : Bool
  ovr : Bool
  ecode : ErrCode
deriving DecidableEq, Repr

/-! ## Memory (R50) -/

/-- MEM as (address, byte) pairs, addresses strictly rising, no pair equal to what an unlisted address
reads as (Machine/Memory.lean). -/
abbrev Memory := List Host.Cell

/-! ## The outside world: the host and the platform (R20, R77, R214, R230) -/

/-- The width of a window access; only 64-bit ones are defined (R214, U2). -/
inductive AccessWidth where
  | b8 | b16 | b32 | b64
deriving DecidableEq, Repr

/-- One action from outside the engine. -/
inductive HostAction where
  /-- A window write of `v` at a platform address (R215). -/
  | write (width : AccessWidth) (addr : Nat) (v : Word)
  /-- A window read at a platform address (R215). -/
  | read (width : AccessWidth) (addr : Nat)
  /-- Read STATUS until BUSY = 0 (R77): while BUSY = 1 the engine moves. -/
  | wait
  /-- A host write of bytes to MEM (R50, R77 `mem`). -/
  | memWrite (a : Nat) (bs : List Byte)
  /-- A host read of `n` bytes of MEM (R50). -/
  | memRead (a n : Nat)
  /-- The platform asserts reset (R230, R231). -/
  | reset
deriving DecidableEq, Repr

/-- What the host's last read returned (the model's own record of it; log 15). -/
inductive Reply where
  | none
  | word (v : Word)
  | bytes (bs : List Byte)
deriving DecidableEq, Repr

/-! ## The state -/

/-- The whole state of the machine. -/
structure State where
  /-- X[0] to X[15] (R21). -/
  x : Vector Word 16
  /-- S, SPH, SW and SPOS (R24, R25). -/
  sponge : Sponge
  /-- LCBASE and LCCOUNT (R26). -/
  ctx : Context
  /-- ECEPOCH and ECSEED (R27). -/
  ecache : EpochCache
  /-- STATUS (R29). -/
  status : Status
  /-- ERRCMD (R30). -/
  errcmd : Word
  /-- ERRADDR (R30). -/
  erraddr : Word
  /-- CMDLATCH, hidden from the host (R31). -/
  cmdlatch : Word32
  /-- MEM (R50). -/
  mem : Memory
  /-- MEM_BYTES and WINDOW_BASE; no step changes them (R7, R33; logs 2 and 11). -/
  cfg : Config
  /-- The outside world's coming actions, the next one first (the model's own; log 1). -/
  hostQueue : List HostAction
  /-- What the host's last read returned (the model's own; log 15). -/
  reply : Reply
  /-- How many free values have been drawn (the model's own; log 4). -/
  draws : Nat
deriving DecidableEq, Repr

/-- Why the machine stops with a fault. The spec's own errors (R201) are no faults here: each is a next
state with the error record written (R203). -/
inductive Fault where
  /-- Raised by BUILDLC, DITEM512, DITEM1024 and DITEM2048 when LCCOUNT ≠ 0 and the light-cache region
  is not inside MEM. CTXSET never leaves that (R26, R170), so no run from reset reaches it. Safe. Log 9. -/
  | lightCacheOutsideMem
  /-- Raised by a host read or write of MEM bytes that do not exist (R50, R51). Safe. Log 10. -/
  | hostAccessOutsideMem
deriving DecidableEq, Repr

/-- Why the machine refuses to go on. -/
inductive Refusal where
  /-- Raised by `exec` for a command without a meaning yet; the mnemonic is the opcode table's. Safe. -/
  | notModelled (mnemonic : String)
  /-- Raised by a host window access that is not an aligned 64-bit one inside the window
  (R214; U2 gives the treatment `refuse`). Safe. Log 6. -/
  | windowAccess
  /-- Raised by a host access to a MEM byte that the command in flight reads or writes
  (R62; U3 gives the treatment `refuse`). Safe. Log 7. -/
  | memoryInFlight
deriving DecidableEq, Repr

/-- Reset leaves the sponge with all lanes 0, SPH = IDLE, SW = 0, SPOS = 0 (R34). -/
def Sponge.reset : Sponge := { lanes := Vector.replicate 25 0, sph := .idle, sw := .w256, spos := 0 }

/-- Reset leaves LCBASE = LCCOUNT = 0 (R34). -/
def Context.reset : Context := { lcbase := 0, lccount := 0 }

/-- Reset and ECRST leave the resolved pair (0, zeros(32)) (R27, R34, R145). -/
def EpochCache.reset : EpochCache := { ecepoch := 0, ecseed := Vector.replicate 32 0 }

/-- Reset leaves every field of STATUS 0 (R34). -/
def Status.reset : Status := { busy := false, err := false, nf := false, ovr := false, ecode := .none }

/-- The machine right after reset (R34, R230). MEM lists nothing (log 3). -/
def State.reset : State :=
  { x := Vector.replicate 16 0
    sponge := Sponge.reset
    ctx := Context.reset
    ecache := EpochCache.reset
    status := Status.reset
    errcmd := 0
    erraddr := 0
    cmdlatch := 0
    mem := []
    cfg := Config.reset
    hostQueue := []
    reply := .none
    draws := 0 }

end Sys2Proof.Machine
end

