-- ==== Sys2Proof/Machine/Bytes.lean ====
section
/-!
DEFINITION. Byte strings and their little-endian accessors (00_scope.md R9 to R11; 20_memory.md R54).
-/

namespace Sys2Proof.Machine

/-- Element `i` of a vector of bit vectors; 0 where there is no element `i`. Every index the rules use
is in range. -/
def elem {w n : Nat} (v : Vector (BitVec w) n) (i : Nat) : BitVec w := v.toList.getD i 0

/-- `zeros(n)` (R10). -/
def zeros (n : Nat) : Bytes n := Vector.replicate n 0

/-- `ROL64(v, n)` (R9). -/
def rol64 (v : Word) (n : Nat) : Word := v.rotateLeft n

/-- Byte `k` of a little-endian integer: the byte of weight 2^(8k) (R54). -/
def byteOf {w : Nat} (v : BitVec w) (k : Nat) : Byte := v.extractLsb' (8 * k) 8

/-- `LE32(B, j)`: bytes 4j to 4j+3, the last the most significant (R11). It is also `B.word32[j]` (R14). -/
def le32 {n : Nat} (B : Bytes n) (j : Nat) : Word32 :=
  elem B (4 * j + 3) ++ elem B (4 * j + 2) ++ elem B (4 * j + 1) ++ elem B (4 * j)

/-- `LE64(B, j)`: bytes 8j to 8j+7, the last the most significant (R11). -/
def le64 {n : Nat} (B : Bytes n) (j : Nat) : Word :=
  elem B (8 * j + 7) ++ elem B (8 * j + 6) ++ elem B (8 * j + 5) ++ elem B (8 * j + 4) ++
    elem B (8 * j + 3) ++ elem B (8 * j + 2) ++ elem B (8 * j + 1) ++ elem B (8 * j)

/-- The byte string of 32-bit words, each as `toLE32` (R11). -/
def ofWords32 {n : Nat} (ws : Vector Word32 n) : Bytes (4 * n) :=
  Vector.ofFn fun k => byteOf (elem ws (k.val / 4)) (k.val % 4)

/-- The first `n` bytes of `toLE64(S[0]) || toLE64(S[1]) || ...` (R11, R104, R112). -/
def ofLanes (n : Nat) (S : Lanes) : Bytes n :=
  Vector.ofFn fun k => byteOf (elem S (k.val / 8)) (k.val % 8)

/-- The lanes of a 200-byte state image: lane `i` is `LE64(B, i)` (R54, R111). -/
def toLanes (B : Bytes 200) : Lanes := Vector.ofFn fun i => le64 B i.val

/-- Bytewise XOR of two byte strings of equal length (R10). -/
def xorBytes {n : Nat} (A B : Bytes n) : Bytes n :=
  Vector.ofFn fun k => elem A k.val ^^^ elem B k.val

/-- `B` with `B.word32[j]` replaced by `v` (R14). -/
def setWord32 {n : Nat} (B : Bytes n) (j : Nat) (v : Word32) : Bytes n :=
  Vector.ofFn fun k => if k.val / 4 = j then byteOf v (k.val % 4) else elem B k.val

end Sys2Proof.Machine
end

