-- ==== Sys2Proof/Machine/Memory.lean ====
section
/-!
DEFINITION. MEM as a list in one canonical form, with the primitives MemRead and MemWrite
(20_memory.md R50, R53, R56).
-/

namespace Sys2Proof.Machine.Memory

/-- What an address that is not listed reads as. DESIGN CHOICE: the spec leaves MEM's contents at
power-on to the platform (R232). Log 3. -/
def unlisted : Byte := 0

/-- The canonical form: addresses strictly rising, and no cell that an unlisted address would read as. -/
abbrev wf (m : Memory) : Prop :=
  m.Pairwise (fun c d => c.1 < d.1) ∧ ∀ c ∈ m, c.2 ≠ unlisted

/-- Every listed address lies in MEM (R50). -/
abbrev within (m : Memory) (bytes : Nat) : Prop := ∀ c ∈ m, c.1 < bytes

/-- The byte at an address: the last value written to it (R56). -/
def read : Memory → Nat → Byte
  | [], _ => unlisted
  | c :: m, a => if c.1 = a then c.2 else read m a

/-- The cells of a byte string laid at `a`, less those an unlisted address would read as. -/
def cells : Nat → List Byte → Memory
  | _, [] => []
  | a, b :: bs => if b = unlisted then cells (a + 1) bs else (a, b) :: cells (a + 1) bs

/-- `MemWrite(a, n, B)`: MEM[a+k] <- B[k] for k in 0 .. n−1, every other byte kept (R53). -/
def write (m : Memory) (a : Nat) (bs : List Byte) : Memory :=
  m.filter (fun c => decide (c.1 < a)) ++ cells a bs ++
    m.filter (fun c => decide (a + bs.length ≤ c.1))

/-- `MemRead(a, n)`: the bytes MEM[a] to MEM[a+n−1] (R53). -/
def readBytes (m : Memory) (a n : Nat) : Bytes n := Vector.ofFn fun k => read m (a + k.val)

end Sys2Proof.Machine.Memory
end

