-- ==== Sys2Proof/Machine/Ops.lean ====
section
/-!
DEFINITION. The named operations on the state: registers, regions of MEM, and error entry with its
return (10_state.md, 20_memory.md R51 to R53, 60_exceptions.md R203, R206).
-/

namespace Sys2Proof.Machine

/-- What `exec` and `step` answer. -/
abbrev Result := Host.Outcome State Fault Refusal

namespace State

/-! ## General registers (R21) -/

/-- `X[r]` (R12). -/
def readX (s : State) (r : RegIdx) : Word := elem s.x r.toNat

/-- `X[r] <- v` (R12). -/
def writeX (s : State) (r : RegIdx) (v : Word) : State := { s with x := s.x.set r.toNat v r.isLt }

/-! ## The other registers a command writes -/

/-- Write S, SPH, SW and SPOS (R24, R25). -/
def setSponge (s : State) (sp : Sponge) : State := { s with sponge := sp }

/-- Write LCBASE and LCCOUNT (R26). -/
def setCtx (s : State) (c : Context) : State := { s with ctx := c }

/-- Write ECEPOCH and ECSEED (R27). -/
def setEcache (s : State) (c : EpochCache) : State := { s with ecache := c }

/-- Write STATUS.NF (R29). -/
def setNf (s : State) (b : Bool) : State := { s with status := { s.status with nf := b } }

/-! ## Regions of MEM (R51 to R53) -/

/-- `valid(a, n)`: `n = 0`, or `a + n ≤ MEM_BYTES`, the sum exact (R51). -/
def valid (s : State) (a n : Nat) : Bool := n == 0 || decide (a + n ≤ s.cfg.memBytes)

/-- `MemRead(a, n)` (R53). -/
def memRead (s : State) (a n : Nat) : Bytes n := s.mem.readBytes a n

/-- `MemWrite(a, n, B)` with `n` the length of `B` (R53). -/
def memWrite (s : State) (a : Nat) (B : List Byte) : State := { s with mem := s.mem.write a B }

/-! ## Errors (R203, R206) -/

/-- Error entry: `raise E(a)`. ERR, ECODE, ERRCMD (the word in CMDLATCH) and ERRADDR are written, and
nothing else changes (R203). EngineStep clears BUSY afterwards (R31). -/
def raise (s : State) (e : ErrCode) (a : Word) : State :=
  { s with
    status := { s.status with err := true, ecode := e }
    errcmd := s.cmdlatch.setWidth 64
    erraddr := if e = .busFault then a else 0 }

/-- Return from an error: a write of 1 to STATUS bit 1 clears ERR and ECODE and restores nothing (R206). -/
def clearErr (s : State) : State :=
  { s with status := { s.status with err := false, ecode := .none } }

/-- A write of 1 to STATUS bit 3 clears OVR (R29, R208). -/
def clearOvr (s : State) : State := { s with status := { s.status with ovr := false } }

/-- A write to CMD or an X register while BUSY = 1 sets OVR (R208). -/
def setOvr (s : State) : State := { s with status := { s.status with ovr := true } }

/-! ## Issue and completion (R31, R215) -/

/-- A CMD write that is taken latches the word and sets BUSY (R215). -/
def latch (s : State) (w : Word32) : State :=
  { s with cmdlatch := w, status := { s.status with busy := true } }

/-- The end of EngineStep: `BUSY <- 0` (R31). -/
def complete (s : State) : State := { s with status := { s.status with busy := false } }

/-! ## The outside world -/

/-- The outside world's coming actions become `q` (log 1). -/
def setQueue (s : State) (q : List HostAction) : State := { s with hostQueue := q }

/-- The host has read `r` (log 15). -/
def setReply (s : State) (r : Reply) : State := { s with reply := r }

/-- One more free value has been drawn (log 4). -/
def draw (s : State) : State := { s with draws := s.draws + 1 }

end State

end Sys2Proof.Machine
end

