-- ==== Sys2Proof/Machine/Params.lean ====
section
/-!
DEFINITION. The parameters the source fixes (00_scope.md R5) and the ones the spec fixes (R6).
-/

namespace Sys2Proof.Machine

/-- RATE(SW): 136 bytes for 256 bits, 72 for 512, that is (1600 − 2·d)/8 (R5, R25). -/
def Width.rate : Width → Nat
  | .w256 => 136
  | .w512 => 72

/-- DLEN(SW), the digest length in bytes: 32 or 64 (R25). -/
def Width.dlen : Width → Nat
  | .w256 => 32
  | .w512 => 64

/-- FNV_PRIME (R5). -/
def fnvPrime : Word32 := 0x01000193

/-- ENUM_LIMIT: how many seeds the reverse lookup scans (R5). -/
def enumLimit : Nat := 30000

/-- LIGHT_INIT, bytes (R5). -/
def lightInit : Nat := 2 ^ 24
/-- LIGHT_GROWTH, bytes for each epoch (R5). -/
def lightGrowth : Nat := 2 ^ 17
/-- LIGHT_ITEM, bytes (R5). -/
def lightItem : Nat := 64
/-- FULL_INIT, bytes (R5). -/
def fullInit : Nat := 2 ^ 30
/-- FULL_GROWTH, bytes for each epoch (R5). -/
def fullGrowth : Nat := 2 ^ 23
/-- FULL_ITEM, bytes (R5). -/
def fullItem : Nat := 128

/-- CACHE_ROUNDS: light cache smoothing passes (R5). -/
def cacheRounds : Nat := 3
/-- DATASET_PARENTS: mixing rounds for each 512-bit item (R5). -/
def datasetParents : Nat := 256
/-- ECIP1099_EPOCH: the first epoch with a halved effective epoch (R5). -/
def ecip1099Epoch : Nat := 390
/-- L1_BYTES (R5). -/
def l1Bytes : Nat := 16384

/-- EPOCH_MAX: the largest epoch operand accepted (R6). -/
def epochMax : Nat := 2 ^ 31 - 1
/-- LCCOUNT_MAX: the largest item count CTXSET accepts (R6). -/
def lccountMax : Nat := 2 ^ 32 - 1

end Sys2Proof.Machine
end

