-- ==== Sys2Proof/Machine/Operands.lean ====
section
/-!
DEFINITION. How a command reads an operand register (10_state.md R22; 30_encoding.md R71;
42_epoch.md R141). There are no immediates and nothing is scaled.
-/

namespace Sys2Proof.Machine.State

/-- An address, length, count or index: all 64 bits, unsigned (R22). -/
def unsignedOp (s : State) (r : RegIdx) : Nat := (s.readX r).toNat

/-- A bound or an epoch: `sint`, the two's-complement reading of all 64 bits (R8, R22). -/
def sintOp (s : State) (r : RegIdx) : Int := (s.readX r).toInt

/-- A 32-bit quantity: bits [31:0], bits [63:32] ignored (R22). -/
def low32Op (s : State) (r : RegIdx) : Word32 := (s.readX r).setWidth 32

/-- `ValidEpoch(X[r])`: `0 ≤ sint(X[r]) ≤ EPOCH_MAX` (R141). -/
def validEpochOp (s : State) (r : RegIdx) : Bool :=
  decide (0 ≤ s.sintOp r) && decide (s.sintOp r ≤ (epochMax : Int))

/-- A valid epoch operand as a natural number (R141). -/
def epochOp (s : State) (r : RegIdx) : Nat := (s.sintOp r).toNat

end Sys2Proof.Machine.State
end

