-- ==== Sys2Proof/Machine/Permutation.lean ====
section
/-!
DEFINITION. The permutation Keccak-f[1600] (40_keccak.md R100 to R102).
-/

namespace Sys2Proof.Machine

/-- `A[x, y]`, the lane S[x + 5·y], index arithmetic mod 5 (R24, R100). -/
def lane (A : Lanes) (x y : Nat) : Word := elem A (x % 5 + 5 * (y % 5))

/-- The 25 lanes with `A[x, y] = f x y`, in the order of S[0] to S[24]. -/
def lanesOf (f : Nat → Nat → Word) : Lanes :=
  #v[f 0 0, f 1 0, f 2 0, f 3 0, f 4 0,
     f 0 1, f 1 1, f 2 1, f 3 1, f 4 1,
     f 0 2, f 1 2, f 2 2, f 3 2, f 4 2,
     f 0 3, f 1 3, f 2 3, f 3 3, f 4 3,
     f 0 4, f 1 4, f 2 4, f 3 4, f 4 4]

/-- The round constants RC[0] to RC[23] (R101). -/
def roundConstants : List Word :=
  [0x0000000000000001, 0x0000000000008082, 0x800000000000808A, 0x8000000080008000] ++
  [0x000000000000808B, 0x0000000080000001, 0x8000000080008081, 0x8000000000008009] ++
  [0x000000000000008A, 0x0000000000000088, 0x0000000080008009, 0x000000008000000A] ++
  [0x000000008000808B, 0x800000000000008B, 0x8000000000008089, 0x8000000000008003] ++
  [0x8000000000008002, 0x8000000000000080, 0x000000000000800A, 0x800000008000000A] ++
  [0x8000000080008081, 0x8000000000008080, 0x0000000080000001, 0x8000000080008008]

/-- The rotation offsets, row y = 0 first, x = 0 to 4 in each row (R102). -/
def rotationOffsets : List Nat :=
  [ 0,  1, 62, 28, 27] ++
  [36, 44,  6, 55, 20] ++
  [ 3, 10, 43, 25, 39] ++
  [41, 45, 15, 21,  8] ++
  [18,  2, 61, 56, 14]

/-- `ROT[x, y]` (R102). -/
def rot (x y : Nat) : Nat := rotationOffsets.getD (x % 5 + 5 * (y % 5)) 0

/-- `C[x]`, the parity of column x (R100, theta). -/
def columnParity (A : Lanes) (x : Nat) : Word :=
  lane A x 0 ^^^ lane A x 1 ^^^ lane A x 2 ^^^ lane A x 3 ^^^ lane A x 4

/-- theta (R100): `A[x,y] XOR D[x]` with `D[x] = C[x-1] XOR ROL64(C[x+1], 1)`. -/
def theta (A : Lanes) : Lanes :=
  let C : Vector Word 5 :=
    #v[columnParity A 0, columnParity A 1, columnParity A 2, columnParity A 3, columnParity A 4]
  lanesOf fun x y => lane A x y ^^^ (elem C ((x + 4) % 5) ^^^ rol64 (elem C ((x + 1) % 5)) 1)

/-- rho and pi (R100): `B[y, 2x+3y] <- ROL64(A[x,y], ROT[x,y])`. The lane that lands at column X and
row Y is the one with y = X and x = X + 3Y, mod 5. -/
def rhoPi (A : Lanes) : Lanes :=
  lanesOf fun X Y => rol64 (lane A (X + 3 * Y) X) (rot (X + 3 * Y) X)

/-- chi (R100): `B[x,y] XOR ((NOT B[x+1,y]) AND B[x+2,y])`. -/
def chi (B : Lanes) : Lanes :=
  lanesOf fun x y => lane B x y ^^^ (~~~ lane B (x + 1) y &&& lane B (x + 2) y)

/-- iota (R100): the round constant goes into `A[0,0]`. -/
def iota (A : Lanes) (rc : Word) : Lanes := A.set 0 (lane A 0 0 ^^^ rc)

/-- One round (R100). -/
def keccakRound (A : Lanes) (rc : Word) : Lanes := iota (chi (rhoPi (theta A))) rc

/-- `KeccakF(S)`: the 24 rounds in order (R100). -/
def keccakF (S : Lanes) : Lanes := roundConstants.foldl keccakRound S

end Sys2Proof.Machine
end

