-- ==== Sys2Proof/Machine/SpongeOps.lean ====
section
/-!
DEFINITION. The sponge: absorbing, padding, squeezing, and the one-shot functions K256 and K512
(40_keccak.md R103 to R106). The sponge commands run these on the architectural sponge; every other
command that hashes runs them on a private one (10_state.md R32).
-/

namespace Sys2Proof.Machine

/-- XOR `v` into lane `i`. -/
def xorLane (S : Lanes) (i : Nat) (v : Word) : Lanes := S.setIfInBounds i (elem S i ^^^ v)

/-- `AbsorbByte(S, p, b)` (R103). -/
def absorbByte (S : Lanes) (p : Nat) (b : Byte) : Lanes :=
  xorLane S (p / 8) (b.setWidth 64 <<< (8 * (p % 8)))

namespace Sponge

/-- A fresh sponge: lanes 0, phase ABSORB, SPOS 0 (R104, R113, R114). -/
def start (w : Width) : Sponge :=
  { lanes := Vector.replicate 25 0, sph := .absorb, sw := w, spos := 0 }

/-- One pass of the absorb loop: absorb the byte, advance SPOS, permute when the block is full
(R104, R115). -/
def absorbNext (sp : Sponge) (b : Byte) : Sponge :=
  let S := absorbByte sp.lanes sp.spos b
  if sp.spos + 1 = sp.sw.rate then { sp with lanes := keccakF S, spos := 0 }
  else { sp with lanes := S, spos := sp.spos + 1 }

/-- The absorb loop over a message (R104, R115). -/
def absorbAll (sp : Sponge) (M : List Byte) : Sponge := M.foldl absorbNext sp

/-- The state after the padding is absorbed, before the last permutation: 0x01 at SPOS, and the top bit
of the last lane of the block (R104, R105, R116). -/
def padded (sp : Sponge) : Lanes :=
  xorLane (absorbByte sp.lanes sp.spos 0x01) (sp.sw.rate / 8 - 1) 0x8000000000000000

/-- Pad and permute (R116). -/
def finish (sp : Sponge) : Sponge :=
  { sp with lanes := keccakF sp.padded, spos := 0, sph := .squeeze }

end Sponge

/-- The sponge after a whole message and its padding (R104). -/
def hashed (w : Width) (M : List Byte) : Sponge := ((Sponge.start w).absorbAll M).finish

/-- `K256(M) = Keccak(256, M)` (R104, R106). -/
def k256 (M : List Byte) : Bytes 32 := ofLanes 32 (hashed .w256 M).lanes

/-- `K512(M) = Keccak(512, M)` (R104, R106). -/
def k512 (M : List Byte) : Bytes 64 := ofLanes 64 (hashed .w512 M).lanes

end Sys2Proof.Machine
end

