-- ==== Sys2Proof/Machine/Cache.lean ====
section
/-!
DEFINITION. The light-cache context and the builder (44_cache.md R170 to R173).
-/

namespace Sys2Proof.Machine

namespace Context

/-- The address of item i: `LCBASE + 64·i` (R26, R171). -/
def itemAddr (c : Context) (i : Nat) : Nat := c.lcbase.toNat + 64 * i

/-- A read of `item(i)`: the 64 bytes MEM holds there now (R171). -/
def item (c : Context) (m : Memory) (i : Nat) : Bytes 64 := m.readBytes (c.itemAddr i) 64

/-- A write of `item(i)` (R171). -/
def putItem (c : Context) (m : Memory) (i : Nat) (v : Bytes 64) : Memory :=
  m.write (c.itemAddr i) v.toList

/-- The chain stage: item(0) from the seed, and each further item from the one before (R171). -/
def chain (c : Context) (n : Nat) (seed : Bytes 32) (m : Memory) : Memory :=
  (List.range (n - 1)).foldl (fun m k => c.putItem m (k + 1) (k512 (c.item m k).toList))
    (c.putItem m 0 (k512 seed.toList))

/-- One index of a smoothing pass: v is read before the write, w is the index before i, cyclically
(R171). -/
def smoothItem (c : Context) (n : Nat) (m : Memory) (i : Nat) : Memory :=
  let v := (le32 (c.item m i) 0).toNat % n
  let w := (n + i - 1) % n
  c.putItem m i (k512 (xorBytes (c.item m v) (c.item m w)).toList)

/-- One smoothing pass: increasing i, one at a time, on the memory as changed so far (R58, R171, R173). -/
def smoothPass (c : Context) (n : Nat) (m : Memory) : Memory := (List.range n).foldl (c.smoothItem n) m

/-- `BuildLightCache(n, seed)` with `n = LCCOUNT`: the chain stage, then 3 smoothing passes (R171). -/
def buildLightCache (c : Context) (seed : Bytes 32) (m : Memory) : Memory :=
  let n := c.lccount.toNat
  Nat.repeat (c.smoothPass n) cacheRounds (c.chain n seed m)

end Context

/-- The light-cache region `[LCBASE, LCBASE + 64·LCCOUNT)` lies in MEM (R26). -/
def State.lightCacheInMem (s : State) : Bool :=
  s.valid s.ctx.lcbase.toNat (64 * s.ctx.lccount.toNat)

/-- CTXSET ra, rb: set LCBASE and LCCOUNT; no memory is read or written (R170). -/
def execCtxset (ra rb : RegIdx) (s : State) : Result :=
  let base := s.unsignedOp ra
  let n := s.unsignedOp rb
  if n = 0 ∨ n > lccountMax then .next (s.raise .context 0)
  else if !s.valid base (64 * n) then .next (s.raise .busFault (s.readX ra))
  else .next (s.setCtx { lcbase := s.readX ra, lccount := s.readX rb })

/-- BUILDLC ra: build the light cache from the seed at X[ra], read in full first (R172). The rule has no
check of the light-cache region, because CTXSET made it (R26); the model stops where that does not hold
(log 9). -/
def execBuildlc (ra : RegIdx) (s : State) : Result :=
  let a := s.unsignedOp ra
  if s.ctx.lccount = 0 then .next (s.raise .context 0)
  else if !s.valid a 32 then .next (s.raise .busFault (s.readX ra))
  else if !s.lightCacheInMem then .fault .lightCacheOutsideMem
  else .next { s with mem := s.ctx.buildLightCache (s.memRead a 32) s.mem }

end Sys2Proof.Machine
end

