-- ==== Sys2Proof/Machine/Fnv.lean ====
section
/-!
DEFINITION. The FNV mixer and its commands (41_fnv.md R130 to R133).
-/

namespace Sys2Proof.Machine

/-- `fnv1(u, v) = ((u · 0x01000193) mod 2^32) XOR v`: multiply first, then XOR (R130). -/
def fnv1 (u v : Word32) : Word32 := (u * fnvPrime) ^^^ v

/-- `fnv1v(A, B)`: `fnv1` on each of the sixteen little-endian words (R131). -/
def fnv1v (A B : Bytes 64) : Bytes 64 :=
  ofWords32 (n := 16) (Vector.ofFn fun j => fnv1 (le32 A j.val) (le32 B j.val))

/-- FNV1 rd, ra, rb: `X[rd] <- zext_64(fnv1(X[ra][31:0], X[rb][31:0]))` (R132). -/
def execFnv1 (rd ra rb : RegIdx) (s : State) : Result :=
  .next (s.writeX rd ((fnv1 (s.low32Op ra) (s.low32Op rb)).setWidth 64))

/-- FNV1V ra, rb, rc: regions checked in the order a, b, c; both sources read before the write (R133). -/
def execFnv1v (ra rb rc : RegIdx) (s : State) : Result :=
  let a := s.unsignedOp ra
  let b := s.unsignedOp rb
  let c := s.unsignedOp rc
  if !s.valid a 64 then .next (s.raise .busFault (s.readX ra))
  else if !s.valid b 64 then .next (s.raise .busFault (s.readX rb))
  else if !s.valid c 64 then .next (s.raise .busFault (s.readX rc))
  else .next (s.memWrite c (fnv1v (s.memRead a 64) (s.memRead b 64)).toList)

end Sys2Proof.Machine
end

