-- ==== Sys2Proof/Machine/Dataset.lean ====
section
/-!
DEFINITION. The dataset item generator (45_dataset.md R180 to R187).
-/

namespace Sys2Proof.Machine

/-- One mixing round: the parent is chosen by mix word r mod 16 and the index seed (R180). -/
def mixRound (c : Context) (m : Memory) (sd : Word32) (mix : Bytes 64) (r : Nat) : Bytes 64 :=
  let t := fnv1 (sd ^^^ BitVec.ofNat 32 r) (le32 mix (r % 16))
  let p := t.toNat % c.lccount.toNat
  fnv1v mix (c.item m p)

/-- The mix before the first round: item(idx mod n), its word 0 XORed with the index truncated to 32
bits, hashed (R180). -/
def mixStart (c : Context) (m : Memory) (idx : Word) : Bytes 64 :=
  let sd : Word32 := idx.setWidth 32
  let mix := c.item m (idx.toNat % c.lccount.toNat)
  k512 (setWord32 mix 0 (le32 mix 0 ^^^ sd)).toList

/-- `Item512(idx)`: 256 rounds and a final K512 (R180). -/
def item512 (c : Context) (m : Memory) (idx : Word) : Bytes 64 :=
  k512 ((List.range datasetParents).foldl (mixRound c m (idx.setWidth 32)) (mixStart c m idx)).toList

/-- `Item1024(k) = Item512(2k) || Item512(2k+1)`, indices mod 2^64 (R181). -/
def item1024 (c : Context) (m : Memory) (k : Word) : Bytes 128 :=
  item512 c m (2 * k) ++ item512 c m (2 * k + 1)

/-- `Item2048(k)`: the four derivations 4k to 4k+3, indices mod 2^64 (R182). -/
def item2048 (c : Context) (m : Memory) (k : Word) : Bytes 256 :=
  item512 c m (4 * k) ++ item512 c m (4 * k + 1) ++ item512 c m (4 * k + 2) ++
    item512 c m (4 * k + 3)

/-- The three DITEM commands share this: CONTEXT, then the destination region; the item is computed
from the light cache as it is at the start and then written (R57, R183 to R185). The light-cache region
is CTXSET's to check (R26); the model stops where it is not in MEM (log 9). -/
def datasetOp {d : Nat} (make : Context → Memory → Word → Bytes d) (ra rc : RegIdx) (s : State) :
    Result :=
  let c := s.unsignedOp rc
  if s.ctx.lccount = 0 then .next (s.raise .context 0)
  else if !s.valid c d then .next (s.raise .busFault (s.readX rc))
  else if !s.lightCacheInMem then .fault .lightCacheOutsideMem
  else .next (s.memWrite c (make s.ctx s.mem (s.readX ra)).toList)

/-- DITEM512 ra, rc: one 512-bit derivation; the index is not range-checked (R183, R187). -/
def execDitem512 (ra rc : RegIdx) (s : State) : Result := datasetOp item512 ra rc s

/-- DITEM1024 ra, rc: one 1024-bit dataset item (R184). -/
def execDitem1024 (ra rc : RegIdx) (s : State) : Result := datasetOp item1024 ra rc s

/-- DITEM2048 ra, rc: one 2048-bit group of four derivations (R185). -/
def execDitem2048 (ra rc : RegIdx) (s : State) : Result := datasetOp item2048 ra rc s

end Sys2Proof.Machine
end

