-- ==== Sys2Proof/Machine/Flags.lean ====
section
/-!
DEFINITION. STATUS and SCTRL as the host reads them, the error codes, and the STATUS write
(10_state.md R25, R29; 60_exceptions.md R201, R206). The engine has no condition codes; the one flag a
command writes is NF, and only ENUM writes it (R29, R209).
-/

namespace Sys2Proof.Machine

/-- The code of an error in STATUS.ECODE (R201). -/
def ErrCode.code : ErrCode → BitVec 4
  | .none => 0
  | .illegalCmd => 1
  | .sequence => 2
  | .context => 3
  | .invalidEpoch => 4
  | .busFault => 5

/-- SPH as SCTRL bits [1:0] (R25). -/
def Phase.code : Phase → BitVec 2
  | .idle => 0
  | .absorb => 1
  | .squeeze => 2

/-- SW as SCTRL bit [2] (R25). -/
def Width.code : Width → BitVec 1
  | .w256 => 0
  | .w512 => 1

/-- STATUS: BUSY [0], ERR [1], NF [2], OVR [3], ECODE [11:8], every other bit 0 (R29). -/
def Status.word (st : Status) : Word :=
  0#52 ++ st.ecode.code ++ 0#4 ++ BitVec.ofBool st.ovr ++ BitVec.ofBool st.nf ++
    BitVec.ofBool st.err ++ BitVec.ofBool st.busy

/-- SCTRL: SPH [1:0], SW [2], SPOS [15:8], every other bit 0 (R25). -/
def Sponge.sctrl (sp : Sponge) : Word :=
  0#48 ++ BitVec.ofNat 8 sp.spos ++ 0#5 ++ sp.sw.code ++ sp.sph.code

/-- A write of `v` to STATUS: bit 1 clears ERR and ECODE, bit 3 clears OVR, the rest is ignored
(R29, R215). -/
def State.writeStatus (s : State) (v : Word) : State :=
  let s := if v.getLsbD 1 then s.clearErr else s
  if v.getLsbD 3 then s.clearOvr else s

end Sys2Proof.Machine
end

