-- ==== Sys2Proof/Machine/Epoch.lean ====
section
/-!
DEFINITION. Epoch seeds, the reverse lookup with its one-slot cache, and the ECIP-1099 rule
(42_epoch.md R140 to R147).
-/

namespace Sys2Proof.Machine

/-- `K256` of a seed. -/
def seedNext (seed : Bytes 32) : Bytes 32 := k256 seed.toList

/-- `EpochSeed(e)`: K256 applied e times to zeros(32) (R140). -/
def epochSeed (e : Nat) : Bytes 32 := Nat.repeat seedNext e (zeros 32)

/-- `EffectiveEpoch(e)`: e below 390, e div 2 from 390 on (R146). -/
def effectiveEpoch (e : Nat) : Nat := if e < ecip1099Epoch then e else e / 2

/-- The scan of the reverse lookup: `fuel` candidates from epoch `i`, whose seed is `seed` (R143). -/
def scanSeeds (q : Bytes 32) : Nat → Nat → Bytes 32 → Option (Nat × Bytes 32)
  | 0, _, _ => none
  | fuel + 1, i, seed => if q = seed then some (i, seed) else scanSeeds q fuel (i + 1) (seedNext seed)

/-- `EpochLookup(q)`: the answer, `none` for NotFound, and the cache afterwards. The cached seed first,
then one hash step on, then the scan of epochs 0 to 29999 (R143). -/
def epochLookup (c : EpochCache) (q : Bytes 32) : Option Word × EpochCache :=
  let t := seedNext c.ecseed
  if q = c.ecseed then (some c.ecepoch, c)
  else if q = t then (some (c.ecepoch + 1), { ecepoch := c.ecepoch + 1, ecseed := t })
  else
    match scanSeeds q enumLimit 0 (zeros 32) with
    | some (i, seed) => (some (BitVec.ofNat 64 i), { ecepoch := BitVec.ofNat 64 i, ecseed := seed })
    | none => (none, c)

/-- ESEED ra, rc: `EpochSeed(sint(X[ra]))` to X[rc] (R142). -/
def execEseed (ra rc : RegIdx) (s : State) : Result :=
  let c := s.unsignedOp rc
  if !s.validEpochOp ra then .next (s.raise .invalidEpoch 0)
  else if !s.valid c 32 then .next (s.raise .busFault (s.readX rc))
  else .next (s.memWrite c (epochSeed (s.epochOp ra)).toList)

/-- ENUM rd, ra: the epoch of the seed at X[ra] to X[rd], or NF = 1 (R144). -/
def execEnum (rd ra : RegIdx) (s : State) : Result :=
  let a := s.unsignedOp ra
  if !s.valid a 32 then .next (s.raise .busFault (s.readX ra))
  else
    match epochLookup s.ecache (s.memRead a 32) with
    | (some r, c) => .next (((s.setEcache c).writeX rd r).setNf false)
    | (none, c) => .next ((s.setEcache c).setNf true)

/-- ECRST: the epoch cache back to (0, zeros(32)); NF unchanged (R145). -/
def execEcrst (s : State) : Result := .next (s.setEcache { ecepoch := 0, ecseed := zeros 32 })

/-- ECIP rd, ra: `X[rd] <- zext_64(EffectiveEpoch(sint(X[ra])))` (R147). -/
def execEcip (rd ra : RegIdx) (s : State) : Result :=
  if !s.validEpochOp ra then .next (s.raise .invalidEpoch 0)
  else .next (s.writeX rd (BitVec.ofNat 64 (effectiveEpoch (s.epochOp ra))))

end Sys2Proof.Machine
end

