-- ==== Sys2Proof/Machine/Keccak.lean ====
section
/-!
DEFINITION. The Keccak permutation and sponge commands (40_keccak.md R107, R110 to R119). A meaning
makes its checks first, in the order of its rule, and then its effect (00_scope.md R13).
-/

namespace Sys2Proof.Machine

/-- KECCAKF: `S <- KeccakF(S)`, in every phase (R110). -/
def execKeccakf (s : State) : Result :=
  .next (s.setSponge { s.sponge with lanes := keccakF s.sponge.lanes })

/-- SLOAD ra: S from the 200-byte image at X[ra] (R111). -/
def execSload (ra : RegIdx) (s : State) : Result :=
  let a := s.unsignedOp ra
  if s.valid a 200 then
    .next (s.setSponge { s.sponge with lanes := toLanes (s.memRead a 200) })
  else .next (s.raise .busFault (s.readX ra))

/-- SSTORE ra: the 200-byte image of S to X[ra] (R112). -/
def execSstore (ra : RegIdx) (s : State) : Result :=
  let a := s.unsignedOp ra
  if s.valid a 200 then .next (s.memWrite a (ofLanes 200 s.sponge.lanes).toList)
  else .next (s.raise .busFault (s.readX ra))

/-- SINIT256: start a Keccak-256 sponge (R113). -/
def execSinit256 (s : State) : Result := .next (s.setSponge (Sponge.start .w256))

/-- SINIT512: start a Keccak-512 sponge (R114). -/
def execSinit512 (s : State) : Result := .next (s.setSponge (Sponge.start .w512))

/-- SABSORB ra, rb: absorb the X[rb] bytes at X[ra] (R115). -/
def execSabsorb (ra rb : RegIdx) (s : State) : Result :=
  let a := s.unsignedOp ra
  let n := s.unsignedOp rb
  if s.sponge.sph ≠ .absorb then .next (s.raise .sequence 0)
  else if s.valid a n then .next (s.setSponge (s.sponge.absorbAll (s.memRead a n).toList))
  else .next (s.raise .busFault (s.readX ra))

/-- SFINAL: pad and permute (R116). -/
def execSfinal (s : State) : Result :=
  if s.sponge.sph ≠ .absorb then .next (s.raise .sequence 0)
  else .next (s.setSponge s.sponge.finish)

/-- SSQUEEZE ra: the first DLEN(SW) bytes of S to X[ra] (R117). -/
def execSsqueeze (ra : RegIdx) (s : State) : Result :=
  let a := s.unsignedOp ra
  let d := s.sponge.sw.dlen
  if s.sponge.sph ≠ .squeeze then .next (s.raise .sequence 0)
  else if s.valid a d then .next (s.memWrite a (ofLanes d s.sponge.lanes).toList)
  else .next (s.raise .busFault (s.readX ra))

/-- KECCAK256 and KECCAK512 share this: source region first, then destination; the source is read in
full before the digest is written (R57, R118, R119). -/
def hashRegion {d : Nat} (hash : List Byte → Bytes d) (ra rb rc : RegIdx) (s : State) : Result :=
  let a := s.unsignedOp ra
  let n := s.unsignedOp rb
  let c := s.unsignedOp rc
  if !s.valid a n then .next (s.raise .busFault (s.readX ra))
  else if !s.valid c d then .next (s.raise .busFault (s.readX rc))
  else .next (s.memWrite c (hash (s.memRead a n).toList).toList)

/-- KECCAK256 ra, rb, rc (R118). -/
def execKeccak256 (ra rb rc : RegIdx) (s : State) : Result := hashRegion k256 ra rb rc s

/-- KECCAK512 ra, rb, rc (R119). -/
def execKeccak512 (ra rb rc : RegIdx) (s : State) : Result := hashRegion k512 ra rb rc s

end Sys2Proof.Machine
end

