-- ==== Sys2Proof/Machine/Size.lean ====
section
/-!
DEFINITION. The prime-size calculators (43_size.md R160 to R168). The loops of R160 carry a bound on
their passes so that they are structural recursions; the bound is never reached (log 16).
-/

namespace Sys2Proof.Machine

/-- The trial divisions of `OddPrime(n)` from divisor `d` on: no `d`, `d+2`, ... with `d·d ≤ n`
divides `n` (R160). -/
def noDivisorFrom (n : Nat) : Nat → Nat → Bool
  | 0, _ => true
  | fuel + 1, d =>
    if d * d ≤ n then
      if n % d = 0 then false else noDivisorFrom n fuel (d + 2)
    else true

/-- `OddPrime(n)` (R160). -/
def oddPrime (n : Nat) : Bool := noDivisorFrom n n 3

/-- The descending loop of `LargestPrimeAtMost` from the odd candidate `n` (R160). -/
def firstPrimeDown : Nat → Nat → Nat
  | 0, _ => 0
  | fuel + 1, n => if oddPrime n then n else firstPrimeDown fuel (n - 2)

/-- `LargestPrimeAtMost(b)` (R160). -/
def largestPrimeAtMost (b : Int) : Nat :=
  if b < 2 then 0
  else if b = 2 then 2
  else
    let n := b.toNat
    firstPrimeDown n (if n % 2 = 1 then n else n - 1)

/-- `LightCount(e) = LargestPrimeAtMost(262144 + 2048·e)` (R163, R164). -/
def lightCount (e : Nat) : Nat :=
  largestPrimeAtMost ((lightInit / lightItem + lightGrowth / lightItem * e : Nat) : Int)

/-- `FullCount(e) = LargestPrimeAtMost(8388608 + 65536·e)` (R163, R165). -/
def fullCount (e : Nat) : Nat :=
  largestPrimeAtMost ((fullInit / fullItem + fullGrowth / fullItem * e : Nat) : Int)

/-- `lightCacheSizeBytes = 64 · LightCount(e)`; the host multiplies (R168). -/
def lightCacheSizeBytes (e : Nat) : Nat := lightItem * lightCount e

/-- `fullDatasetSizeBytes = 128 · FullCount(e)`; the host multiplies (R168). -/
def fullDatasetSizeBytes (e : Nat) : Nat := fullItem * fullCount e

/-- PRIME rd, ra: `X[rd] <- zext_64(LargestPrimeAtMost(sint(X[ra])))`, every bound accepted (R162). -/
def execPrime (rd ra : RegIdx) (s : State) : Result :=
  .next (s.writeX rd (BitVec.ofNat 64 (largestPrimeAtMost (s.sintOp ra))))

/-- LCOUNT and DCOUNT share this: the epoch check, then the count to X[rd] (R166, R167). -/
def countOp (count : Nat → Nat) (rd ra : RegIdx) (s : State) : Result :=
  if !s.validEpochOp ra then .next (s.raise .invalidEpoch 0)
  else .next (s.writeX rd (BitVec.ofNat 64 (count (s.epochOp ra))))

/-- LCOUNT rd, ra: the light cache item count of an effective epoch (R166). -/
def execLcount (rd ra : RegIdx) (s : State) : Result := countOp lightCount rd ra s

/-- DCOUNT rd, ra: the full dataset item count of an effective epoch (R167). -/
def execDcount (rd ra : RegIdx) (s : State) : Result := countOp fullCount rd ra s

end Sys2Proof.Machine
end

