-- ==== Sys2Proof/Machine/Dispatch.lean ====
section
/-!
DEFINITION. `exec`: the meaning of every command (30_encoding.md R73, "the command's rule runs").
-/

namespace Sys2Proof.Machine

/-- The command's rule, run on a state whose CMDLATCH holds the command's word (R31, R73). -/
def exec (i : Instr) (s : State) : Host.Outcome State Fault Refusal :=
  match i with
  | .keccakf => Sys2Proof.Machine.execKeccakf s
  | .sload ra => Sys2Proof.Machine.execSload ra s
  | .sstore ra => Sys2Proof.Machine.execSstore ra s
  | .sinit256 => Sys2Proof.Machine.execSinit256 s
  | .sinit512 => Sys2Proof.Machine.execSinit512 s
  | .sabsorb ra rb => Sys2Proof.Machine.execSabsorb ra rb s
  | .sfinal => Sys2Proof.Machine.execSfinal s
  | .ssqueeze ra => Sys2Proof.Machine.execSsqueeze ra s
  | .keccak256 ra rb rc => Sys2Proof.Machine.execKeccak256 ra rb rc s
  | .keccak512 ra rb rc => Sys2Proof.Machine.execKeccak512 ra rb rc s
  | .fnv1 rd ra rb => Sys2Proof.Machine.execFnv1 rd ra rb s
  | .fnv1v ra rb rc => Sys2Proof.Machine.execFnv1v ra rb rc s
  | .eseed ra rc => Sys2Proof.Machine.execEseed ra rc s
  | .enum rd ra => Sys2Proof.Machine.execEnum rd ra s
  | .ecrst => Sys2Proof.Machine.execEcrst s
  | .ecip rd ra => Sys2Proof.Machine.execEcip rd ra s
  | .prime rd ra => Sys2Proof.Machine.execPrime rd ra s
  | .lcount rd ra => Sys2Proof.Machine.execLcount rd ra s
  | .dcount rd ra => Sys2Proof.Machine.execDcount rd ra s
  | .ctxset ra rb => Sys2Proof.Machine.execCtxset ra rb s
  | .buildlc ra => Sys2Proof.Machine.execBuildlc ra s
  | .ditem512 ra rc => Sys2Proof.Machine.execDitem512 ra rc s
  | .ditem1024 ra rc => Sys2Proof.Machine.execDitem1024 ra rc s
  | .ditem2048 ra rc => Sys2Proof.Machine.execDitem2048 ra rc s

end Sys2Proof.Machine
end

