-- ==== Sys2Proof/Machine/Engine.lean ====
section
/-!
DEFINITION. The engine's step (10_state.md R31; 30_encoding.md R73).
-/

namespace Sys2Proof.Machine

/-- `Execute(w)` with w in CMDLATCH: decode, then the command's rule; a word that is no command raises
ILLEGAL_CMD and nothing else runs (R73, R202). -/
def execute (s : State) : Result :=
  match decode s.cmdlatch with
  | .error _ => .next (s.raise .illegalCmd 0)
  | .ok i => exec i s

/-- `EngineStep`: `Execute(CMDLATCH)`, then `BUSY <- 0` (R31). -/
def engineStep (s : State) : Result :=
  match execute s with
  | .next t => .next t.complete
  | .fault f => .fault f
  | .refused r => .refused r

end Sys2Proof.Machine
end

