-- ==== Sys2Proof/Machine/InFlight.lean ====
section
/-!
DEFINITION. What is known of a command before it runs: the error it will raise (60_exceptions.md R202,
R204) and the regions of MEM it reads and writes (20_memory.md R62). The host's duty towards a command
in flight (R62) and a reset that cuts one off (70_reset_and_hazards.md R231) are stated with these.

The error table is written from R204, apart from the checks inside the meanings.
-/

namespace Sys2Proof.Machine

/-- A region (a, n) of MEM (R51). -/
structure Region where
  base : Nat
  len : Nat
deriving DecidableEq, Repr

/-- Do the `n` bytes at `a` share a byte with the region? -/
def Region.meets (r : Region) (a n : Nat) : Bool :=
  decide (0 < n) && decide (0 < r.len) && decide (a < r.base + r.len) && decide (r.base < a + n)

/-- An error with its ERRADDR information (R203). -/
abbrev ErrInfo := ErrCode × Word

namespace State

/-- SEQUENCE unless SPH is the phase the command needs (R107, R201). -/
def phaseError (s : State) (p : Phase) : Option ErrInfo :=
  if s.sponge.sph = p then none else some (.sequence, 0)

/-- CONTEXT while LCCOUNT = 0 (R201). -/
def contextError (s : State) : Option ErrInfo :=
  if s.ctx.lccount = 0 then some (.context, 0) else none

/-- CONTEXT when a count operand is 0 or above LCCOUNT_MAX (R170, R201). -/
def countError (s : State) (r : RegIdx) : Option ErrInfo :=
  if s.unsignedOp r = 0 ∨ s.unsignedOp r > lccountMax then some (.context, 0) else none

/-- INVALID_EPOCH unless ValidEpoch holds of the operand (R141, R201). -/
def epochError (s : State) (r : RegIdx) : Option ErrInfo :=
  if s.validEpochOp r then none else some (.invalidEpoch, 0)

/-- BUS_FAULT(X[r]) unless the `n` bytes at X[r] are a valid region (R51, R201). -/
def busError (s : State) (r : RegIdx) (n : Nat) : Option ErrInfo :=
  if s.valid (s.unsignedOp r) n then none else some (.busFault, s.readX r)

end State

/-- The first error of a decoded command, in the order of R202 and R204; `none` when it raises none. -/
def errorOf (i : Instr) (s : State) : Option ErrInfo :=
  match i with
  | .keccakf | .sinit256 | .sinit512 | .fnv1 _ _ _ | .ecrst | .prime _ _ => none
  | .sload ra | .sstore ra => s.busError ra 200
  | .sabsorb ra rb => s.phaseError .absorb <|> s.busError ra (s.unsignedOp rb)
  | .sfinal => s.phaseError .absorb
  | .ssqueeze ra => s.phaseError .squeeze <|> s.busError ra s.sponge.sw.dlen
  | .keccak256 ra rb rc => s.busError ra (s.unsignedOp rb) <|> s.busError rc 32
  | .keccak512 ra rb rc => s.busError ra (s.unsignedOp rb) <|> s.busError rc 64
  | .fnv1v ra rb rc => s.busError ra 64 <|> s.busError rb 64 <|> s.busError rc 64
  | .eseed ra rc => s.epochError ra <|> s.busError rc 32
  | .enum _ ra => s.busError ra 32
  | .ecip _ ra | .lcount _ ra | .dcount _ ra => s.epochError ra
  | .ctxset ra rb => s.countError rb <|> s.busError ra (64 * s.unsignedOp rb)
  | .buildlc ra => s.contextError <|> s.busError ra 32
  | .ditem512 _ rc => s.contextError <|> s.busError rc 64
  | .ditem1024 _ rc => s.contextError <|> s.busError rc 128
  | .ditem2048 _ rc => s.contextError <|> s.busError rc 256

/-- The light-cache region `[LCBASE, LCBASE + 64·LCCOUNT)` (R26, R62). -/
def State.lightCache (s : State) : Region := ⟨s.ctx.lcbase.toNat, 64 * s.ctx.lccount.toNat⟩

/-- The regions a command reads when it raises no error (R62). -/
def sourcesOf (i : Instr) (s : State) : List Region :=
  let x := s.unsignedOp
  match i with
  | .keccakf | .sinit256 | .sinit512 | .sfinal | .fnv1 _ _ _ | .ecrst | .ecip _ _ | .prime _ _
  | .lcount _ _ | .dcount _ _ | .ctxset _ _ | .sstore _ | .ssqueeze _ | .eseed _ _ => []
  | .sload ra => [⟨x ra, 200⟩]
  | .sabsorb ra rb => [⟨x ra, x rb⟩]
  | .keccak256 ra rb _ | .keccak512 ra rb _ => [⟨x ra, x rb⟩]
  | .fnv1v ra rb _ => [⟨x ra, 64⟩, ⟨x rb, 64⟩]
  | .enum _ ra => [⟨x ra, 32⟩]
  | .buildlc ra => [⟨x ra, 32⟩, s.lightCache]
  | .ditem512 _ _ | .ditem1024 _ _ | .ditem2048 _ _ => [s.lightCache]

/-- The region a command writes when it raises no error; no command writes more than one (R57, R58). -/
def destOf (i : Instr) (s : State) : Option Region :=
  let x := s.unsignedOp
  match i with
  | .keccakf | .sload _ | .sinit256 | .sinit512 | .sabsorb _ _ | .sfinal | .fnv1 _ _ _ | .enum _ _
  | .ecrst | .ecip _ _ | .prime _ _ | .lcount _ _ | .dcount _ _ | .ctxset _ _ => none
  | .sstore ra => some ⟨x ra, 200⟩
  | .ssqueeze ra => some ⟨x ra, s.sponge.sw.dlen⟩
  | .keccak256 _ _ rc => some ⟨x rc, 32⟩
  | .keccak512 _ _ rc => some ⟨x rc, 64⟩
  | .fnv1v _ _ rc => some ⟨x rc, 64⟩
  | .eseed _ rc => some ⟨x rc, 32⟩
  | .buildlc _ => some s.lightCache
  | .ditem512 _ rc => some ⟨x rc, 64⟩
  | .ditem1024 _ rc => some ⟨x rc, 128⟩
  | .ditem2048 _ rc => some ⟨x rc, 256⟩

/-- The command in flight, if it is a legal one that will raise no error: only such a command touches
MEM (R200). -/
def State.inFlight (s : State) : Option Instr :=
  if s.status.busy then
    match decode s.cmdlatch with
    | .error _ => none
    | .ok i => if (errorOf i s).isSome then none else some i
  else none

/-- Does a host access to the `n` bytes at `a` touch the command in flight (R62)? -/
def State.touchesInFlight (s : State) (a n : Nat) : Bool :=
  match s.inFlight with
  | none => false
  | some i => (sourcesOf i s ++ (destOf i s).toList).any fun r => r.meets a n

end Sys2Proof.Machine
end

