-- ==== Sys2Proof/Machine/Window.lean ====
section
/-!
DEFINITION. The host register window (60_exceptions.md R205, R208, R214, R215).
-/

namespace Sys2Proof.Machine

/-- The offset of a platform address in the window, if it is one of the 256 bytes there (R214, U6). -/
def windowOffset (cfg : Config) (addr : Nat) : Option Nat :=
  if cfg.windowBase ≤ addr ∧ addr < cfg.windowBase + 256 then some (addr - cfg.windowBase) else none

/-- The offset of a defined access: 64 bits wide, inside the window, 8-byte aligned (R214). Every other
access is unspecified (U2). -/
def definedAccess (cfg : Config) (width : AccessWidth) (addr : Nat) : Option Nat :=
  match width, windowOffset cfg addr with
  | .b64, some off => if off % 8 = 0 then some off else none
  | _, _ => none

namespace State

/-- `HostWrite(off, v)` (R215): X and CMD writes set OVR while BUSY = 1; a CMD write is discarded while
ERR = 1 (R205); STATUS clears by ones; every other offset ignores the write. Log 8. -/
def hostWrite (s : State) (off : Nat) (v : Word) : State :=
  if off < 0x080 then
    if s.status.busy then s.setOvr else s.writeX (BitVec.ofNat 4 (off / 8)) v
  else if off = 0x080 then
    if s.status.busy then s.setOvr
    else if s.status.err then s
    else s.latch (v.setWidth 32)
  else if off = 0x088 then s.writeStatus v
  else s

/-- The register at an offset, as the host reads it while BUSY = 0 (R214): 0 for CMD and for the
reserved offsets. -/
def windowWord (s : State) (off : Nat) : Word :=
  if off < 0x080 then elem s.x (off / 8)
  else if off = 0x088 then s.status.word
  else if off = 0x090 then s.errcmd
  else if off = 0x098 then s.erraddr
  else if off = 0x0A0 then s.ctx.lcbase
  else if off = 0x0A8 then s.ctx.lccount
  else if off = 0x0B0 then s.sponge.sctrl
  else if off = 0x0B8 then s.ecache.ecepoch
  else if 0x0C0 ≤ off ∧ off < 0x0E0 then le64 s.ecache.ecseed ((off - 0x0C0) / 8)
  else 0

/-- STATUS as read while BUSY = 1: BUSY = 1, ERR = 0, ECODE = 0, OVR as it stands, NF any value
(R215, U4). -/
def busyStatus (s : State) (nf : Bool) : Word :=
  ({ busy := true, err := false, nf := nf, ovr := s.status.ovr, ecode := .none } : Status).word

/-- `HostRead(off)` (R215). While BUSY = 1 a register reads as a free value (U4); the reserved offsets
are no registers and read 0 (U10). Log 4. -/
def hostRead (s : State) (off : Nat) : State :=
  if s.status.busy then
    if off = 0x088 then (s.setReply (.word (s.busyStatus ((Config.freeWord s.draws).getLsbD 0)))).draw
    else if 0x0E0 ≤ off then s.setReply (.word 0)
    else (s.setReply (.word (Config.freeWord s.draws))).draw
  else s.setReply (.word (s.windowWord off))

end State

end Sys2Proof.Machine
end

