-- ==== Sys2Proof/Machine/HostAct.lean ====
section
/-!
DEFINITION. What one action from outside does: window accesses, MEM accesses, `wait`, and reset
(20_memory.md R50, R60, R62; 60_exceptions.md R215; 70_reset_and_hazards.md R230 to R232).
-/

namespace Sys2Proof.Machine

namespace State

/-- MEM after a reset: unchanged (R232), but the destination bytes of a command cut off while BUSY = 1
take any value (R231, U5). Log 5. -/
def memAfterReset (s : State) : Memory :=
  match s.inFlight with
  | none => s.mem
  | some i =>
    match destOf i s with
    | none => s.mem
    | some r => s.mem.write r.base ((List.range r.len).map (Config.freeByte s.draws))

/-- Reset: every register takes its reset value, also while BUSY = 1, when the command in flight is
abandoned (R230, R231). The parameters and the outside world's own fields are not the engine's. -/
def platformReset (s : State) : State :=
  { State.reset with
    mem := s.memAfterReset
    cfg := s.cfg
    hostQueue := s.hostQueue
    reply := s.reply
    draws := if s.inFlight.isSome then s.draws + 1 else s.draws }

/-- A host access to the `n` bytes at `a` of MEM, of effect `k`: it stops where a byte does not exist
(R50; log 10) or belongs to the command in flight (R62, U3; log 7). -/
def hostMemory (s : State) (a n : Nat) (k : State) : Result :=
  if !s.valid a n then .fault .hostAccessOutsideMem
  else if s.touchesInFlight a n then .refused .memoryInFlight
  else .next k

end State

/-- One action from outside, on a state from whose pending actions it has been taken. A `wait` that finds
BUSY = 0 is over (R77). -/
def hostStep (act : HostAction) (s : State) : Result :=
  match act with
  | .write width addr v =>
    match definedAccess s.cfg width addr with
    | none => .refused .windowAccess
    | some off => .next (s.hostWrite off v)
  | .read width addr =>
    match definedAccess s.cfg width addr with
    | none => .refused .windowAccess
    | some off => .next (s.hostRead off)
  | .wait => .next s
  | .memWrite a bs => s.hostMemory a bs.length (s.memWrite a bs)
  | .memRead a n => s.hostMemory a n (s.setReply (.bytes (s.memRead a n).toList))
  | .reset => .next s.platformReset

/-- The engine moves next: BUSY = 1, and the host waits or has nothing left to do (log 1). -/
def State.engineMoves (s : State) : Bool :=
  s.status.busy &&
    match s.hostQueue with
    | [] => true
    | .wait :: _ => true
    | _ => false

end Sys2Proof.Machine
end

