-- ==== Sys2Proof/Machine/Step.lean ====
section
/-!
DEFINITION. One step of the machine (10_state.md R20, R31; 20_memory.md R59). While BUSY = 1 and the
host waits or has nothing left to do, the engine runs its command; otherwise the next action from outside
happens; with none and BUSY = 0 the engine holds its state (60_exceptions.md R217). Log 1.
-/

namespace Sys2Proof.Machine

/-- One step. -/
def step (s : State) : Host.Outcome State Fault Refusal :=
  if s.engineMoves then engineStep s
  else
    match s.hostQueue with
    | [] => .next s
    | act :: rest => hostStep act (s.setQueue rest)

/-- The state in which `w` is the command in flight and the engine moves next: the word is in CMDLATCH
and BUSY = 1, as a CMD write leaves them (R31, R215), and the host waits (R77). Log 12. -/
def State.withFetchWord (s : State) (_nbits w : Nat) : State :=
  let t := s.latch (BitVec.ofNat 32 w)
  if t.engineMoves then t else t.setQueue (.wait :: t.hostQueue)

end Sys2Proof.Machine
end

