-- ==== Sys2Proof/Machine/Procedure.lean ====
section
/-!
DEFINITION. The host's side: the directives of 30_encoding.md R77, a run of them (70_reset_and_hazards.md
R234), and the CreateEpochContext procedure (R236 to R238).
-/

namespace Sys2Proof.Machine

/-- The directives of R77. -/
inductive Directive where
  /-- `set xN, imm` -/
  | set (n : RegIdx) (imm : Word)
  /-- `cmd W` -/
  | cmd (w : Word32)
  /-- `<mnemonic operands>` -/
  | command (i : Instr)
  | wait
  | clrerr
  | clrovr
  /-- `get xN` -/
  | get (n : RegIdx)
  /-- `mem a, bytes` -/
  | mem (a : Nat) (bs : List Byte)
deriving DecidableEq, Repr

namespace Directive

/-- A 64-bit window write at an offset. -/
def writeAt (cfg : Config) (off : Nat) (v : Word) : HostAction := .write .b64 (cfg.windowBase + off) v

/-- `cmd W`: write W to CMD, then `wait` (R77). -/
def issue (cfg : Config) (w : Word32) : List HostAction :=
  [writeAt cfg 0x080 (w.setWidth 64), .wait]

/-- What a directive expands to (R77). -/
def expand (cfg : Config) : Directive → List HostAction
  | .set n imm => [writeAt cfg (8 * n.toNat) imm]
  | .cmd w => issue cfg w
  | .command i => issue cfg (encode i)
  | .wait => [.wait]
  | .clrerr => [writeAt cfg 0x088 0x2]
  | .clrovr => [writeAt cfg 0x088 0x8]
  | .get n => [.read .b64 (cfg.windowBase + 8 * n.toNat)]
  | .mem a bs => [.memWrite a bs]

end Directive

/-- Step until the outside world has nothing left to do and BUSY = 0, at most `fuel` steps. -/
def settle : Nat → State → Result
  | 0, s => .next s
  | fuel + 1, s =>
    if s.hostQueue.isEmpty && !s.status.busy then .next s
    else
      match step s with
      | .next t => settle fuel t
      | .fault f => .fault f
      | .refused r => .refused r

/-- Perform one directive to its end: each action takes one step, and a command one more (R77). -/
def perform (d : Directive) (s : State) : Result :=
  let acts := d.expand s.cfg
  settle (2 * (s.hostQueue.length + acts.length) + 1) (s.setQueue (s.hostQueue ++ acts))

/-- A run of directives (R234). With `untilErr` the host checks STATUS.ERR after every directive and
stops at an error, as R236 has it do. -/
def performAll (untilErr : Bool) : List Directive → State → Result
  | [], s => .next s
  | d :: ds, s =>
    match perform d s with
    | .next t => if untilErr && t.status.err then .next t else performAll untilErr ds t
    | .fault f => .fault f
    | .refused r => .refused r

/-! ## CreateEpochContext (R236) -/

/-- The buffers the host obtains once it knows the counts: SB, LB, and L1B or DB (R236). -/
structure Buffers where
  sb : Word
  lb : Word
  /-- L1B when buildFull = false, DB when buildFull = true. -/
  items : Word
deriving DecidableEq, Repr

/-- The context the procedure returns (R236). -/
structure EpochContext where
  epochNumber : Word
  lightCacheItemCount : Nat
  lightCacheSizeBytes : Nat
  fullDatasetItemCount : Nat
  fullDatasetSizeBytes : Nat
  lightCache : Word
  /-- L1B, when buildFull = false. -/
  l1Cache : Option Word
  /-- DB, when buildFull = true. -/
  fullDataset : Option Word
deriving DecidableEq, Repr

/-- How the procedure ends (R236). -/
inductive ContextResult where
  /-- Every command succeeded. -/
  | context (c : EpochContext) (s : State)
  /-- A command raised an error: no context. -/
  | engineError (s : State)
  /-- A buffer cannot be obtained; no command has written memory yet. -/
  | allocationFailure (s : State)
  /-- The model stopped. -/
  | stopped

/-- The sizes part: the same effective epoch goes to both calculators (R161, R236). -/
def sizeDirectives (e : Word) : List Directive :=
  [.set 1 e, .command (.ecip 2 1), .command (.lcount 3 2), .command (.dcount 4 2)]

/-- The seed of the original epoch, the context, and the light cache (R236). -/
def cacheDirectives (b : Buffers) : List Directive :=
  [.set 5 b.sb, .command (.eseed 1 5), .set 6 b.lb, .command (.ctxset 6 3), .command (.buildlc 5)]

/-- One 2048-bit stride of the L1 fill: Item2048(k) to L1B + 256·k (R236, R237). -/
def l1Stride (b : Buffers) (k : Nat) : List Directive :=
  [.set 7 (BitVec.ofNat 64 k), .set 8 (b.items + BitVec.ofNat 64 (256 * k)),
   .command (.ditem2048 7 8)]

/-- The 16384 / 256 = 64 strides (R236). -/
def l1Directives (b : Buffers) : List Directive :=
  (List.range (l1Bytes / 256)).flatMap (l1Stride b)

/-- Lazy filling: dataset item i goes to DB + 128·i, computed by DITEM1024 (R238). DESIGN CHOICE: R238 names
no registers, and the model takes x7 for the index and x8 for the destination, which it overwrites. Log 17. -/
def lazyFill (b : Buffers) (i : Nat) : List Directive :=
  [.set 7 (BitVec.ofNat 64 i), .set 8 (b.items + BitVec.ofNat 64 (128 * i)),
   .command (.ditem1024 7 8)]

/-- `CreateEpochContext(e, buildFull)` (R236). `obtain nL nD` is the host's allocator, asked once the two
counts are known and before any command writes memory; `none` is its AllocationFailure. Log 17. -/
def createEpochContext (e : Word) (buildFull : Bool) (obtain : Nat → Nat → Option Buffers)
    (s : State) : ContextResult :=
  match performAll true (sizeDirectives e) s with
  | .fault _ | .refused _ => .stopped
  | .next s₁ =>
    if s₁.status.err then .engineError s₁
    else
      let nL := (s₁.readX 3).toNat
      let nD := (s₁.readX 4).toNat
      match obtain nL nD with
      | none => .allocationFailure s₁
      | some b =>
        match performAll true (cacheDirectives b ++ if buildFull then [] else l1Directives b) s₁ with
        | .fault _ | .refused _ => .stopped
        | .next s₂ =>
          if s₂.status.err then .engineError s₂
          else
            .context
              { epochNumber := e
                lightCacheItemCount := nL
                lightCacheSizeBytes := lightItem * nL
                fullDatasetItemCount := nD
                fullDatasetSizeBytes := fullItem * nD
                lightCache := b.lb
                l1Cache := if buildFull then none else some b.items
                fullDataset := if buildFull then some b.items else none } s₂

end Sys2Proof.Machine
end

