-- ==== Sys2Proof/Safety.lean ====
section
/-!
DEFINITION. The terms the claims are stated in: the invariants of the state, the host's duties, a run of
commands, the registers a command may write, and a second, blockwise formulation of the sponge.
-/

namespace Sys2Proof.Machine

/-! ## Invariants -/

/-- What holds in every state a run reaches (20_memory.md R50; 10_state.md R25, R26, R29, R30;
60_exceptions.md R215). -/
structure State.Inv (s : State) : Prop where
  /-- MEM is in its canonical form. -/
  memCanonical : s.mem.wf
  /-- No listed byte lies outside MEM (R50). -/
  memInside : s.mem.within s.cfg.memBytes
  /-- MEM_BYTES ≤ 2^64 (R7). -/
  memSize : s.cfg.memBytes ≤ 2 ^ 64
  /-- 0 ≤ SPOS < RATE(SW) (R25, R115). -/
  sposBelowRate : s.sponge.spos < s.sponge.sw.rate
  /-- SPOS is 0 outside ABSORB (R107). -/
  sposOutsideAbsorb : s.sponge.sph ≠ .absorb → s.sponge.spos = 0
  /-- LCCOUNT is 0, or 1 to 2^32 − 1 (R26). -/
  lccountRange : s.ctx.lccount.toNat ≤ lccountMax
  /-- The light-cache region lies in MEM (R26). -/
  lightCacheInside : s.lightCacheInMem = true
  /-- While BUSY = 1, ERR is 0 (R215). -/
  busyWithoutErr : s.status.busy = true → s.status.err = false
  /-- ECODE is 0 exactly while ERR = 0 (R29). -/
  ecodeWithErr : s.status.ecode = .none ↔ s.status.err = false
  /-- ERRCMD is a zero-extended 32-bit word (R30). -/
  errcmdWord : s.errcmd.toNat < 2 ^ 32
  /-- An error other than BUS_FAULT has ERRADDR 0 (R30). -/
  erraddrOfOthers : s.status.err = true → s.status.ecode ≠ .busFault → s.erraddr = 0

/-- The epoch cache holds a true pair: ECSEED = EpochSeed(ECEPOCH) (R28). -/
def State.SeedTrue (s : State) : Prop := s.ecache.ecseed = epochSeed s.ecache.ecepoch.toNat

/-! ## The host's duties -/

/-- The next action from outside keeps the host's duties: a window access is a defined one (R214), a MEM
access is inside MEM (R50) and touches no region of the command in flight (R62). -/
def State.hostDuty (s : State) : Bool :=
  match s.hostQueue with
  | .write width addr _ :: _ | .read width addr :: _ => (definedAccess s.cfg width addr).isSome
  | .memWrite a bs :: _ => s.valid a bs.length && !s.touchesInFlight a bs.length
  | .memRead a n :: _ => s.valid a n && !s.touchesInFlight a n
  | .wait :: _ | .reset :: _ | [] => true

/-! ## Runs and written registers -/

/-- Commands run one after the other by their rules. -/
def execAll : List Instr → State → Result
  | [], s => .next s
  | i :: is, s =>
    match exec i s with
    | .next t => execAll is t
    | .fault f => .fault f
    | .refused r => .refused r

/-- The X register a command writes: the one named by RD, in the six commands that have one (R21). -/
def destReg : Instr → Option RegIdx
  | .fnv1 rd _ _ | .enum rd _ | .ecip rd _ | .prime rd _ | .lcount rd _ | .dcount rd _ => some rd
  | .keccakf | .sload _ | .sstore _ | .sinit256 | .sinit512 | .sabsorb _ _ | .sfinal | .ssqueeze _
  | .keccak256 _ _ _ | .keccak512 _ _ _ | .fnv1v _ _ _ | .eseed _ _ | .ecrst | .ctxset _ _
  | .buildlc _ | .ditem512 _ _ | .ditem1024 _ _ | .ditem2048 _ _ => none

/-- The commands that write S (R24). -/
def writesLanes : Instr → Bool
  | .keccakf | .sload _ | .sinit256 | .sinit512 | .sabsorb _ _ | .sfinal => true
  | .sstore _ | .ssqueeze _ | .keccak256 _ _ _ | .keccak512 _ _ _ | .fnv1 _ _ _ | .fnv1v _ _ _
  | .eseed _ _ | .enum _ _ | .ecrst | .ecip _ _ | .prime _ _ | .lcount _ _ | .dcount _ _
  | .ctxset _ _ | .buildlc _ | .ditem512 _ _ | .ditem1024 _ _ | .ditem2048 _ _ => false

/-- The commands that move the sponge controller (R25, R107). -/
def movesSponge : Instr → Bool
  | .sinit256 | .sinit512 | .sabsorb _ _ | .sfinal => true
  | .keccakf | .sload _ | .sstore _ | .ssqueeze _ | .keccak256 _ _ _ | .keccak512 _ _ _
  | .fnv1 _ _ _ | .fnv1v _ _ _ | .eseed _ _ | .enum _ _ | .ecrst | .ecip _ _ | .prime _ _
  | .lcount _ _ | .dcount _ _ | .ctxset _ _ | .buildlc _ | .ditem512 _ _ | .ditem1024 _ _
  | .ditem2048 _ _ => false

/-! ## The sponge by blocks (the source's wording, 40_keccak.md) -/

/-- The padded message, a whole number of blocks of `r` bytes: 0x01 after the message, zeros, and 0x80 in
the last byte of the block; the two meet in 0x81 when one byte is left (R104). -/
def padMessage (r : Nat) (M : List Byte) : List Byte :=
  let left := r - M.length % r
  M ++ if left = 1 then [0x81] else 0x01 :: List.replicate (left - 2) 0 ++ [0x80]

/-- XOR the block's little-endian 64-bit words into the first `r/8` lanes, then permute. -/
def absorbBlock (r : Nat) (S : Lanes) (block : List Byte) : Lanes :=
  keccakF <| Vector.ofFn fun i =>
    if i.val < r / 8 then elem S i.val ^^^ le64 (Vector.ofFn fun k : Fin 200 => block.getD k.val 0) i.val
    else elem S i.val

/-- The state after every block of the padded message. -/
def blockSponge (w : Width) (M : List Byte) : Lanes :=
  let P := padMessage w.rate M
  (List.range (P.length / w.rate)).foldl
    (fun S b => absorbBlock w.rate S ((P.drop (b * w.rate)).take w.rate)) (Vector.replicate 25 0)

end Sys2Proof.Machine
end

