-- ==== Sys2Proof/Certificates/Slice0/Obligations.lean ====
section
/-!
DEFINITION. The statements for the provers. Each docstring names the rule of spec/ a statement formalises,
or says that it rests on a choice of the model. A region of `n` bytes at `a` is valid when `n = 0` or
`a + n ≤ MEM_BYTES` (20_memory.md R51); statements write that out.
-/

open Sys2Proof Sys2Proof.Machine

/-! ## Encoding (30_encoding.md) -/

/-- Decoding the word of a command gives the command back, for every command and every operand (R70 to R74). -/
def Obligations.DecodeOfEncodeIsTheCommand : Prop :=
  ∀ i : Instr, decode (encode i) = .ok i

/-- A word that decodes is exactly the word of its command: no word has bits the decoder drops (R72, R73). -/
def Obligations.EncodeOfDecodeIsTheWord : Prop :=
  ∀ (w : Word32) (i : Instr), decode w = .ok i → encode i = w

/-- The mask and match test of R73 accepts exactly the words that R72 and R75 allow, field by field. -/
def Obligations.DecoderAcceptsExactlyWellFormedWords : Prop :=
  ∀ w : Word32, (∃ i, decode w = .ok i) ↔ wellFormed w = true

/-- Words written out from the encoding, one for each family, decode to their commands (R74, R76). -/
def Obligations.SampleWordsDecode : Prop :=
  decode 0x00000010 = .ok .keccakf ∧
  decode 0x00321018 = .ok (.keccak256 1 2 3) ∧
  decode 0x00021320 = .ok (.fnv1 3 1 2) ∧
  decode 0x00001431 = .ok (.enum 4 1) ∧
  decode 0x00001239 = .ok (.lcount 2 1) ∧
  decode 0x00021040 = .ok (.ctxset 1 2) ∧
  decode 0x00401051 = .ok (.ditem1024 1 4)

/-! ## The engine's step (10_state.md R31, 30_encoding.md R73, R75) -/

/-- While BUSY = 1 and the host waits or has nothing left to do, the step of a latched word that decodes to
`i` is `exec i`, after which BUSY is 0 (R31, R73). With BUSY = 0 a step with nothing pending leaves the state
as it is (R217), and one with a `wait` pending uses the `wait` up and changes nothing else (R77). THE MODEL'S
CHOICE (log 1): what is pending is a list, and the engine moves when the host waits or the list is empty. -/
def Obligations.StepRunsTheLatchedCommand : Prop :=
  (∀ (s : State) (i : Instr), s.status.busy = true →
    (s.hostQueue = [] ∨ ∃ rest, s.hostQueue = .wait :: rest) → decode s.cmdlatch = .ok i →
    step s =
      match exec i s with
      | .next t => .next { t with status := { t.status with busy := false } }
      | .fault f => .fault f
      | .refused r => .refused r) ∧
  (∀ s : State, s.status.busy = false → s.hostQueue = [] → step s = .next s) ∧
  (∀ (s : State) (rest : List HostAction), s.status.busy = false → s.hostQueue = .wait :: rest →
    step s = .next { s with hostQueue := rest })

/-- R75: a reserved OP, a non-zero FN or a non-zero unused field raises ILLEGAL_CMD, which changes the
error record and BUSY and nothing else; the word 0 is one such word. -/
def Obligations.IllegalWordRaisesIllegalCmd : Prop :=
  wellFormed 0 = false ∧
  ∀ s : State, s.engineMoves = true → wellFormed s.cmdlatch = false →
    step s = .next
      { s with
        status := { s.status with busy := false, err := true, ecode := .illegalCmd }
        errcmd := s.cmdlatch.setWidth 64
        erraddr := 0 }

/-! ## The permutation and the sponge (40_keccak.md) -/

/-- R100 to R102: the round constants and the rotation offsets have the values of the two tables, and KeccakF
is 24 rounds in order, each the five steps of the rule. The tables stand as the spec lays them out: row i of
R101 has RC[i], RC[i + 8] and RC[i + 16], and row y of R102 has ROT[0, y] to ROT[4, y]. -/
def Obligations.KeccakFIsTwentyFourRounds : Prop :=
  roundConstants.length = 24 ∧
  (List.range 8).map (fun i => [i, i + 8, i + 16].map fun j => roundConstants.getD j 0) =
    [[0x0000000000000001, 0x000000000000008A, 0x8000000000008002],
     [0x0000000000008082, 0x0000000000000088, 0x8000000000000080],
     [0x800000000000808A, 0x0000000080008009, 0x000000000000800A],
     [0x8000000080008000, 0x000000008000000A, 0x800000008000000A],
     [0x000000000000808B, 0x000000008000808B, 0x8000000080008081],
     [0x0000000080000001, 0x800000000000008B, 0x8000000000008080],
     [0x8000000080008081, 0x8000000000008089, 0x0000000080000001],
     [0x8000000000008009, 0x8000000000008003, 0x8000000080008008]] ∧
  (List.range 5).map (rot · 0) = [0, 1, 62, 28, 27] ∧
  (List.range 5).map (rot · 1) = [36, 44, 6, 55, 20] ∧
  (List.range 5).map (rot · 2) = [3, 10, 43, 25, 39] ∧
  (List.range 5).map (rot · 3) = [41, 45, 15, 21, 8] ∧
  (List.range 5).map (rot · 4) = [18, 2, 61, 56, 14] ∧
  ∀ S : Lanes, ∃ A : Nat → Lanes, A 0 = S ∧ keccakF S = A 24 ∧
    ∀ i < 24, ∃ (C D : Nat → Word) (T B : Nat → Nat → Word),
      (∀ x < 5, C x = lane (A i) x 0 ^^^ lane (A i) x 1 ^^^ lane (A i) x 2 ^^^ lane (A i) x 3 ^^^
        lane (A i) x 4) ∧
      (∀ x < 5, D x = C ((x + 4) % 5) ^^^ (C ((x + 1) % 5)).rotateLeft 1) ∧
      (∀ x < 5, ∀ y < 5, T x y = lane (A i) x y ^^^ D x) ∧
      (∀ x < 5, ∀ y < 5, B y ((2 * x + 3 * y) % 5) = (T x y).rotateLeft (rot x y)) ∧
      (∀ x < 5, ∀ y < 5, lane (A (i + 1)) x y =
        (B x y ^^^ (~~~ B ((x + 1) % 5) y &&& B ((x + 2) % 5) y)) ^^^
          if x = 0 ∧ y = 0 then roundConstants.getD i 0 else 0)

/-- R103: AbsorbByte XORs the byte into its place in lane p div 8; eight bytes at 8j are the word
`LE64` XORed into lane j. -/
def Obligations.AbsorbedBytesMakeLittleEndianLanes : Prop :=
  (∀ (S : Lanes) (p : Nat) (b : Byte), p < 200 → ∀ i < 25,
    elem (absorbByte S p b) i =
      elem S i ^^^ if i = p / 8 then b.setWidth 64 <<< (8 * (p % 8)) else 0) ∧
  (∀ (S : Lanes) (j : Nat) (B : Bytes 8), j < 25 → ∀ i < 25,
    elem ((List.range 8).foldl (fun S k => absorbByte S (8 * j + k) (elem B k)) S) i =
      elem S i ^^^ if i = j then le64 B 0 else 0)

/-- R104 by blocks: the bytewise absorb loop with its padding gives the state of the source's wording, full
blocks of little-endian words XORed in and permuted, over the padded message. -/
def Obligations.OneShotHashIsTheBlockSponge : Prop :=
  ∀ (w : Width) (M : List Byte), (hashed w M).lanes = blockSponge w M

/-- R108: start, absorb k messages, finish, squeeze: the bytes written are the one-shot hash of the
concatenation, for both widths. -/
def Obligations.SpongeRunEqualsOneShotHash : Prop :=
  ∀ (s : State) (pieces : List (RegIdx × RegIdx)) (rc : RegIdx) (M : List Byte),
    (∀ p ∈ pieces, (s.readX p.2).toNat = 0 ∨
      (s.readX p.1).toNat + (s.readX p.2).toNat ≤ s.cfg.memBytes) →
    M = pieces.flatMap (fun p =>
      (List.range (s.readX p.2).toNat).map fun k => s.mem.read ((s.readX p.1).toNat + k)) →
    ((s.readX rc).toNat + 32 ≤ s.cfg.memBytes →
      ∃ t, execAll (.sinit256 :: pieces.map (fun p => .sabsorb p.1 p.2) ++ [.sfinal, .ssqueeze rc]) s
          = .next t ∧
        ∀ k < 32, t.mem.read ((s.readX rc).toNat + k) = elem (k256 M) k) ∧
    ((s.readX rc).toNat + 64 ≤ s.cfg.memBytes →
      ∃ t, execAll (.sinit512 :: pieces.map (fun p => .sabsorb p.1 p.2) ++ [.sfinal, .ssqueeze rc]) s
          = .next t ∧
        ∀ k < 64, t.mem.read ((s.readX rc).toNat + k) = elem (k512 M) k)

/-- R107: the table of phases. A sponge command outside its phase raises SEQUENCE; SPH, SW and SPOS
afterwards are the table's; every other command leaves them. RATE(SW) is 136 for SW = 0 and 72 for SW = 1,
and SPOS < RATE(SW) is the invariant of R25. -/
def Obligations.SpongePhasesFollowTheTable : Prop :=
  ∀ (s : State) (r : Nat), r = (if s.sponge.sw = .w256 then 136 else 72) → s.sponge.spos < r →
    (∃ t, exec .sinit256 s = .next t ∧ t.sponge.sph = .absorb ∧ t.sponge.sw = .w256 ∧
      t.sponge.spos = 0) ∧
    (∃ t, exec .sinit512 s = .next t ∧ t.sponge.sph = .absorb ∧ t.sponge.sw = .w512 ∧
      t.sponge.spos = 0) ∧
    (∀ ra rb, s.sponge.sph = .absorb →
      ((s.readX rb).toNat = 0 ∨ (s.readX ra).toNat + (s.readX rb).toNat ≤ s.cfg.memBytes) →
      ∃ t, exec (.sabsorb ra rb) s = .next t ∧ t.sponge.sph = .absorb ∧ t.sponge.sw = s.sponge.sw ∧
        t.sponge.spos = (s.sponge.spos + (s.readX rb).toNat) % r) ∧
    (s.sponge.sph = .absorb →
      ∃ t, exec .sfinal s = .next t ∧ t.sponge.sph = .squeeze ∧ t.sponge.sw = s.sponge.sw ∧
        t.sponge.spos = 0) ∧
    (s.sponge.sph ≠ .absorb →
      (∀ ra rb, exec (.sabsorb ra rb) s = .next (s.raise .sequence 0)) ∧
      exec .sfinal s = .next (s.raise .sequence 0)) ∧
    (s.sponge.sph ≠ .squeeze → ∀ ra, exec (.ssqueeze ra) s = .next (s.raise .sequence 0)) ∧
    (∀ i t, movesSponge i = false → exec i s = .next t →
      t.sponge.sph = s.sponge.sph ∧ t.sponge.sw = s.sponge.sw ∧ t.sponge.spos = s.sponge.spos)

/-- R110: KECCAKF permutes S and changes nothing else. -/
def Obligations.KeccakfPermutesTheState : Prop :=
  encode .keccakf = 0x00000010 ∧
  ∀ s : State, exec .keccakf s =
    .next { s with sponge := { s.sponge with lanes := keccakF s.sponge.lanes } }

/-- R111: SLOAD loads the lanes from 200 bytes, or raises BUS_FAULT; nothing else changes. -/
def Obligations.SloadLoadsTheStateImage : Prop :=
  ∀ (ra : RegIdx) (s : State),
    encode (.sload ra) = 0x00000011 ||| (ra.setWidth 32 <<< 12) ∧
    ((s.readX ra).toNat + 200 ≤ s.cfg.memBytes →
      ∃ S : Lanes,
        (∀ i < 25, ∀ k < 8, byteOf (elem S i) k = s.mem.read ((s.readX ra).toNat + 8 * i + k)) ∧
        exec (.sload ra) s = .next { s with sponge := { s.sponge with lanes := S } }) ∧
    (s.cfg.memBytes < (s.readX ra).toNat + 200 →
      exec (.sload ra) s = .next (s.raise .busFault (s.readX ra)))

/-- R112: SSTORE stores the lanes to 200 bytes, or raises BUS_FAULT; nothing else changes. -/
def Obligations.SstoreStoresTheStateImage : Prop :=
  ∀ (ra : RegIdx) (s : State),
    encode (.sstore ra) = 0x00000012 ||| (ra.setWidth 32 <<< 12) ∧
    ((s.readX ra).toNat + 200 ≤ s.cfg.memBytes →
      ∃ m : Memory,
        exec (.sstore ra) s = .next { s with mem := m } ∧
        (∀ i < 25, ∀ k < 8,
          m.read ((s.readX ra).toNat + 8 * i + k) = byteOf (elem s.sponge.lanes i) k) ∧
        (∀ b, b < (s.readX ra).toNat ∨ (s.readX ra).toNat + 200 ≤ b → m.read b = s.mem.read b)) ∧
    (s.cfg.memBytes < (s.readX ra).toNat + 200 →
      exec (.sstore ra) s = .next (s.raise .busFault (s.readX ra)))

/-- R113, R114: SINIT256 and SINIT512 start a sponge in every phase; nothing else changes. -/
def Obligations.SinitStartsASponge : Prop :=
  encode .sinit256 = 0x00000013 ∧ encode .sinit512 = 0x00000014 ∧
  ∀ s : State, ∃ S : Lanes, (∀ i < 25, elem S i = 0) ∧
    exec .sinit256 s = .next { s with sponge := ⟨S, .absorb, .w256, 0⟩ } ∧
    exec .sinit512 s = .next { s with sponge := ⟨S, .absorb, .w512, 0⟩ }

/-- R115: SABSORB absorbs byte after byte, permuting whenever a block of RATE(SW) bytes, 136 or 72, is
full; SEQUENCE comes before BUS_FAULT; nothing but the sponge changes. -/
def Obligations.SabsorbAbsorbsByteByByte : Prop :=
  ∀ (ra rb : RegIdx) (s : State) (r : Nat), r = (if s.sponge.sw = .w256 then 136 else 72) →
    encode (.sabsorb ra rb) = 0x00000015 ||| (ra.setWidth 32 <<< 12) ||| (rb.setWidth 32 <<< 16) ∧
    (s.sponge.sph ≠ .absorb → exec (.sabsorb ra rb) s = .next (s.raise .sequence 0)) ∧
    (s.sponge.sph = .absorb → (s.readX rb).toNat ≠ 0 →
      s.cfg.memBytes < (s.readX ra).toNat + (s.readX rb).toNat →
      exec (.sabsorb ra rb) s = .next (s.raise .busFault (s.readX ra))) ∧
    (s.sponge.sph = .absorb →
      ((s.readX rb).toNat = 0 ∨ (s.readX ra).toNat + (s.readX rb).toNat ≤ s.cfg.memBytes) →
      ∃ P : Nat → Sponge, P 0 = s.sponge ∧
        (∀ k < (s.readX rb).toNat,
          P (k + 1) =
            if (P k).spos + 1 = r then
              { P k with
                lanes := keccakF (absorbByte (P k).lanes (P k).spos (s.mem.read ((s.readX ra).toNat + k)))
                spos := 0 }
            else
              { P k with
                lanes := absorbByte (P k).lanes (P k).spos (s.mem.read ((s.readX ra).toNat + k))
                spos := (P k).spos + 1 }) ∧
        exec (.sabsorb ra rb) s = .next { s with sponge := P (s.readX rb).toNat })

/-- R116: SFINAL adds 0x01 at SPOS and the top bit of the last lane of the block, permutes, and enters
SQUEEZE. RATE(SW) is 136 for SW = 0, where that lane is 16, and 72 for SW = 1, where it is 8.
SPOS < RATE(SW) is the invariant of R25. -/
def Obligations.SfinalPadsAndPermutes : Prop :=
  encode .sfinal = 0x00000016 ∧
  ∀ (s : State) (r last : Nat), r = (if s.sponge.sw = .w256 then 136 else 72) →
    last = (if s.sponge.sw = .w256 then 16 else 8) →
    (s.sponge.sph ≠ .absorb → exec .sfinal s = .next (s.raise .sequence 0)) ∧
    (s.sponge.sph = .absorb → s.sponge.spos < r →
      ∃ S : Lanes,
        (∀ i < 25, elem S i = elem s.sponge.lanes i ^^^
          (if i = s.sponge.spos / 8 then 1#64 <<< (8 * (s.sponge.spos % 8)) else 0) ^^^
          (if i = last then 0x8000000000000000#64 else 0)) ∧
        exec .sfinal s = .next { s with sponge := ⟨keccakF S, .squeeze, s.sponge.sw, 0⟩ })

/-- R117: SSQUEEZE writes the first 32 or 64 bytes of the state image, SEQUENCE before BUS_FAULT; nothing
but those bytes changes. -/
def Obligations.SsqueezeWritesTheDigest : Prop :=
  ∀ (ra : RegIdx) (s : State) (d : Nat), d = (if s.sponge.sw = .w256 then 32 else 64) →
    encode (.ssqueeze ra) = 0x00000017 ||| (ra.setWidth 32 <<< 12) ∧
    (s.sponge.sph ≠ .squeeze → exec (.ssqueeze ra) s = .next (s.raise .sequence 0)) ∧
    (s.sponge.sph = .squeeze → s.cfg.memBytes < (s.readX ra).toNat + d →
      exec (.ssqueeze ra) s = .next (s.raise .busFault (s.readX ra))) ∧
    (s.sponge.sph = .squeeze → (s.readX ra).toNat + d ≤ s.cfg.memBytes →
      ∃ m : Memory,
        exec (.ssqueeze ra) s = .next { s with mem := m } ∧
        (∀ k < d, m.read ((s.readX ra).toNat + k) = byteOf (elem s.sponge.lanes (k / 8)) (k % 8)) ∧
        (∀ b, b < (s.readX ra).toNat ∨ (s.readX ra).toNat + d ≤ b → m.read b = s.mem.read b))

/-- R118, R119: KECCAK256 and KECCAK512 check the source, then the destination, and write the hash of the
source as it was; nothing but those bytes changes, the sponge included. -/
def Obligations.OneShotCommandsWriteTheHash : Prop :=
  ∀ (ra rb rc : RegIdx) (s : State) (a n c : Nat) (M : List Byte),
    a = (s.readX ra).toNat → n = (s.readX rb).toNat → c = (s.readX rc).toNat →
    M = (List.range n).map (fun k => s.mem.read (a + k)) →
    encode (.keccak256 ra rb rc) =
      0x00000018 ||| (ra.setWidth 32 <<< 12) ||| (rb.setWidth 32 <<< 16) ||| (rc.setWidth 32 <<< 20) ∧
    encode (.keccak512 ra rb rc) =
      0x00000019 ||| (ra.setWidth 32 <<< 12) ||| (rb.setWidth 32 <<< 16) ||| (rc.setWidth 32 <<< 20) ∧
    (n ≠ 0 → s.cfg.memBytes < a + n →
      exec (.keccak256 ra rb rc) s = .next (s.raise .busFault (s.readX ra)) ∧
      exec (.keccak512 ra rb rc) s = .next (s.raise .busFault (s.readX ra))) ∧
    (n = 0 ∨ a + n ≤ s.cfg.memBytes →
      (s.cfg.memBytes < c + 32 →
        exec (.keccak256 ra rb rc) s = .next (s.raise .busFault (s.readX rc))) ∧
      (s.cfg.memBytes < c + 64 →
        exec (.keccak512 ra rb rc) s = .next (s.raise .busFault (s.readX rc))) ∧
      (c + 32 ≤ s.cfg.memBytes → ∃ m : Memory,
        exec (.keccak256 ra rb rc) s = .next { s with mem := m } ∧
        (∀ k < 32, m.read (c + k) = elem (k256 M) k) ∧
        (∀ b, b < c ∨ c + 32 ≤ b → m.read b = s.mem.read b)) ∧
      (c + 64 ≤ s.cfg.memBytes → ∃ m : Memory,
        exec (.keccak512 ra rb rc) s = .next { s with mem := m } ∧
        (∀ k < 64, m.read (c + k) = elem (k512 M) k) ∧
        (∀ b, b < c ∨ c + 64 ≤ b → m.read b = s.mem.read b)))

/-! ## The FNV mixer (41_fnv.md) -/

/-- R130, R132: FNV1 multiplies the low half of X[ra] by 0x01000193 mod 2^32, XORs the low half of X[rb],
and zero-extends; no other register and nothing else changes, whichever registers coincide. -/
def Obligations.FnvOneMixesTheLowHalves : Prop :=
  ∀ (rd ra rb : RegIdx) (s : State),
    encode (.fnv1 rd ra rb) =
      0x00000020 ||| (rd.setWidth 32 <<< 8) ||| (ra.setWidth 32 <<< 12) ||| (rb.setWidth 32 <<< 16) ∧
    ∃ t, exec (.fnv1 rd ra rb) s = .next t ∧
      (t.readX rd).toNat =
        ((s.readX ra).toNat % 2 ^ 32 * 0x01000193) % 2 ^ 32 ^^^ (s.readX rb).toNat % 2 ^ 32 ∧
      (∀ r, r ≠ rd → t.readX r = s.readX r) ∧ t = { s with x := t.x }

/-- R131, R133: FNV1V checks the regions in the order a, b, c and writes the sixteen mixed words of the
sources as they were; nothing but those bytes changes. -/
def Obligations.FnvVectorMixesSixteenWords : Prop :=
  ∀ (ra rb rc : RegIdx) (s : State) (a b c : Nat),
    a = (s.readX ra).toNat → b = (s.readX rb).toNat → c = (s.readX rc).toNat →
    encode (.fnv1v ra rb rc) =
      0x00000021 ||| (ra.setWidth 32 <<< 12) ||| (rb.setWidth 32 <<< 16) ||| (rc.setWidth 32 <<< 20) ∧
    (s.cfg.memBytes < a + 64 →
      exec (.fnv1v ra rb rc) s = .next (s.raise .busFault (s.readX ra))) ∧
    (a + 64 ≤ s.cfg.memBytes → s.cfg.memBytes < b + 64 →
      exec (.fnv1v ra rb rc) s = .next (s.raise .busFault (s.readX rb))) ∧
    (a + 64 ≤ s.cfg.memBytes → b + 64 ≤ s.cfg.memBytes → s.cfg.memBytes < c + 64 →
      exec (.fnv1v ra rb rc) s = .next (s.raise .busFault (s.readX rc))) ∧
    (a + 64 ≤ s.cfg.memBytes → b + 64 ≤ s.cfg.memBytes → c + 64 ≤ s.cfg.memBytes →
      ∃ m : Memory,
        exec (.fnv1v ra rb rc) s = .next { s with mem := m } ∧
        (∀ j < 16, ∀ k < 4, m.read (c + 4 * j + k) =
          byteOf (fnv1 (le32 (s.mem.readBytes a 64) j) (le32 (s.mem.readBytes b 64) j)) k) ∧
        (∀ e, e < c ∨ c + 64 ≤ e → m.read e = s.mem.read e))

/-! ## Epochs (42_epoch.md) -/

/-- R140, R142: ESEED checks the epoch, then the destination, and writes the seed at the end of the hash
chain from zeros(32); nothing but those bytes changes. -/
def Obligations.EseedWritesTheHashChain : Prop :=
  ∀ (ra rc : RegIdx) (s : State) (c : Nat), c = (s.readX rc).toNat →
    encode (.eseed ra rc) = 0x00000030 ||| (ra.setWidth 32 <<< 12) ||| (rc.setWidth 32 <<< 20) ∧
    ((s.readX ra).toInt < 0 ∨ 2 ^ 31 - 1 < (s.readX ra).toInt →
      exec (.eseed ra rc) s = .next (s.raise .invalidEpoch 0)) ∧
    (0 ≤ (s.readX ra).toInt → (s.readX ra).toInt ≤ 2 ^ 31 - 1 → s.cfg.memBytes < c + 32 →
      exec (.eseed ra rc) s = .next (s.raise .busFault (s.readX rc))) ∧
    (0 ≤ (s.readX ra).toInt → (s.readX ra).toInt ≤ 2 ^ 31 - 1 → c + 32 ≤ s.cfg.memBytes →
      ∃ (seed : Nat → Bytes 32) (m : Memory),
        (∀ k < 32, elem (seed 0) k = 0) ∧ (∀ e, seed (e + 1) = k256 (seed e).toList) ∧
        exec (.eseed ra rc) s = .next { s with mem := m } ∧
        (∀ k < 32, m.read (c + k) = elem (seed (s.readX ra).toInt.toNat) k) ∧
        (∀ b, b < c ∨ c + 32 ≤ b → m.read b = s.mem.read b))

/-- R143, R144: ENUM tests the cached seed, then one hash step on, then the epochs 0 to 29999 in order; it
writes X[rd], NF and the cache as the rules say, or NF = 1 alone. -/
def Obligations.EnumFollowsTheLookupOrder : Prop :=
  ∀ (rd ra : RegIdx) (s : State) (q : Bytes 32),
    q = s.mem.readBytes (s.readX ra).toNat 32 →
    encode (.enum rd ra) = 0x00000031 ||| (rd.setWidth 32 <<< 8) ||| (ra.setWidth 32 <<< 12) ∧
    (s.cfg.memBytes < (s.readX ra).toNat + 32 →
      exec (.enum rd ra) s = .next (s.raise .busFault (s.readX ra))) ∧
    ((s.readX ra).toNat + 32 ≤ s.cfg.memBytes → ∃ t, exec (.enum rd ra) s = .next t ∧
      (q = s.ecache.ecseed →
        t.readX rd = s.ecache.ecepoch ∧ t.status.nf = false ∧ t.ecache = s.ecache) ∧
      (q ≠ s.ecache.ecseed → q = k256 s.ecache.ecseed.toList →
        t.readX rd = s.ecache.ecepoch + 1 ∧ t.status.nf = false ∧
        t.ecache = ⟨s.ecache.ecepoch + 1, q⟩) ∧
      (q ≠ s.ecache.ecseed → q ≠ k256 s.ecache.ecseed.toList →
        (∀ i < 30000, epochSeed i = q → (∀ j < i, epochSeed j ≠ q) →
          t.readX rd = BitVec.ofNat 64 i ∧ t.status.nf = false ∧ t.ecache = ⟨BitVec.ofNat 64 i, q⟩) ∧
        ((∀ i < 30000, epochSeed i ≠ q) →
          t.readX rd = s.readX rd ∧ t.status.nf = true ∧ t.ecache = s.ecache)) ∧
      (∀ r, r ≠ rd → t.readX r = s.readX r) ∧
      t = { s with x := t.x, ecache := t.ecache, status := { s.status with nf := t.status.nf } })

/-- R148: from a cache that holds a true pair and short of its wrap, an ENUM answer is a true epoch of the
seed, a seed of an epoch below 30000 is always found, and NotFound means neither the scan nor the cache has
it. -/
def Obligations.EnumAnswersATrueEpoch : Prop :=
  ∀ (rd ra : RegIdx) (s t : State) (q : Bytes 32),
    q = s.mem.readBytes (s.readX ra).toNat 32 → s.SeedTrue → s.ecache.ecepoch.toNat < 2 ^ 64 - 1 →
    (s.readX ra).toNat + 32 ≤ s.cfg.memBytes → exec (.enum rd ra) s = .next t →
    (t.status.nf = false → epochSeed (t.readX rd).toNat = q) ∧
    ((∃ i < 30000, epochSeed i = q) → t.status.nf = false) ∧
    (t.status.nf = true ↔
      (∀ i < 30000, epochSeed i ≠ q) ∧ q ≠ s.ecache.ecseed ∧ q ≠ k256 s.ecache.ecseed.toList)

/-- R145: ECRST puts the pair (0, zeros(32)) into the epoch cache; NF and everything else stay. -/
def Obligations.EcrstRestoresTheResetPair : Prop :=
  encode .ecrst = 0x00000032 ∧
  ∀ s : State, ∃ z : Bytes 32, (∀ k < 32, elem z k = 0) ∧
    exec .ecrst s = .next { s with ecache := ⟨0, z⟩ }

/-- R146, R147: ECIP checks the epoch and writes it, halved from 390 on; nothing else changes. -/
def Obligations.EcipHalvesFrom390 : Prop :=
  ∀ (rd ra : RegIdx) (s : State),
    encode (.ecip rd ra) = 0x00000033 ||| (rd.setWidth 32 <<< 8) ||| (ra.setWidth 32 <<< 12) ∧
    ((s.readX ra).toInt < 0 ∨ 2 ^ 31 - 1 < (s.readX ra).toInt →
      exec (.ecip rd ra) s = .next (s.raise .invalidEpoch 0)) ∧
    (0 ≤ (s.readX ra).toInt → (s.readX ra).toInt ≤ 2 ^ 31 - 1 →
      ∃ t, exec (.ecip rd ra) s = .next t ∧
        (t.readX rd).toNat =
          (if (s.readX ra).toNat < 390 then (s.readX ra).toNat else (s.readX ra).toNat / 2) ∧
        (∀ r, r ≠ rd → t.readX r = s.readX r) ∧ t = { s with x := t.x })

/-! ## Sizes (43_size.md) -/

/-- R160, R162: PRIME accepts every bound, writes 0 below 2 and otherwise the largest prime at most the
bound; nothing else changes. -/
def Obligations.PrimeWritesTheLargestPrime : Prop :=
  ∀ (rd ra : RegIdx) (s : State),
    encode (.prime rd ra) = 0x00000038 ||| (rd.setWidth 32 <<< 8) ||| (ra.setWidth 32 <<< 12) ∧
    ∃ t, exec (.prime rd ra) s = .next t ∧
      ((s.readX ra).toInt < 2 → t.readX rd = 0) ∧
      (2 ≤ (s.readX ra).toInt →
        (t.readX rd).toNat.Prime ∧ ((t.readX rd).toNat : Int) ≤ (s.readX ra).toInt ∧
        ∀ p : Nat, p.Prime → (p : Int) ≤ (s.readX ra).toInt → p ≤ (t.readX rd).toNat) ∧
      (∀ r, r ≠ rd → t.readX r = s.readX r) ∧ t = { s with x := t.x }

/-- R164 to R167: LCOUNT and DCOUNT check the epoch and write the largest prime at most
262144 + 2048·e and 8388608 + 65536·e; nothing else changes. -/
def Obligations.CountsAreLargestPrimesBelowTheirBounds : Prop :=
  ∀ (rd ra : RegIdx) (s : State),
    encode (.lcount rd ra) = 0x00000039 ||| (rd.setWidth 32 <<< 8) ||| (ra.setWidth 32 <<< 12) ∧
    encode (.dcount rd ra) = 0x0000003A ||| (rd.setWidth 32 <<< 8) ||| (ra.setWidth 32 <<< 12) ∧
    ((s.readX ra).toInt < 0 ∨ 2 ^ 31 - 1 < (s.readX ra).toInt →
      exec (.lcount rd ra) s = .next (s.raise .invalidEpoch 0) ∧
      exec (.dcount rd ra) s = .next (s.raise .invalidEpoch 0)) ∧
    (0 ≤ (s.readX ra).toInt → (s.readX ra).toInt ≤ 2 ^ 31 - 1 →
      (∃ t, exec (.lcount rd ra) s = .next t ∧ (t.readX rd).toNat.Prime ∧
        (t.readX rd).toNat ≤ 262144 + 2048 * (s.readX ra).toNat ∧
        (∀ p : Nat, p.Prime → p ≤ 262144 + 2048 * (s.readX ra).toNat → p ≤ (t.readX rd).toNat) ∧
        (∀ r, r ≠ rd → t.readX r = s.readX r) ∧ t = { s with x := t.x }) ∧
      (∃ t, exec (.dcount rd ra) s = .next t ∧ (t.readX rd).toNat.Prime ∧
        (t.readX rd).toNat ≤ 8388608 + 65536 * (s.readX ra).toNat ∧
        (∀ p : Nat, p.Prime → p ≤ 8388608 + 65536 * (s.readX ra).toNat → p ≤ (t.readX rd).toNat) ∧
        (∀ r, r ≠ rd → t.readX r = s.readX r) ∧ t = { s with x := t.x }))

/-- R169: for every effective epoch from 1 on, both counts are prime and no smaller than at the epoch
before. -/
def Obligations.CountsArePrimeAndNonDecreasing : Prop :=
  ∀ e : Nat, 1 ≤ e →
    (lightCount e).Prime ∧ (fullCount e).Prime ∧
    lightCount (e - 1) ≤ lightCount e ∧ fullCount (e - 1) ≤ fullCount e

/-! ## The light cache (44_cache.md) -/

/-- R170: CTXSET checks the count, then the region, and sets LCBASE and LCCOUNT; nothing else changes. -/
def Obligations.CtxsetSetsTheContext : Prop :=
  ∀ (ra rb : RegIdx) (s : State) (n : Nat), n = (s.readX rb).toNat →
    encode (.ctxset ra rb) = 0x00000040 ||| (ra.setWidth 32 <<< 12) ||| (rb.setWidth 32 <<< 16) ∧
    (n = 0 ∨ 2 ^ 32 - 1 < n → exec (.ctxset ra rb) s = .next (s.raise .context 0)) ∧
    (1 ≤ n → n ≤ 2 ^ 32 - 1 → s.cfg.memBytes < (s.readX ra).toNat + 64 * n →
      exec (.ctxset ra rb) s = .next (s.raise .busFault (s.readX ra))) ∧
    (1 ≤ n → n ≤ 2 ^ 32 - 1 → (s.readX ra).toNat + 64 * n ≤ s.cfg.memBytes →
      exec (.ctxset ra rb) s = .next { s with ctx := ⟨s.readX ra, s.readX rb⟩ })

/-- R171, R172: BUILDLC reads the seed, runs the chain stage and then three smoothing passes in increasing
index order, each index on the memory as changed so far; item i is the 64 bytes at LCBASE + 64·i (R26).
Nothing but MEM changes. The region premise is CTXSET's check (R26). -/
def Obligations.BuildlcRunsChainAndPasses : Prop :=
  ∀ (ra : RegIdx) (s : State) (n base : Nat) (seed : Bytes 32),
    n = s.ctx.lccount.toNat → base = s.ctx.lcbase.toNat →
    seed = s.mem.readBytes (s.readX ra).toNat 32 →
    encode (.buildlc ra) = 0x00000041 ||| (ra.setWidth 32 <<< 12) ∧
    (n = 0 → exec (.buildlc ra) s = .next (s.raise .context 0)) ∧
    (n ≠ 0 → s.cfg.memBytes < (s.readX ra).toNat + 32 →
      exec (.buildlc ra) s = .next (s.raise .busFault (s.readX ra))) ∧
    (n ≠ 0 → (s.readX ra).toNat + 32 ≤ s.cfg.memBytes → base + 64 * n ≤ s.cfg.memBytes →
      ∃ (C : Nat → Memory) (P : Nat → Nat → Memory),
        C 0 = s.mem.write base (k512 seed.toList).toList ∧
        (∀ i, i + 1 < n →
          C (i + 1) = (C i).write (base + 64 * (i + 1))
            (k512 ((C i).readBytes (base + 64 * i) 64).toList).toList) ∧
        P 0 0 = C (n - 1) ∧ (∀ p < 3, P (p + 1) 0 = P p n) ∧
        (∀ p < 3, ∀ i < n, ∀ v w,
          v = (le32 ((P p i).readBytes (base + 64 * i) 64) 0).toNat % n → w = (n + i - 1) % n →
          P p (i + 1) = (P p i).write (base + 64 * i)
            (k512 ((List.range 64).map fun k =>
              (P p i).read (base + 64 * v + k) ^^^ (P p i).read (base + 64 * w + k))).toList) ∧
        exec (.buildlc ra) s = .next { s with mem := P 3 0 } ∧
        (∀ b, b < base ∨ base + 64 * n ≤ b → (P 3 0).read b = s.mem.read b))

/-- R174: the light cache BUILDLC leaves depends on LCCOUNT and the seed alone: two machines that agree on
these leave the same bytes, wherever their regions lie and whatever else they hold. -/
def Obligations.BuildlcDependsOnCountAndSeedAlone : Prop :=
  ∀ (ra ra' : RegIdx) (s s' t t' : State),
    s.ctx.lccount = s'.ctx.lccount → s.ctx.lccount ≠ 0 →
    s.mem.readBytes (s.readX ra).toNat 32 = s'.mem.readBytes (s'.readX ra').toNat 32 →
    (s.readX ra).toNat + 32 ≤ s.cfg.memBytes → (s'.readX ra').toNat + 32 ≤ s'.cfg.memBytes →
    exec (.buildlc ra) s = .next t → exec (.buildlc ra') s' = .next t' →
    ∀ j < 64 * s.ctx.lccount.toNat,
      t.mem.read (s.ctx.lcbase.toNat + j) = t'.mem.read (s'.ctx.lcbase.toNat + j)

/-- R172, corner case n = 1: whatever the seed, the one item ends as K512(zeros(64)). -/
def Obligations.BuildlcOfOneItemForgetsTheSeed : Prop :=
  ∀ (ra : RegIdx) (s : State), s.ctx.lccount = 1 → (s.readX ra).toNat + 32 ≤ s.cfg.memBytes →
    s.ctx.lcbase.toNat + 64 ≤ s.cfg.memBytes →
    ∃ t, exec (.buildlc ra) s = .next t ∧
      ∀ k < 64, t.mem.read (s.ctx.lcbase.toNat + k) = elem (k512 (List.replicate 64 0)) k

/-! ## Dataset items (45_dataset.md) -/

/-- R180, R183: DITEM512 derives one item by its 256 rounds from the light cache as it is, for any index,
and writes it; item j is the 64 bytes at LCBASE + 64·j (R26). CONTEXT before BUS_FAULT; nothing but those
bytes changes. The region premise is CTXSET's check (R26). -/
def Obligations.DitemDerivesOneItem : Prop :=
  ∀ (ra rc : RegIdx) (s : State) (n c : Nat) (sd : Word32) (A : Bytes 64),
    n = s.ctx.lccount.toNat → c = (s.readX rc).toNat → sd = (s.readX ra).setWidth 32 →
    A = s.mem.readBytes (s.ctx.lcbase.toNat + 64 * ((s.readX ra).toNat % n)) 64 →
    encode (.ditem512 ra rc) = 0x00000050 ||| (ra.setWidth 32 <<< 12) ||| (rc.setWidth 32 <<< 20) ∧
    (n = 0 → exec (.ditem512 ra rc) s = .next (s.raise .context 0)) ∧
    (n ≠ 0 → s.cfg.memBytes < c + 64 →
      exec (.ditem512 ra rc) s = .next (s.raise .busFault (s.readX rc))) ∧
    (n ≠ 0 → c + 64 ≤ s.cfg.memBytes → s.ctx.lcbase.toNat + 64 * n ≤ s.cfg.memBytes →
      ∃ (B : Bytes 64) (mix : Nat → Bytes 64) (m : Memory),
        le32 B 0 = le32 A 0 ^^^ sd ∧ (∀ j < 16, j ≠ 0 → le32 B j = le32 A j) ∧
        mix 0 = k512 B.toList ∧
        (∀ r < 256, mix (r + 1) = fnv1v (mix r) (s.mem.readBytes (s.ctx.lcbase.toNat + 64 *
          ((fnv1 (sd ^^^ BitVec.ofNat 32 r) (le32 (mix r) (r % 16))).toNat % n)) 64)) ∧
        exec (.ditem512 ra rc) s = .next { s with mem := m } ∧
        (∀ k < 64, m.read (c + k) = elem (k512 (mix 256).toList) k) ∧
        (∀ b, b < c ∨ c + 64 ≤ b → m.read b = s.mem.read b))

/-- R181, R182, R184, R185: DITEM1024 and DITEM2048 write the derivations of 2k, 2k+1 and of 4k to 4k+3,
indices mod 2^64, all from the light cache as it was; nothing but those bytes changes. -/
def Obligations.DitemGroupsAreConsecutiveItems : Prop :=
  ∀ (ra rc : RegIdx) (s : State) (k c : Nat), k = (s.readX ra).toNat → c = (s.readX rc).toNat →
    encode (.ditem1024 ra rc) = 0x00000051 ||| (ra.setWidth 32 <<< 12) ||| (rc.setWidth 32 <<< 20) ∧
    encode (.ditem2048 ra rc) = 0x00000052 ||| (ra.setWidth 32 <<< 12) ||| (rc.setWidth 32 <<< 20) ∧
    (s.ctx.lccount = 0 →
      exec (.ditem1024 ra rc) s = .next (s.raise .context 0) ∧
      exec (.ditem2048 ra rc) s = .next (s.raise .context 0)) ∧
    (s.ctx.lccount ≠ 0 →
      (s.cfg.memBytes < c + 128 →
        exec (.ditem1024 ra rc) s = .next (s.raise .busFault (s.readX rc))) ∧
      (s.cfg.memBytes < c + 256 →
        exec (.ditem2048 ra rc) s = .next (s.raise .busFault (s.readX rc)))) ∧
    (s.ctx.lccount ≠ 0 → s.ctx.lcbase.toNat + 64 * s.ctx.lccount.toNat ≤ s.cfg.memBytes →
      (c + 128 ≤ s.cfg.memBytes → ∃ m : Memory,
        exec (.ditem1024 ra rc) s = .next { s with mem := m } ∧
        (∀ h < 2, ∀ j < 64, m.read (c + 64 * h + j) =
          elem (item512 s.ctx s.mem (BitVec.ofNat 64 (2 * k + h))) j) ∧
        (∀ b, b < c ∨ c + 128 ≤ b → m.read b = s.mem.read b)) ∧
      (c + 256 ≤ s.cfg.memBytes → ∃ m : Memory,
        exec (.ditem2048 ra rc) s = .next { s with mem := m } ∧
        (∀ h < 4, ∀ j < 64, m.read (c + 64 * h + j) =
          elem (item512 s.ctx s.mem (BitVec.ofNat 64 (4 * k + h))) j) ∧
        (∀ b, b < c ∨ c + 256 ≤ b → m.read b = s.mem.read b)))

/-- R186: a dataset item depends on its index, LCCOUNT and the light-cache bytes alone: two machines that
agree on these write the same item, wherever their caches lie and whatever else they hold. -/
def Obligations.DatasetItemsDependOnTheCacheAlone : Prop :=
  ∀ (ra rc ra' rc' : RegIdx) (s s' : State),
    s.readX ra = s'.readX ra' → s.ctx.lccount = s'.ctx.lccount → s.ctx.lccount ≠ 0 →
    (∀ j < 64 * s.ctx.lccount.toNat,
      s.mem.read (s.ctx.lcbase.toNat + j) = s'.mem.read (s'.ctx.lcbase.toNat + j)) →
    ∀ d i i',
      (d = 64 ∧ i = .ditem512 ra rc ∧ i' = .ditem512 ra' rc') ∨
      (d = 128 ∧ i = .ditem1024 ra rc ∧ i' = .ditem1024 ra' rc') ∨
      (d = 256 ∧ i = .ditem2048 ra rc ∧ i' = .ditem2048 ra' rc') →
      (s.readX rc).toNat + d ≤ s.cfg.memBytes → (s'.readX rc').toNat + d ≤ s'.cfg.memBytes →
      ∀ t t', exec i s = .next t → exec i' s' = .next t' →
      ∀ j < d, t.mem.read ((s.readX rc).toNat + j) = t'.mem.read ((s'.readX rc').toNat + j)

/-- THE MODEL'S CHOICE (log 9): where LCCOUNT ≠ 0 and the light-cache region is not inside MEM, which CTXSET
never leaves, BUILDLC and the DITEM commands stop by name after their own checks. -/
def Obligations.LightCacheOutsideMemStops : Prop :=
  ∀ (ra rc : RegIdx) (s : State), s.ctx.lccount ≠ 0 →
    s.cfg.memBytes < s.ctx.lcbase.toNat + 64 * s.ctx.lccount.toNat →
    ((s.readX ra).toNat + 32 ≤ s.cfg.memBytes →
      exec (.buildlc ra) s = .fault .lightCacheOutsideMem) ∧
    ((s.readX rc).toNat + 64 ≤ s.cfg.memBytes →
      exec (.ditem512 ra rc) s = .fault .lightCacheOutsideMem) ∧
    ((s.readX rc).toNat + 128 ≤ s.cfg.memBytes →
      exec (.ditem1024 ra rc) s = .fault .lightCacheOutsideMem) ∧
    ((s.readX rc).toNat + 256 ≤ s.cfg.memBytes →
      exec (.ditem2048 ra rc) s = .fault .lightCacheOutsideMem)

/-! ## Errors (60_exceptions.md) -/

/-- R203: error entry writes ERR, ECODE, ERRCMD (the zero-extended command word) and ERRADDR (0 unless the
error is BUS_FAULT), with the codes of R201, and nothing else. -/
def Obligations.ErrorEntryWritesTheRecord : Prop :=
  (ErrCode.illegalCmd.code = 1 ∧ ErrCode.sequence.code = 2 ∧ ErrCode.context.code = 3 ∧
    ErrCode.invalidEpoch.code = 4 ∧ ErrCode.busFault.code = 5) ∧
  ∀ (s : State) (e : ErrCode) (a : Word),
    s.raise e a =
      { s with
        status := { s.status with err := true, ecode := e }
        errcmd := s.cmdlatch.setWidth 64
        erraddr := match e with
          | .busFault => a
          | _ => 0 }

/-- R202, R204: every command raises exactly the first error of its row in the table, and one whose checks
all pass leaves the error record alone. -/
def Obligations.CommandsRaiseTheirFirstError : Prop :=
  ∀ (i : Instr) (s : State),
    (∀ e a, errorOf i s = some (e, a) → exec i s = .next (s.raise e a)) ∧
    (errorOf i s = none → ∀ t, exec i s = .next t →
      t.status.err = s.status.err ∧ t.status.ecode = s.status.ecode ∧ t.errcmd = s.errcmd ∧
      t.erraddr = s.erraddr)

/-- R200: a command that raises an error changes no X register, no part of the sponge, no context or cache
register, not NF, and no byte of MEM. -/
def Obligations.ErrorsArePrecise : Prop :=
  ∀ (s t : State), s.engineMoves = true → s.status.err = false → step s = .next t →
    t.status.err = true →
    t.x = s.x ∧ t.sponge = s.sponge ∧ t.ctx = s.ctx ∧ t.ecache = s.ecache ∧
    t.status.nf = s.status.nf ∧ t.mem = s.mem

/-- R205: while ERR = 1, a CMD write is discarded: it latches nothing, leaves BUSY 0, does not set OVR and
changes no state (the action itself is used up). -/
def Obligations.CmdWriteIsDiscardedWhileErr : Prop :=
  ∀ (s : State) (v : Word) (rest : List HostAction),
    s.hostQueue = .write .b64 (s.cfg.windowBase + 0x080) v :: rest →
    s.status.busy = false → s.status.err = true →
    step s = .next { s with hostQueue := rest }

/-- R208: while BUSY = 1, a write to CMD or to an X register is ignored and sets OVR; the command in flight
is not affected. -/
def Obligations.OverrunIsIgnoredAndRecorded : Prop :=
  ∀ (s : State) (v : Word) (off : Nat) (rest : List HostAction),
    s.hostQueue = .write .b64 (s.cfg.windowBase + off) v :: rest →
    off % 8 = 0 → off ≤ 0x080 → s.status.busy = true →
    step s = .next { s with status := { s.status with ovr := true }, hostQueue := rest }

/-- R206: a STATUS write with bit 1 set clears ERR and ECODE and restores nothing else, and the CMD write
after it is latched normally. -/
def Obligations.ClearingErrRestoresNothingElse : Prop :=
  ∀ (s : State) (v w : Word) (rest : List HostAction),
    s.hostQueue = .write .b64 (s.cfg.windowBase + 0x088) v ::
      .write .b64 (s.cfg.windowBase + 0x080) w :: rest →
    s.status.busy = false → v.getLsbD 1 = true → v.getLsbD 3 = false →
    ∃ t, step s = .next t ∧
      t = { s with
        status := { s.status with err := false, ecode := .none }
        hostQueue := .write .b64 (s.cfg.windowBase + 0x080) w :: rest } ∧
      step t = .next { t with
        cmdlatch := w.setWidth 32
        status := { t.status with busy := true }
        hostQueue := rest }

/-! ## The host window (60_exceptions.md R214, R215) -/

/-- HostWrite of R215, the whole table. While BUSY = 0 an X write and a CMD write take effect, and a CMD
write is discarded while ERR = 1; while BUSY = 1 both set OVR. BUSY or not, a STATUS write clears by ones and
every other offset is ignored. -/
def Obligations.IdleHostWritesFollowTheTable : Prop :=
  ∀ (s : State) (v : Word) (off : Nat) (rest : List HostAction),
    s.hostQueue = .write .b64 (s.cfg.windowBase + off) v :: rest →
    off % 8 = 0 → off < 256 →
    ∃ t, step s = .next t ∧ t.hostQueue = rest ∧
      (s.status.busy = false →
        (∀ r : RegIdx, off = 8 * r.toNat →
          t.readX r = v ∧ (∀ q, q ≠ r → t.readX q = s.readX q) ∧
          t = { s with x := t.x, hostQueue := rest }) ∧
        (off = 0x080 → s.status.err = false →
          t = { s with
            cmdlatch := v.setWidth 32
            status := { s.status with busy := true }
            hostQueue := rest }) ∧
        (off = 0x080 → s.status.err = true → t = { s with hostQueue := rest })) ∧
      (s.status.busy = true → off ≤ 0x080 →
        t = { s with status := { s.status with ovr := true }, hostQueue := rest }) ∧
      (off = 0x088 →
        t = { s with
          status := { s.status with
            err := s.status.err && !v.getLsbD 1
            ecode := if v.getLsbD 1 then .none else s.status.ecode
            ovr := s.status.ovr && !v.getLsbD 3 }
          hostQueue := rest }) ∧
      (0x088 < off → t = { s with hostQueue := rest })

/-- R214, R25, R29: what each offset reads while BUSY = 0; a read changes nothing but what the host has
read. STATUS and SCTRL have their fields at the bits of R29 and R25 and 0 elsewhere. -/
def Obligations.IdleWindowReadsShowTheRegisters : Prop :=
  ∀ (s : State) (off : Nat) (rest : List HostAction),
    s.hostQueue = .read .b64 (s.cfg.windowBase + off) :: rest →
    off % 8 = 0 → off < 256 → s.status.busy = false → s.sponge.spos < 256 →
    ∃ v : Word, step s = .next { s with reply := .word v, hostQueue := rest } ∧
      (∀ r : RegIdx, off = 8 * r.toNat → v = s.readX r) ∧
      (off = 0x080 → v = 0) ∧
      (off = 0x088 →
        v.getLsbD 0 = false ∧ v.getLsbD 1 = s.status.err ∧ v.getLsbD 2 = s.status.nf ∧
        v.getLsbD 3 = s.status.ovr ∧ v.extractLsb' 8 4 = s.status.ecode.code ∧
        v.extractLsb' 4 4 = 0 ∧ v.extractLsb' 12 52 = 0) ∧
      (off = 0x090 → v = s.errcmd) ∧ (off = 0x098 → v = s.erraddr) ∧
      (off = 0x0A0 → v = s.ctx.lcbase) ∧ (off = 0x0A8 → v = s.ctx.lccount) ∧
      (off = 0x0B0 →
        v.extractLsb' 0 2 = (match s.sponge.sph with | .idle => 0 | .absorb => 1 | .squeeze => 2) ∧
        v.getLsbD 2 = decide (s.sponge.sw = .w512) ∧ (v.extractLsb' 8 8).toNat = s.sponge.spos ∧
        v.extractLsb' 3 5 = 0 ∧ v.extractLsb' 16 48 = 0) ∧
      (off = 0x0B8 → v = s.ecache.ecepoch) ∧
      (∀ j < 4, off = 0x0C0 + 8 * j → ∀ k < 8, byteOf v k = elem s.ecache.ecseed (8 * j + k)) ∧
      (0x0E0 ≤ off → v = 0)

/-- R215, HostRead while BUSY = 1: STATUS reads BUSY = 1, ERR = 0, ECODE = 0 and OVR as it stands. NF and
every other register read as any value, so nothing is said of them; no read changes the engine. THE MODEL'S
CHOICE (log 4, DEDUCED from U10): the reserved offsets 0x0E0 to 0x0F8 read 0 while BUSY = 1 too, where U4 read
by itself lets them read as any value. -/
def Obligations.BusyStatusReadsShowOvr : Prop :=
  ∀ (s : State) (off : Nat) (rest : List HostAction),
    s.hostQueue = .read .b64 (s.cfg.windowBase + off) :: rest →
    off % 8 = 0 → off < 256 → s.status.busy = true →
    ∃ (v : Word) (d : Nat), step s = .next { s with reply := .word v, hostQueue := rest, draws := d } ∧
      (off = 0x088 →
        v.getLsbD 0 = true ∧ v.getLsbD 1 = false ∧ v.getLsbD 3 = s.status.ovr ∧
        v.extractLsb' 8 4 = 0 ∧ v.extractLsb' 4 4 = 0 ∧ v.extractLsb' 12 52 = 0) ∧
      (0x0E0 ≤ off → v = 0)

/-- THE MODEL'S CHOICES (logs 6, 7, 10): a window access that is not an aligned 64-bit one inside the window
is refused (U2), a host MEM access outside MEM faults, and one that shares a byte with a region of the
command in flight is refused (U3). -/
def Obligations.UndutifulHostActionsStop : Prop :=
  ∀ (s : State) (width : AccessWidth) (addr a : Nat) (v : Word) (bs : List Byte)
    (rest : List HostAction),
    (s.hostQueue = .write width addr v :: rest ∨ s.hostQueue = .read width addr :: rest →
      width ≠ .b64 ∨ addr < s.cfg.windowBase ∨ s.cfg.windowBase + 256 ≤ addr ∨
        (addr - s.cfg.windowBase) % 8 ≠ 0 →
      step s = .refused .windowAccess) ∧
    (s.hostQueue = .memWrite a bs :: rest ∨ s.hostQueue = .memRead a bs.length :: rest → bs ≠ [] →
      (s.cfg.memBytes < a + bs.length → step s = .fault .hostAccessOutsideMem) ∧
      (a + bs.length ≤ s.cfg.memBytes → ∀ i, s.status.busy = true → decode s.cmdlatch = .ok i →
        errorOf i s = none → ∀ r ∈ sourcesOf i s ++ (destOf i s).toList, ∀ b,
        a ≤ b → b < a + bs.length → r.base ≤ b → b < r.base + r.len →
        step s = .refused .memoryInFlight))

/-- R50, R56, R60, R62: a host access to MEM while BUSY = 0, or one while BUSY = 1 that shares no byte with
a region of the command in flight. A write stores its bytes and no others, a read returns the bytes MEM holds,
and no register changes. A command that is illegal or raises an error has no region (R200). -/
def Obligations.IdleHostMemoryAccessesAreOrdinary : Prop :=
  ∀ (s : State) (a n : Nat) (rest : List HostAction),
    (n = 0 ∨ a + n ≤ s.cfg.memBytes) →
    (s.status.busy = true → ∀ i, decode s.cmdlatch = .ok i → errorOf i s = none →
      ∀ r ∈ sourcesOf i s ++ (destOf i s).toList, ∀ b, a ≤ b → b < a + n →
        b < r.base ∨ r.base + r.len ≤ b) →
    (∀ bs : List Byte, bs.length = n → s.hostQueue = .memWrite a bs :: rest →
      ∃ m : Memory, step s = .next { s with mem := m, hostQueue := rest } ∧
        (∀ k < n, m.read (a + k) = bs.getD k 0) ∧
        (∀ b, b < a ∨ a + n ≤ b → m.read b = s.mem.read b)) ∧
    (s.hostQueue = .memRead a n :: rest →
      step s = .next
        { s with reply := .bytes ((List.range n).map fun k => s.mem.read (a + k)), hostQueue := rest })

/-! ## Reset (10_state.md R34, 70_reset_and_hazards.md R230 to R232) -/

/-- R34, R230: reset, idle or busy, gives every register its reset value. -/
def Obligations.ResetGivesEveryRegisterItsValue : Prop :=
  ∀ (s : State) (rest : List HostAction), s.hostQueue = .reset :: rest →
    ∃ t, step s = .next t ∧
      (∀ r, t.readX r = 0) ∧ (∀ i < 25, elem t.sponge.lanes i = 0) ∧
      t.sponge.sph = .idle ∧ t.sponge.sw = .w256 ∧ t.sponge.spos = 0 ∧
      t.ctx.lcbase = 0 ∧ t.ctx.lccount = 0 ∧
      t.ecache.ecepoch = 0 ∧ (∀ k < 32, elem t.ecache.ecseed k = 0) ∧
      t.status = ⟨false, false, false, false, .none⟩ ∧
      t.errcmd = 0 ∧ t.erraddr = 0 ∧ t.cmdlatch = 0 ∧
      t.cfg = s.cfg ∧ t.hostQueue = rest

/-- R231, R232: an idle reset leaves MEM as it is; a reset while BUSY leaves every byte outside the
destination region of the command in flight. -/
def Obligations.ResetKeepsMemoryOutsideTheDestination : Prop :=
  ∀ (s t : State) (rest : List HostAction), s.hostQueue = .reset :: rest → step s = .next t →
    (s.status.busy = false → t.mem = s.mem) ∧
    (∀ i, decode s.cmdlatch = .ok i → ∀ b,
      (∀ r, destOf i s = some r → b < r.base ∨ r.base + r.len ≤ b) → t.mem.read b = s.mem.read b) ∧
    (wellFormed s.cmdlatch = false → t.mem = s.mem)

/-! ## Invariants and whole-machine rules -/

/-- The invariant and the true pair hold right after reset (R34). -/
def Obligations.ResetStateMeetsTheInvariants : Prop := State.reset.Inv ∧ State.reset.SeedTrue

/-- Every step keeps the invariant, from every state that meets it. -/
def Obligations.StepKeepsTheInvariant : Prop :=
  ∀ s t : State, s.Inv → step s = .next t → t.Inv

/-- R28: every step keeps ECSEED = EpochSeed(ECEPOCH), as long as ECEPOCH does not wrap. -/
def Obligations.StepKeepsTheSeedPairTrue : Prop :=
  ∀ s t : State, s.SeedTrue → s.ecache.ecepoch.toNat < 2 ^ 64 - 1 → step s = .next t → t.SeedTrue

/-- While the host keeps its duties, the machine never stops: from every state that meets the invariant a
step answers a next state. -/
def Obligations.DutifulHostNeverStopsTheMachine : Prop :=
  ∀ s : State, s.Inv → s.hostDuty = true → ∃ t, step s = .next t

/-- R21, R24 to R27, R29, R209: each register is written only by its own commands. -/
def Obligations.RegistersHaveTheirOwnWriters : Prop :=
  ∀ (i : Instr) (s t : State), exec i s = .next t →
    (∀ r, destReg i ≠ some r → t.readX r = s.readX r) ∧
    (writesLanes i = false → t.sponge.lanes = s.sponge.lanes) ∧
    (movesSponge i = false →
      t.sponge.sph = s.sponge.sph ∧ t.sponge.sw = s.sponge.sw ∧ t.sponge.spos = s.sponge.spos) ∧
    ((∀ ra rb, i ≠ .ctxset ra rb) → t.ctx = s.ctx) ∧
    ((∀ rd ra, i ≠ .enum rd ra) → i ≠ .ecrst → t.ecache = s.ecache) ∧
    ((∀ rd ra, i ≠ .enum rd ra) → t.status.nf = s.status.nf) ∧
    t.status.busy = s.status.busy ∧ t.status.ovr = s.status.ovr ∧ t.cmdlatch = s.cmdlatch ∧
    t.cfg = s.cfg ∧ t.hostQueue = s.hostQueue ∧ t.reply = s.reply ∧ t.draws = s.draws

/-- R53, R57, R200: a command changes no byte of MEM outside its destination region, and none at all when
it raises an error. -/
def Obligations.MemoryChangesOnlyInTheDestination : Prop :=
  ∀ (i : Instr) (s t : State), exec i s = .next t →
    (∀ b, (∀ r, destOf i s = some r → b < r.base ∨ r.base + r.len ≤ b) →
      t.mem.read b = s.mem.read b) ∧
    (errorOf i s ≠ none → t.mem = s.mem)

/-- R53, R56 on the model's list (log 3): a read after a write gives the last byte written, a write keeps
the canonical form, memories in that form that read alike are equal data, and MemRead(a, n) is the n bytes
from a on. -/
def Obligations.MemoryReadsTheLastByteWritten : Prop :=
  (∀ (m : Memory) (a : Nat) (bs : List Byte) (b : Nat),
    (m.write a bs).read b = if a ≤ b ∧ b < a + bs.length then bs.getD (b - a) 0 else m.read b) ∧
  (∀ (m : Memory) (a : Nat) (bs : List Byte), m.wf → (m.write a bs).wf) ∧
  (∀ m m' : Memory, m.wf → m'.wf → (∀ a, m.read a = m'.read a) → m = m') ∧
  (∀ (m : Memory) (a n k : Nat), k < n → elem (m.readBytes a n) k = m.read (a + k))

/-- R11, R54: the little-endian accessors are the sums of the rule, and the 64-bit view of a byte string is
its 32-bit view. -/
def Obligations.LittleEndianViewsAgree : Prop :=
  ∀ (n : Nat) (B : Bytes n) (j : Nat),
    (le32 B j).toNat = (elem B (4 * j)).toNat + (elem B (4 * j + 1)).toNat * 2 ^ 8 +
      (elem B (4 * j + 2)).toNat * 2 ^ 16 + (elem B (4 * j + 3)).toNat * 2 ^ 24 ∧
    (le64 B j).toNat = (le32 B (2 * j)).toNat + 2 ^ 32 * (le32 B (2 * j + 1)).toNat ∧
    (∀ S : Lanes, ∀ i < 25, le64 (ofLanes 200 S) i = elem S i)

/-! ## The host's programs (30_encoding.md R77, 70_reset_and_hazards.md R236) -/

/-- R77: on an idle machine without an error and with nothing else pending, the directive of a command
latches its word, runs it, and comes to rest with BUSY = 0. What is pending is the model's list (log 1). -/
def Obligations.CommandDirectiveRunsTheCommand : Prop :=
  ∀ (s : State) (i : Instr), s.hostQueue = [] → s.status.busy = false → s.status.err = false →
    (∀ t, exec i { s with
          cmdlatch := encode i
          status := { s.status with busy := true }
          hostQueue := [.wait] } = .next t →
      perform (.command i) s =
        .next { t with status := { t.status with busy := false }, hostQueue := [] })

/-- R236, with R161 and R168: a context the procedure returns has the counts of the effective epoch of e,
the byte sizes the host multiplies out, and the buffers it was given; LCBASE and LCCOUNT then locate the
light cache, and the machine is idle without an error. THE MODEL'S CHOICE (log 17): the procedure is a
function that takes the host's allocator as an argument. -/
def Obligations.EpochContextHasTheEffectiveCounts : Prop :=
  ∀ (e : Word) (buildFull : Bool) (obtain : Nat → Nat → Option Buffers) (s t : State)
    (c : EpochContext),
    s.hostQueue = [] → s.status.busy = false → s.status.err = false →
    createEpochContext e buildFull obtain s = .context c t →
    0 ≤ e.toInt ∧ e.toInt ≤ 2 ^ 31 - 1 ∧
    c.epochNumber = e ∧
    c.lightCacheItemCount = lightCount (if e.toNat < 390 then e.toNat else e.toNat / 2) ∧
    c.fullDatasetItemCount = fullCount (if e.toNat < 390 then e.toNat else e.toNat / 2) ∧
    c.lightCacheSizeBytes = 64 * c.lightCacheItemCount ∧
    c.fullDatasetSizeBytes = 128 * c.fullDatasetItemCount ∧
    ∃ b, obtain c.lightCacheItemCount c.fullDatasetItemCount = some b ∧ c.lightCache = b.lb ∧
      c.l1Cache = (if buildFull then none else some b.items) ∧
      c.fullDataset = (if buildFull then some b.items else none) ∧
      t.ctx.lcbase = b.lb ∧ t.ctx.lccount.toNat = c.lightCacheItemCount ∧
      t.status.err = false ∧ t.status.busy = false ∧ t.hostQueue = []
end

