-- ==== Sys2Proof/Laws/Bytes.lean ====
section
/-!
SUPPORT. Laws of byte strings: what `elem` gives, when two vectors are equal, and the bytes of the
little-endian accessors (Machine/Bytes.lean).
-/

namespace Sys2Proof.Machine

theorem elem_of_lt {w n : Nat} (v : Vector (BitVec w) n) {i : Nat} (h : i < n) : elem v i = v[i] := by
  simp [elem, List.getD, h]

theorem elem_of_ge {w n : Nat} (v : Vector (BitVec w) n) {i : Nat} (h : n ≤ i) : elem v i = 0 := by
  simp [elem, List.getD, h]

/-- Two vectors with the same elements are equal. -/
theorem vector_ext_elem {w n : Nat} {u v : Vector (BitVec w) n} (h : ∀ i < n, elem u i = elem v i) :
    u = v := by
  apply Vector.ext
  intro i hi
  simpa [elem_of_lt, hi] using h i hi

theorem elem_ofFn {w n : Nat} (f : Fin n → BitVec w) {i : Nat} (h : i < n) :
    elem (Vector.ofFn f) i = f ⟨i, h⟩ := by
  simp [elem_of_lt _ h]

@[simp] theorem elem_replicate_zero {w n : Nat} (i : Nat) :
    elem (Vector.replicate n (0#w)) i = 0#w := by
  by_cases h : i < n
  · simp [elem_of_lt _ h]
  · exact elem_of_ge _ (Nat.le_of_not_lt h)

@[simp] theorem elem_zeros {n : Nat} (i : Nat) : elem (zeros n) i = 0#8 := elem_replicate_zero i

theorem elem_setIfInBounds {w n : Nat} (v : Vector (BitVec w) n) (i j : Nat) (x : BitVec w) :
    elem (v.setIfInBounds i x) j = if i = j ∧ j < n then x else elem v j := by
  by_cases h : j < n
  · simp [elem_of_lt _ h, Vector.getElem_setIfInBounds, h]
  · simp [elem_of_ge _ (Nat.le_of_not_lt h), h]

theorem elem_set {w n : Nat} (v : Vector (BitVec w) n) {i : Nat} (hi : i < n) (j : Nat) (x : BitVec w) :
    elem (v.set i x hi) j = if i = j then x else elem v j := by
  by_cases h : j < n
  · simp [elem_of_lt _ h, Vector.getElem_set]
  · have : i ≠ j := by omega
    simp [elem_of_ge _ (Nat.le_of_not_lt h), this]

/-- The left part of a concatenation. -/
theorem elem_append_left {w m n : Nat} (u : Vector (BitVec w) m) (v : Vector (BitVec w) n) {i : Nat}
    (h : i < m) : elem (u ++ v) i = elem u i := by
  rw [elem_of_lt _ h, elem_of_lt _ (by omega)]
  exact Vector.getElem_append_left h

/-- The right part of a concatenation. -/
theorem elem_append_right {w m n : Nat} (u : Vector (BitVec w) m) (v : Vector (BitVec w) n) {i : Nat}
    (h : i < n) : elem (u ++ v) (m + i) = elem v i := by
  rw [elem_of_lt _ h, elem_of_lt _ (by omega)]
  simp

/-! ## Little-endian words -/

/-- Bit `i` of the low part of a concatenation of a byte string's bytes. -/
theorem extract_append_low {m n : Nat} (hi : BitVec m) (lo : BitVec n) (k : Nat) (h : k + 8 ≤ n) :
    (hi ++ lo).extractLsb' k 8 = lo.extractLsb' k 8 := by
  apply BitVec.eq_of_getLsbD_eq
  intro i hi'
  have : k + i < n := by omega
  simp [BitVec.getLsbD_extractLsb', BitVec.getLsbD_append, this]

theorem extract_append_high {m n : Nat} (hi : BitVec m) (lo : BitVec n) (k : Nat) :
    (hi ++ lo).extractLsb' (n + k) 8 = hi.extractLsb' k 8 := by
  apply BitVec.eq_of_getLsbD_eq
  intro i hi'
  have h1 : ¬ n + k + i < n := by omega
  have h2 : n + k + i - n = k + i := by omega
  simp [BitVec.getLsbD_extractLsb', BitVec.getLsbD_append, h1, h2]

theorem extract_whole (b : Byte) : b.extractLsb' 0 8 = b := by
  apply BitVec.eq_of_getLsbD_eq
  intro i hi'
  simp [hi']

theorem byteOf_le32 {n : Nat} (B : Bytes n) (j k : Nat) (h : k < 4) :
    byteOf (le32 B j) k = elem B (4 * j + k) := by
  unfold byteOf le32
  obtain rfl | rfl | rfl | rfl : k = 0 ∨ k = 1 ∨ k = 2 ∨ k = 3 := by omega
  · exact (extract_append_low _ _ 0 (by decide)).trans (extract_whole _)
  · exact (extract_append_high (n := 8) _ _ 0).trans
      ((extract_append_low _ _ 0 (by decide)).trans (extract_whole _))
  · exact (extract_append_high (n := 8) _ _ 8).trans ((extract_append_high (n := 8) _ _ 0).trans
      ((extract_append_low _ _ 0 (by decide)).trans (extract_whole _)))
  · exact (extract_append_high (n := 8) _ _ 16).trans ((extract_append_high (n := 8) _ _ 8).trans
      ((extract_append_high (n := 8) _ _ 0).trans (extract_whole _)))

theorem byteOf_le64 {n : Nat} (B : Bytes n) (j k : Nat) (h : k < 8) :
    byteOf (le64 B j) k = elem B (8 * j + k) := by
  have peel : ∀ {m : Nat} (hi : BitVec m) (lo : Byte) (k : Nat) (b : Byte),
      hi.extractLsb' k 8 = b → (hi ++ lo).extractLsb' (8 + k) 8 = b :=
    fun hi lo k b e => (extract_append_high (n := 8) hi lo k).trans e
  have last : ∀ {m : Nat} (hi : BitVec m) (lo : Byte), (hi ++ lo).extractLsb' 0 8 = lo :=
    fun hi lo => (extract_append_low hi lo 0 (by decide)).trans (extract_whole lo)
  unfold byteOf le64
  obtain rfl | rfl | rfl | rfl | rfl | rfl | rfl | rfl :
    k = 0 ∨ k = 1 ∨ k = 2 ∨ k = 3 ∨ k = 4 ∨ k = 5 ∨ k = 6 ∨ k = 7 := by omega
  · exact last _ _
  · exact peel _ _ 0 _ (last _ _)
  · exact peel _ _ 8 _ (peel _ _ 0 _ (last _ _))
  · exact peel _ _ 16 _ (peel _ _ 8 _ (peel _ _ 0 _ (last _ _)))
  · exact peel _ _ 24 _ (peel _ _ 16 _ (peel _ _ 8 _ (peel _ _ 0 _ (last _ _))))
  · exact peel _ _ 32 _ (peel _ _ 24 _ (peel _ _ 16 _ (peel _ _ 8 _ (peel _ _ 0 _ (last _ _)))))
  · exact peel _ _ 40 _ (peel _ _ 32 _ (peel _ _ 24 _ (peel _ _ 16 _ (peel _ _ 8 _
      (peel _ _ 0 _ (last _ _))))))
  · exact peel _ _ 48 _ (peel _ _ 40 _ (peel _ _ 32 _ (peel _ _ 24 _ (peel _ _ 16 _ (peel _ _ 8 _
      (peel _ _ 0 _ (extract_whole _)))))))

/-- A 64-bit word is its eight bytes. -/
theorem word_ext_byteOf {u v : Word} (h : ∀ k < 8, byteOf u k = byteOf v k) : u = v := by
  apply BitVec.eq_of_getLsbD_eq
  intro i hi
  have hb := congrArg (fun b => b.getLsbD (i % 8)) (h (i / 8) (by omega))
  have hlt : i % 8 < 8 := by omega
  have he : 8 * (i / 8) + i % 8 = i := by omega
  simpa [byteOf, BitVec.getLsbD_extractLsb', hlt, he] using hb

theorem elem_ofLanes {n : Nat} (S : Lanes) {i : Nat} (h : i < n) :
    elem (ofLanes n S) i = byteOf (elem S (i / 8)) (i % 8) := by
  simp [ofLanes, elem_ofFn _ h]

theorem elem_toLanes (B : Bytes 200) {i : Nat} (h : i < 25) : elem (toLanes B) i = le64 B i := by
  simp [toLanes, elem_ofFn _ h]

theorem elem_ofWords32 {n : Nat} (ws : Vector Word32 n) {i : Nat} (h : i < 4 * n) :
    elem (ofWords32 ws) i = byteOf (elem ws (i / 4)) (i % 4) := by
  simp [ofWords32, elem_ofFn _ h]

theorem elem_xorBytes {n : Nat} (A B : Bytes n) {i : Nat} (h : i < n) :
    elem (xorBytes A B) i = elem A i ^^^ elem B i := by
  simp [xorBytes, elem_ofFn _ h]

/-- Storing the lanes and loading them back gives the lanes (R112, corner case). -/
theorem toLanes_ofLanes (S : Lanes) : toLanes (ofLanes 200 S) = S := by
  apply vector_ext_elem
  intro i hi
  rw [elem_toLanes _ hi]
  apply word_ext_byteOf
  intro k hk
  rw [byteOf_le64 _ _ _ hk, elem_ofLanes _ (by omega)]
  have h1 : (8 * i + k) / 8 = i := by omega
  have h2 : (8 * i + k) % 8 = k := by omega
  rw [h1, h2]

end Sys2Proof.Machine
end

