-- ==== Sys2Proof/Laws/Memory.lean ====
section
/-!
SUPPORT. Laws of MEM: a read after a write, the canonical form kept by every write, and equal reads
make equal memories (Machine/Memory.lean; 20_memory.md R53, R56).
-/

namespace Sys2Proof.Machine.Memory

theorem read_of_forall_ne {m : Memory} {a : Nat} (h : ∀ c ∈ m, c.1 ≠ a) : read m a = unlisted := by
  induction m with
  | nil => rfl
  | cons c m ih =>
    have hc : c.1 ≠ a := h c (by simp)
    simp only [read, hc, if_false]
    exact ih fun d hd => h d (by simp [hd])

theorem read_append (m₁ m₂ : Memory) (a : Nat) (h : ∀ c ∈ m₂, c.1 ≠ a) :
    read (m₁ ++ m₂) a = read m₁ a := by
  induction m₁ with
  | nil => exact read_of_forall_ne h
  | cons c m ih => simp only [List.cons_append, read, ih]

theorem read_append_of_ne (m₁ m₂ : Memory) (a : Nat) (h : ∀ c ∈ m₁, c.1 ≠ a) :
    read (m₁ ++ m₂) a = read m₂ a := by
  induction m₁ with
  | nil => rfl
  | cons c m ih =>
    have hc : c.1 ≠ a := h c (by simp)
    simp only [List.cons_append, read, hc, if_false]
    exact ih fun d hd => h d (by simp [hd])

theorem read_filter (m : Memory) (p : Nat → Bool) (a : Nat) (h : p a = true) :
    read (m.filter fun c => p c.1) a = read m a := by
  induction m with
  | nil => rfl
  | cons c m ih =>
    by_cases hc : c.1 = a
    · simp [hc, h, read]
    · by_cases hp : p c.1 = true
      · simp [hp, read, hc, ih]
      · simp [hp, read, hc, ih]

theorem cells_cons (a : Nat) (b : Byte) (bs : List Byte) :
    cells a (b :: bs) = if b = unlisted then cells (a + 1) bs else (a, b) :: cells (a + 1) bs := rfl

theorem cells_bounds (a : Nat) (bs : List Byte) :
    ∀ c ∈ cells a bs, a ≤ c.1 ∧ c.1 < a + bs.length := by
  induction bs generalizing a with
  | nil => simp [cells]
  | cons b bs ih =>
    intro c hc
    have step : ∀ c ∈ cells (a + 1) bs, a ≤ c.1 ∧ c.1 < a + (b :: bs).length := by
      intro c hc
      have := ih (a + 1) c hc
      simp only [List.length_cons]
      omega
    rw [cells_cons] at hc
    split at hc
    · exact step c hc
    · rcases List.mem_cons.1 hc with rfl | hc
      · simp
      · exact step c hc

theorem read_cells (a : Nat) (bs : List Byte) (b : Nat) :
    read (cells a bs) b =
      if a ≤ b ∧ b < a + bs.length then bs.getD (b - a) 0 else unlisted := by
  induction bs generalizing a with
  | nil =>
    have : ¬ (a ≤ b ∧ b < a) := by omega
    simp [cells, read, this]
  | cons v bs ih =>
    by_cases hb : b = a
    · subst hb
      have hne : ∀ c ∈ cells (b + 1) bs, c.1 ≠ b := fun c hc => by
        have := cells_bounds (b + 1) bs c hc; omega
      rw [cells_cons]
      split
      · rename_i hv
        simp [read_of_forall_ne hne, hv]
      · simp [read]
    · have hread : read (cells a (v :: bs)) b = read (cells (a + 1) bs) b := by
        have : a ≠ b := fun h => hb h.symm
        rw [cells_cons]
        split
        · rfl
        · simp [read, this]
      rw [hread, ih]
      by_cases hin : a + 1 ≤ b ∧ b < a + 1 + bs.length
      · have h1 : a ≤ b ∧ b < a + (v :: bs).length := by simp only [List.length_cons]; omega
        have h2 : b - a = (b - (a + 1)) + 1 := by omega
        rw [if_pos hin, if_pos h1, h2, List.getD_cons_succ]
      · have h1 : ¬ (a ≤ b ∧ b < a + (v :: bs).length) := by simp only [List.length_cons]; omega
        rw [if_neg hin, if_neg h1]

/-- A read after a write: the byte written, or what was there (R53, R56). -/
theorem read_write (m : Memory) (a : Nat) (bs : List Byte) (b : Nat) :
    read (write m a bs) b =
      if a ≤ b ∧ b < a + bs.length then bs.getD (b - a) 0 else read m b := by
  unfold write
  by_cases hlo : b < a
  · have hnot : ¬ (a ≤ b ∧ b < a + bs.length) := by omega
    rw [List.append_assoc, read_append, if_neg hnot]
    · exact read_filter m (fun x => decide (x < a)) b (by simpa using hlo)
    · intro c hc
      rcases List.mem_append.1 hc with hc | hc
      · have := cells_bounds a bs c hc; omega
      · have := (List.mem_filter.1 hc).2; simp at this; omega
  · rw [List.append_assoc, read_append_of_ne]
    · by_cases hhi : a + bs.length ≤ b
      · have hnot : ¬ (a ≤ b ∧ b < a + bs.length) := by omega
        rw [read_append_of_ne, if_neg hnot]
        · exact read_filter m (fun x => decide (a + bs.length ≤ x)) b (by simpa using hhi)
        · intro c hc
          have := cells_bounds a bs c hc; omega
      · rw [read_append, read_cells]
        · have hin : a ≤ b ∧ b < a + bs.length := by omega
          simp [hin]
        · intro c hc
          have := (List.mem_filter.1 hc).2; simp at this; omega
    · intro c hc
      have := (List.mem_filter.1 hc).2; simp at this; omega

/-- A write leaves every byte outside its region alone (R53). -/
theorem read_write_of_outside (m : Memory) (a : Nat) (bs : List Byte) {b : Nat}
    (h : b < a ∨ a + bs.length ≤ b) : read (write m a bs) b = read m b := by
  rw [read_write, if_neg (by omega)]

/-- A write gives each byte of its region the byte written (R53). -/
theorem read_write_vector {n : Nat} (m : Memory) (a : Nat) (B : Bytes n) {k : Nat} (h : k < n) :
    read (write m a B.toList) (a + k) = elem B k := by
  rw [read_write, if_pos (by simp; omega)]
  simp [elem]

theorem elem_readBytes (m : Memory) (a : Nat) {n k : Nat} (h : k < n) :
    elem (readBytes m a n) k = read m (a + k) := by
  simp [readBytes, elem_ofFn _ h]

theorem cells_wf (a : Nat) (bs : List Byte) : wf (cells a bs) := by
  induction bs generalizing a with
  | nil => simp [cells, wf]
  | cons b bs ih =>
    rw [cells_cons]
    split
    · exact ih (a + 1)
    · rename_i hb
      refine ⟨List.pairwise_cons.2 ⟨fun c hc => ?_, (ih (a + 1)).1⟩, fun c hc => ?_⟩
      · have := cells_bounds (a + 1) bs c hc; simp only; omega
      · rcases List.mem_cons.1 hc with rfl | hc
        · exact hb
        · exact (ih (a + 1)).2 c hc

/-- Every write keeps the canonical form. -/
theorem write_wf {m : Memory} (h : wf m) (a : Nat) (bs : List Byte) : wf (write m a bs) := by
  obtain ⟨hp, hv⟩ := h
  obtain ⟨cp, cv⟩ := cells_wf a bs
  constructor
  · rw [write, List.append_assoc]
    refine List.pairwise_append.2 ⟨hp.filter _, List.pairwise_append.2 ⟨cp, hp.filter _, ?_⟩, ?_⟩
    · intro c hc d hd
      have h1 := cells_bounds a bs c hc
      have h2 := (List.mem_filter.1 hd).2
      simp at h2; omega
    · intro c hc d hd
      have h1 := (List.mem_filter.1 hc).2
      simp at h1
      rcases List.mem_append.1 hd with hd | hd
      · have := cells_bounds a bs d hd; omega
      · have := (List.mem_filter.1 hd).2; simp at this; omega
  · intro c hc
    rw [write, List.append_assoc] at hc
    rcases List.mem_append.1 hc with hc | hc
    · exact hv c (List.mem_filter.1 hc).1
    rcases List.mem_append.1 hc with hc | hc
    · exact cv c hc
    · exact hv c (List.mem_filter.1 hc).1

/-- A write inside MEM keeps every listed address inside MEM. -/
theorem write_within {m : Memory} {bytes : Nat} (h : within m bytes) (a : Nat) (bs : List Byte)
    (ha : bs = [] ∨ a + bs.length ≤ bytes) : within (write m a bs) bytes := by
  intro c hc
  rw [write, List.append_assoc] at hc
  rcases List.mem_append.1 hc with hc | hc
  · exact h c (List.mem_filter.1 hc).1
  rcases List.mem_append.1 hc with hc | hc
  · have := cells_bounds a bs c hc
    rcases ha with rfl | ha
    · simp [cells] at hc
    · omega
  · exact h c (List.mem_filter.1 hc).1

/-- Memories in canonical form that read alike are the same data. -/
theorem ext_of_wf {m₁ m₂ : Memory} (h₁ : wf m₁) (h₂ : wf m₂) (h : ∀ a, read m₁ a = read m₂ a) :
    m₁ = m₂ := by
  induction m₁ generalizing m₂ with
  | nil =>
    cases m₂ with
    | nil => rfl
    | cons d m₂ =>
      have := h d.1
      simp only [read, if_true] at this
      exact absurd this.symm (h₂.2 d (by simp))
  | cons c m₁ ih =>
    cases m₂ with
    | nil =>
      have := h c.1
      simp only [read, if_true] at this
      exact absurd this (h₁.2 c (by simp))
    | cons d m₂ =>
      obtain ⟨p₁, v₁⟩ := h₁
      obtain ⟨p₂, v₂⟩ := h₂
      obtain ⟨q₁, p₁⟩ := List.pairwise_cons.1 p₁
      obtain ⟨q₂, p₂⟩ := List.pairwise_cons.1 p₂
      have low : ∀ {e : Host.Cell} {m : Memory} {a : Nat}, (∀ x ∈ m, e.1 < x.1) → a < e.1 →
          read (e :: m) a = unlisted := by
        intro e m a hq ha
        refine read_of_forall_ne fun x hx => ?_
        rcases List.mem_cons.1 hx with rfl | hx
        · omega
        · have := hq x hx; omega
      have hcd : c.1 = d.1 := by
        rcases Nat.lt_trichotomy c.1 d.1 with hlt | heq | hlt
        · have := h c.1
          rw [low q₂ hlt] at this
          simp only [read, if_true] at this
          exact absurd this (v₁ c (by simp))
        · exact heq
        · have := h d.1
          rw [low q₁ hlt] at this
          simp only [read, if_true] at this
          exact absurd this.symm (v₂ d (by simp))
      have hval : c.2 = d.2 := by
        have := h c.1
        simpa only [read, if_true, hcd] using this
      have htail : m₁ = m₂ := by
        refine ih ⟨p₁, fun x hx => v₁ x (by simp [hx])⟩ ⟨p₂, fun x hx => v₂ x (by simp [hx])⟩ ?_
        intro a
        by_cases ha : a = c.1
        · subst ha
          rw [read_of_forall_ne fun x hx => Nat.ne_of_gt (q₁ x hx),
            read_of_forall_ne fun x hx => Nat.ne_of_gt (hcd ▸ q₂ x hx)]
        · have := h a
          have h1 : c.1 ≠ a := fun e => ha e.symm
          have h2 : d.1 ≠ a := fun e => ha (hcd.trans e).symm
          simpa only [read, h1, h2, if_false] using this
      rw [Prod.ext hcd hval, htail]

end Sys2Proof.Machine.Memory
end

