-- ==== Sys2Proof/Laws/State.lean ====
section
/-!
SUPPORT. What each named update of Machine/Ops.lean leaves in each field of State: one lemma for each
field and update, true by `rfl`, so that no later proof unfolds a record update.
-/

namespace Sys2Proof.Machine.State

/-! ## writeX -/

@[simp] theorem writeX_x (s : State) (r : RegIdx) (v : Word) :
    (s.writeX r v).x = s.x.set r.toNat v r.isLt := rfl
@[simp] theorem writeX_sponge (s : State) (r : RegIdx) (v : Word) :
    (s.writeX r v).sponge = s.sponge := rfl
@[simp] theorem writeX_ctx (s : State) (r : RegIdx) (v : Word) : (s.writeX r v).ctx = s.ctx := rfl
@[simp] theorem writeX_ecache (s : State) (r : RegIdx) (v : Word) :
    (s.writeX r v).ecache = s.ecache := rfl
@[simp] theorem writeX_status (s : State) (r : RegIdx) (v : Word) :
    (s.writeX r v).status = s.status := rfl
@[simp] theorem writeX_errcmd (s : State) (r : RegIdx) (v : Word) :
    (s.writeX r v).errcmd = s.errcmd := rfl
@[simp] theorem writeX_erraddr (s : State) (r : RegIdx) (v : Word) :
    (s.writeX r v).erraddr = s.erraddr := rfl
@[simp] theorem writeX_cmdlatch (s : State) (r : RegIdx) (v : Word) :
    (s.writeX r v).cmdlatch = s.cmdlatch := rfl
@[simp] theorem writeX_mem (s : State) (r : RegIdx) (v : Word) : (s.writeX r v).mem = s.mem := rfl
@[simp] theorem writeX_cfg (s : State) (r : RegIdx) (v : Word) : (s.writeX r v).cfg = s.cfg := rfl
@[simp] theorem writeX_hostQueue (s : State) (r : RegIdx) (v : Word) :
    (s.writeX r v).hostQueue = s.hostQueue := rfl
@[simp] theorem writeX_reply (s : State) (r : RegIdx) (v : Word) :
    (s.writeX r v).reply = s.reply := rfl
@[simp] theorem writeX_draws (s : State) (r : RegIdx) (v : Word) :
    (s.writeX r v).draws = s.draws := rfl

/-! ## setSponge -/

@[simp] theorem setSponge_x (s : State) (sp : Sponge) : (s.setSponge sp).x = s.x := rfl
@[simp] theorem setSponge_sponge (s : State) (sp : Sponge) : (s.setSponge sp).sponge = sp := rfl
@[simp] theorem setSponge_ctx (s : State) (sp : Sponge) : (s.setSponge sp).ctx = s.ctx := rfl
@[simp] theorem setSponge_ecache (s : State) (sp : Sponge) :
    (s.setSponge sp).ecache = s.ecache := rfl
@[simp] theorem setSponge_status (s : State) (sp : Sponge) :
    (s.setSponge sp).status = s.status := rfl
@[simp] theorem setSponge_errcmd (s : State) (sp : Sponge) :
    (s.setSponge sp).errcmd = s.errcmd := rfl
@[simp] theorem setSponge_erraddr (s : State) (sp : Sponge) :
    (s.setSponge sp).erraddr = s.erraddr := rfl
@[simp] theorem setSponge_cmdlatch (s : State) (sp : Sponge) :
    (s.setSponge sp).cmdlatch = s.cmdlatch := rfl
@[simp] theorem setSponge_mem (s : State) (sp : Sponge) : (s.setSponge sp).mem = s.mem := rfl
@[simp] theorem setSponge_cfg (s : State) (sp : Sponge) : (s.setSponge sp).cfg = s.cfg := rfl
@[simp] theorem setSponge_hostQueue (s : State) (sp : Sponge) :
    (s.setSponge sp).hostQueue = s.hostQueue := rfl
@[simp] theorem setSponge_reply (s : State) (sp : Sponge) : (s.setSponge sp).reply = s.reply := rfl
@[simp] theorem setSponge_draws (s : State) (sp : Sponge) : (s.setSponge sp).draws = s.draws := rfl

/-! ## setCtx -/

@[simp] theorem setCtx_x (s : State) (c : Context) : (s.setCtx c).x = s.x := rfl
@[simp] theorem setCtx_sponge (s : State) (c : Context) : (s.setCtx c).sponge = s.sponge := rfl
@[simp] theorem setCtx_ctx (s : State) (c : Context) : (s.setCtx c).ctx = c := rfl
@[simp] theorem setCtx_ecache (s : State) (c : Context) : (s.setCtx c).ecache = s.ecache := rfl
@[simp] theorem setCtx_status (s : State) (c : Context) : (s.setCtx c).status = s.status := rfl
@[simp] theorem setCtx_errcmd (s : State) (c : Context) : (s.setCtx c).errcmd = s.errcmd := rfl
@[simp] theorem setCtx_erraddr (s : State) (c : Context) : (s.setCtx c).erraddr = s.erraddr := rfl
@[simp] theorem setCtx_cmdlatch (s : State) (c : Context) :
    (s.setCtx c).cmdlatch = s.cmdlatch := rfl
@[simp] theorem setCtx_mem (s : State) (c : Context) : (s.setCtx c).mem = s.mem := rfl
@[simp] theorem setCtx_cfg (s : State) (c : Context) : (s.setCtx c).cfg = s.cfg := rfl
@[simp] theorem setCtx_hostQueue (s : State) (c : Context) :
    (s.setCtx c).hostQueue = s.hostQueue := rfl
@[simp] theorem setCtx_reply (s : State) (c : Context) : (s.setCtx c).reply = s.reply := rfl
@[simp] theorem setCtx_draws (s : State) (c : Context) : (s.setCtx c).draws = s.draws := rfl

/-! ## setEcache -/

@[simp] theorem setEcache_x (s : State) (c : EpochCache) : (s.setEcache c).x = s.x := rfl
@[simp] theorem setEcache_sponge (s : State) (c : EpochCache) :
    (s.setEcache c).sponge = s.sponge := rfl
@[simp] theorem setEcache_ctx (s : State) (c : EpochCache) : (s.setEcache c).ctx = s.ctx := rfl
@[simp] theorem setEcache_ecache (s : State) (c : EpochCache) : (s.setEcache c).ecache = c := rfl
@[simp] theorem setEcache_status (s : State) (c : EpochCache) :
    (s.setEcache c).status = s.status := rfl
@[simp] theorem setEcache_errcmd (s : State) (c : EpochCache) :
    (s.setEcache c).errcmd = s.errcmd := rfl
@[simp] theorem setEcache_erraddr (s : State) (c : EpochCache) :
    (s.setEcache c).erraddr = s.erraddr := rfl
@[simp] theorem setEcache_cmdlatch (s : State) (c : EpochCache) :
    (s.setEcache c).cmdlatch = s.cmdlatch := rfl
@[simp] theorem setEcache_mem (s : State) (c : EpochCache) : (s.setEcache c).mem = s.mem := rfl
@[simp] theorem setEcache_cfg (s : State) (c : EpochCache) : (s.setEcache c).cfg = s.cfg := rfl
@[simp] theorem setEcache_hostQueue (s : State) (c : EpochCache) :
    (s.setEcache c).hostQueue = s.hostQueue := rfl
@[simp] theorem setEcache_reply (s : State) (c : EpochCache) :
    (s.setEcache c).reply = s.reply := rfl
@[simp] theorem setEcache_draws (s : State) (c : EpochCache) :
    (s.setEcache c).draws = s.draws := rfl

/-! ## setNf -/

@[simp] theorem setNf_x (s : State) (b : Bool) : (s.setNf b).x = s.x := rfl
@[simp] theorem setNf_sponge (s : State) (b : Bool) : (s.setNf b).sponge = s.sponge := rfl
@[simp] theorem setNf_ctx (s : State) (b : Bool) : (s.setNf b).ctx = s.ctx := rfl
@[simp] theorem setNf_ecache (s : State) (b : Bool) : (s.setNf b).ecache = s.ecache := rfl
@[simp] theorem setNf_status (s : State) (b : Bool) :
    (s.setNf b).status = { s.status with nf := b } := rfl
@[simp] theorem setNf_errcmd (s : State) (b : Bool) : (s.setNf b).errcmd = s.errcmd := rfl
@[simp] theorem setNf_erraddr (s : State) (b : Bool) : (s.setNf b).erraddr = s.erraddr := rfl
@[simp] theorem setNf_cmdlatch (s : State) (b : Bool) : (s.setNf b).cmdlatch = s.cmdlatch := rfl
@[simp] theorem setNf_mem (s : State) (b : Bool) : (s.setNf b).mem = s.mem := rfl
@[simp] theorem setNf_cfg (s : State) (b : Bool) : (s.setNf b).cfg = s.cfg := rfl
@[simp] theorem setNf_hostQueue (s : State) (b : Bool) : (s.setNf b).hostQueue = s.hostQueue := rfl
@[simp] theorem setNf_reply (s : State) (b : Bool) : (s.setNf b).reply = s.reply := rfl
@[simp] theorem setNf_draws (s : State) (b : Bool) : (s.setNf b).draws = s.draws := rfl

/-! ## memWrite -/

@[simp] theorem memWrite_x (s : State) (a : Nat) (B : List Byte) : (s.memWrite a B).x = s.x := rfl
@[simp] theorem memWrite_sponge (s : State) (a : Nat) (B : List Byte) :
    (s.memWrite a B).sponge = s.sponge := rfl
@[simp] theorem memWrite_ctx (s : State) (a : Nat) (B : List Byte) :
    (s.memWrite a B).ctx = s.ctx := rfl
@[simp] theorem memWrite_ecache (s : State) (a : Nat) (B : List Byte) :
    (s.memWrite a B).ecache = s.ecache := rfl
@[simp] theorem memWrite_status (s : State) (a : Nat) (B : List Byte) :
    (s.memWrite a B).status = s.status := rfl
@[simp] theorem memWrite_errcmd (s : State) (a : Nat) (B : List Byte) :
    (s.memWrite a B).errcmd = s.errcmd := rfl
@[simp] theorem memWrite_erraddr (s : State) (a : Nat) (B : List Byte) :
    (s.memWrite a B).erraddr = s.erraddr := rfl
@[simp] theorem memWrite_cmdlatch (s : State) (a : Nat) (B : List Byte) :
    (s.memWrite a B).cmdlatch = s.cmdlatch := rfl
@[simp] theorem memWrite_mem (s : State) (a : Nat) (B : List Byte) :
    (s.memWrite a B).mem = s.mem.write a B := rfl
@[simp] theorem memWrite_cfg (s : State) (a : Nat) (B : List Byte) :
    (s.memWrite a B).cfg = s.cfg := rfl
@[simp] theorem memWrite_hostQueue (s : State) (a : Nat) (B : List Byte) :
    (s.memWrite a B).hostQueue = s.hostQueue := rfl
@[simp] theorem memWrite_reply (s : State) (a : Nat) (B : List Byte) :
    (s.memWrite a B).reply = s.reply := rfl
@[simp] theorem memWrite_draws (s : State) (a : Nat) (B : List Byte) :
    (s.memWrite a B).draws = s.draws := rfl

/-! ## raise -/

@[simp] theorem raise_x (s : State) (e : ErrCode) (a : Word) : (s.raise e a).x = s.x := rfl
@[simp] theorem raise_sponge (s : State) (e : ErrCode) (a : Word) :
    (s.raise e a).sponge = s.sponge := rfl
@[simp] theorem raise_ctx (s : State) (e : ErrCode) (a : Word) : (s.raise e a).ctx = s.ctx := rfl
@[simp] theorem raise_ecache (s : State) (e : ErrCode) (a : Word) :
    (s.raise e a).ecache = s.ecache := rfl
@[simp] theorem raise_status (s : State) (e : ErrCode) (a : Word) :
    (s.raise e a).status = { s.status with err := true, ecode := e } := rfl
@[simp] theorem raise_errcmd (s : State) (e : ErrCode) (a : Word) :
    (s.raise e a).errcmd = s.cmdlatch.setWidth 64 := rfl
@[simp] theorem raise_erraddr (s : State) (e : ErrCode) (a : Word) :
    (s.raise e a).erraddr = if e = .busFault then a else 0 := rfl
@[simp] theorem raise_cmdlatch (s : State) (e : ErrCode) (a : Word) :
    (s.raise e a).cmdlatch = s.cmdlatch := rfl
@[simp] theorem raise_mem (s : State) (e : ErrCode) (a : Word) : (s.raise e a).mem = s.mem := rfl
@[simp] theorem raise_cfg (s : State) (e : ErrCode) (a : Word) : (s.raise e a).cfg = s.cfg := rfl
@[simp] theorem raise_hostQueue (s : State) (e : ErrCode) (a : Word) :
    (s.raise e a).hostQueue = s.hostQueue := rfl
@[simp] theorem raise_reply (s : State) (e : ErrCode) (a : Word) :
    (s.raise e a).reply = s.reply := rfl
@[simp] theorem raise_draws (s : State) (e : ErrCode) (a : Word) :
    (s.raise e a).draws = s.draws := rfl

/-! ## clearErr -/

@[simp] theorem clearErr_x (s : State) : (s.clearErr).x = s.x := rfl
@[simp] theorem clearErr_sponge (s : State) : (s.clearErr).sponge = s.sponge := rfl
@[simp] theorem clearErr_ctx (s : State) : (s.clearErr).ctx = s.ctx := rfl
@[simp] theorem clearErr_ecache (s : State) : (s.clearErr).ecache = s.ecache := rfl
@[simp] theorem clearErr_status (s : State) :
    (s.clearErr).status = { s.status with err := false, ecode := .none } := rfl
@[simp] theorem clearErr_errcmd (s : State) : (s.clearErr).errcmd = s.errcmd := rfl
@[simp] theorem clearErr_erraddr (s : State) : (s.clearErr).erraddr = s.erraddr := rfl
@[simp] theorem clearErr_cmdlatch (s : State) : (s.clearErr).cmdlatch = s.cmdlatch := rfl
@[simp] theorem clearErr_mem (s : State) : (s.clearErr).mem = s.mem := rfl
@[simp] theorem clearErr_cfg (s : State) : (s.clearErr).cfg = s.cfg := rfl
@[simp] theorem clearErr_hostQueue (s : State) : (s.clearErr).hostQueue = s.hostQueue := rfl
@[simp] theorem clearErr_reply (s : State) : (s.clearErr).reply = s.reply := rfl
@[simp] theorem clearErr_draws (s : State) : (s.clearErr).draws = s.draws := rfl

/-! ## clearOvr -/

@[simp] theorem clearOvr_x (s : State) : (s.clearOvr).x = s.x := rfl
@[simp] theorem clearOvr_sponge (s : State) : (s.clearOvr).sponge = s.sponge := rfl
@[simp] theorem clearOvr_ctx (s : State) : (s.clearOvr).ctx = s.ctx := rfl
@[simp] theorem clearOvr_ecache (s : State) : (s.clearOvr).ecache = s.ecache := rfl
@[simp] theorem clearOvr_status (s : State) :
    (s.clearOvr).status = { s.status with ovr := false } := rfl
@[simp] theorem clearOvr_errcmd (s : State) : (s.clearOvr).errcmd = s.errcmd := rfl
@[simp] theorem clearOvr_erraddr (s : State) : (s.clearOvr).erraddr = s.erraddr := rfl
@[simp] theorem clearOvr_cmdlatch (s : State) : (s.clearOvr).cmdlatch = s.cmdlatch := rfl
@[simp] theorem clearOvr_mem (s : State) : (s.clearOvr).mem = s.mem := rfl
@[simp] theorem clearOvr_cfg (s : State) : (s.clearOvr).cfg = s.cfg := rfl
@[simp] theorem clearOvr_hostQueue (s : State) : (s.clearOvr).hostQueue = s.hostQueue := rfl
@[simp] theorem clearOvr_reply (s : State) : (s.clearOvr).reply = s.reply := rfl
@[simp] theorem clearOvr_draws (s : State) : (s.clearOvr).draws = s.draws := rfl

/-! ## setOvr -/

@[simp] theorem setOvr_x (s : State) : (s.setOvr).x = s.x := rfl
@[simp] theorem setOvr_sponge (s : State) : (s.setOvr).sponge = s.sponge := rfl
@[simp] theorem setOvr_ctx (s : State) : (s.setOvr).ctx = s.ctx := rfl
@[simp] theorem setOvr_ecache (s : State) : (s.setOvr).ecache = s.ecache := rfl
@[simp] theorem setOvr_status (s : State) : (s.setOvr).status = { s.status with ovr := true } := rfl
@[simp] theorem setOvr_errcmd (s : State) : (s.setOvr).errcmd = s.errcmd := rfl
@[simp] theorem setOvr_erraddr (s : State) : (s.setOvr).erraddr = s.erraddr := rfl
@[simp] theorem setOvr_cmdlatch (s : State) : (s.setOvr).cmdlatch = s.cmdlatch := rfl
@[simp] theorem setOvr_mem (s : State) : (s.setOvr).mem = s.mem := rfl
@[simp] theorem setOvr_cfg (s : State) : (s.setOvr).cfg = s.cfg := rfl
@[simp] theorem setOvr_hostQueue (s : State) : (s.setOvr).hostQueue = s.hostQueue := rfl
@[simp] theorem setOvr_reply (s : State) : (s.setOvr).reply = s.reply := rfl
@[simp] theorem setOvr_draws (s : State) : (s.setOvr).draws = s.draws := rfl

/-! ## latch -/

@[simp] theorem latch_x (s : State) (w : Word32) : (s.latch w).x = s.x := rfl
@[simp] theorem latch_sponge (s : State) (w : Word32) : (s.latch w).sponge = s.sponge := rfl
@[simp] theorem latch_ctx (s : State) (w : Word32) : (s.latch w).ctx = s.ctx := rfl
@[simp] theorem latch_ecache (s : State) (w : Word32) : (s.latch w).ecache = s.ecache := rfl
@[simp] theorem latch_status (s : State) (w : Word32) :
    (s.latch w).status = { s.status with busy := true } := rfl
@[simp] theorem latch_errcmd (s : State) (w : Word32) : (s.latch w).errcmd = s.errcmd := rfl
@[simp] theorem latch_erraddr (s : State) (w : Word32) : (s.latch w).erraddr = s.erraddr := rfl
@[simp] theorem latch_cmdlatch (s : State) (w : Word32) : (s.latch w).cmdlatch = w := rfl
@[simp] theorem latch_mem (s : State) (w : Word32) : (s.latch w).mem = s.mem := rfl
@[simp] theorem latch_cfg (s : State) (w : Word32) : (s.latch w).cfg = s.cfg := rfl
@[simp] theorem latch_hostQueue (s : State) (w : Word32) :
    (s.latch w).hostQueue = s.hostQueue := rfl
@[simp] theorem latch_reply (s : State) (w : Word32) : (s.latch w).reply = s.reply := rfl
@[simp] theorem latch_draws (s : State) (w : Word32) : (s.latch w).draws = s.draws := rfl

/-! ## complete -/

@[simp] theorem complete_x (s : State) : (s.complete).x = s.x := rfl
@[simp] theorem complete_sponge (s : State) : (s.complete).sponge = s.sponge := rfl
@[simp] theorem complete_ctx (s : State) : (s.complete).ctx = s.ctx := rfl
@[simp] theorem complete_ecache (s : State) : (s.complete).ecache = s.ecache := rfl
@[simp] theorem complete_status (s : State) :
    (s.complete).status = { s.status with busy := false } := rfl
@[simp] theorem complete_errcmd (s : State) : (s.complete).errcmd = s.errcmd := rfl
@[simp] theorem complete_erraddr (s : State) : (s.complete).erraddr = s.erraddr := rfl
@[simp] theorem complete_cmdlatch (s : State) : (s.complete).cmdlatch = s.cmdlatch := rfl
@[simp] theorem complete_mem (s : State) : (s.complete).mem = s.mem := rfl
@[simp] theorem complete_cfg (s : State) : (s.complete).cfg = s.cfg := rfl
@[simp] theorem complete_hostQueue (s : State) : (s.complete).hostQueue = s.hostQueue := rfl
@[simp] theorem complete_reply (s : State) : (s.complete).reply = s.reply := rfl
@[simp] theorem complete_draws (s : State) : (s.complete).draws = s.draws := rfl

/-! ## setQueue -/

@[simp] theorem setQueue_x (s : State) (q : List HostAction) : (s.setQueue q).x = s.x := rfl
@[simp] theorem setQueue_sponge (s : State) (q : List HostAction) :
    (s.setQueue q).sponge = s.sponge := rfl
@[simp] theorem setQueue_ctx (s : State) (q : List HostAction) : (s.setQueue q).ctx = s.ctx := rfl
@[simp] theorem setQueue_ecache (s : State) (q : List HostAction) :
    (s.setQueue q).ecache = s.ecache := rfl
@[simp] theorem setQueue_status (s : State) (q : List HostAction) :
    (s.setQueue q).status = s.status := rfl
@[simp] theorem setQueue_errcmd (s : State) (q : List HostAction) :
    (s.setQueue q).errcmd = s.errcmd := rfl
@[simp] theorem setQueue_erraddr (s : State) (q : List HostAction) :
    (s.setQueue q).erraddr = s.erraddr := rfl
@[simp] theorem setQueue_cmdlatch (s : State) (q : List HostAction) :
    (s.setQueue q).cmdlatch = s.cmdlatch := rfl
@[simp] theorem setQueue_mem (s : State) (q : List HostAction) : (s.setQueue q).mem = s.mem := rfl
@[simp] theorem setQueue_cfg (s : State) (q : List HostAction) : (s.setQueue q).cfg = s.cfg := rfl
@[simp] theorem setQueue_hostQueue (s : State) (q : List HostAction) :
    (s.setQueue q).hostQueue = q := rfl
@[simp] theorem setQueue_reply (s : State) (q : List HostAction) :
    (s.setQueue q).reply = s.reply := rfl
@[simp] theorem setQueue_draws (s : State) (q : List HostAction) :
    (s.setQueue q).draws = s.draws := rfl

/-! ## setReply -/

@[simp] theorem setReply_x (s : State) (r : Reply) : (s.setReply r).x = s.x := rfl
@[simp] theorem setReply_sponge (s : State) (r : Reply) : (s.setReply r).sponge = s.sponge := rfl
@[simp] theorem setReply_ctx (s : State) (r : Reply) : (s.setReply r).ctx = s.ctx := rfl
@[simp] theorem setReply_ecache (s : State) (r : Reply) : (s.setReply r).ecache = s.ecache := rfl
@[simp] theorem setReply_status (s : State) (r : Reply) : (s.setReply r).status = s.status := rfl
@[simp] theorem setReply_errcmd (s : State) (r : Reply) : (s.setReply r).errcmd = s.errcmd := rfl
@[simp] theorem setReply_erraddr (s : State) (r : Reply) : (s.setReply r).erraddr = s.erraddr := rfl
@[simp] theorem setReply_cmdlatch (s : State) (r : Reply) :
    (s.setReply r).cmdlatch = s.cmdlatch := rfl
@[simp] theorem setReply_mem (s : State) (r : Reply) : (s.setReply r).mem = s.mem := rfl
@[simp] theorem setReply_cfg (s : State) (r : Reply) : (s.setReply r).cfg = s.cfg := rfl
@[simp] theorem setReply_hostQueue (s : State) (r : Reply) :
    (s.setReply r).hostQueue = s.hostQueue := rfl
@[simp] theorem setReply_reply (s : State) (r : Reply) : (s.setReply r).reply = r := rfl
@[simp] theorem setReply_draws (s : State) (r : Reply) : (s.setReply r).draws = s.draws := rfl

/-! ## draw -/

@[simp] theorem draw_x (s : State) : (s.draw).x = s.x := rfl
@[simp] theorem draw_sponge (s : State) : (s.draw).sponge = s.sponge := rfl
@[simp] theorem draw_ctx (s : State) : (s.draw).ctx = s.ctx := rfl
@[simp] theorem draw_ecache (s : State) : (s.draw).ecache = s.ecache := rfl
@[simp] theorem draw_status (s : State) : (s.draw).status = s.status := rfl
@[simp] theorem draw_errcmd (s : State) : (s.draw).errcmd = s.errcmd := rfl
@[simp] theorem draw_erraddr (s : State) : (s.draw).erraddr = s.erraddr := rfl
@[simp] theorem draw_cmdlatch (s : State) : (s.draw).cmdlatch = s.cmdlatch := rfl
@[simp] theorem draw_mem (s : State) : (s.draw).mem = s.mem := rfl
@[simp] theorem draw_cfg (s : State) : (s.draw).cfg = s.cfg := rfl
@[simp] theorem draw_hostQueue (s : State) : (s.draw).hostQueue = s.hostQueue := rfl
@[simp] theorem draw_reply (s : State) : (s.draw).reply = s.reply := rfl
@[simp] theorem draw_draws (s : State) : (s.draw).draws = s.draws + 1 := rfl

end Sys2Proof.Machine.State
end

