-- ==== Sys2Proof/Laws/Ops.lean ====
section
/-!
SUPPORT. Laws of the named operations: registers, valid regions, epoch operands, and memory reads and
writes through the state (Machine/Ops.lean, Machine/Operands.lean).
-/

namespace Sys2Proof.Machine.State

/-! ## General registers -/

/-- The register written reads as the value written (R21). -/
theorem readX_writeX_self (s : State) (r : RegIdx) (v : Word) : (s.writeX r v).readX r = v := by
  simp [readX, elem_set]

/-- Every other register reads as before (R21). -/
theorem readX_writeX_of_ne (s : State) {r q : RegIdx} (v : Word) (h : q ≠ r) :
    (s.writeX r v).readX q = s.readX q := by
  have : r.toNat ≠ q.toNat := fun e => h (BitVec.eq_of_toNat_eq e.symm)
  simp [readX, elem_set, this]

/-- Two states with the same X read alike. -/
theorem readX_congr {s t : State} (h : t.x = s.x) (r : RegIdx) : t.readX r = s.readX r := by
  simp [readX, h]

/-- Two register files that read alike are equal. -/
theorem x_ext {s t : State} (h : ∀ r : RegIdx, t.readX r = s.readX r) : t.x = s.x := by
  apply vector_ext_elem
  intro i hi
  have := h (BitVec.ofNat 4 i)
  simpa [readX, Nat.mod_eq_of_lt hi] using this

/-! ## Regions -/

/-- R51, as a proposition. -/
theorem valid_iff (s : State) (a n : Nat) :
    s.valid a n = true ↔ n = 0 ∨ a + n ≤ s.cfg.memBytes := by
  simp [valid]

theorem valid_of_le (s : State) {a n : Nat} (h : a + n ≤ s.cfg.memBytes) : s.valid a n = true :=
  (s.valid_iff a n).2 (.inr h)

theorem valid_false_iff (s : State) (a n : Nat) :
    s.valid a n = false ↔ n ≠ 0 ∧ s.cfg.memBytes < a + n := by
  rw [← Bool.not_eq_true, valid_iff]; omega

theorem not_valid_of_lt (s : State) {a n : Nat} (hn : n ≠ 0) (h : s.cfg.memBytes < a + n) :
    s.valid a n = false :=
  (s.valid_false_iff a n).2 ⟨hn, h⟩

/-! ## Epoch operands -/

/-- R141, as a proposition. -/
theorem validEpochOp_iff (s : State) (r : RegIdx) :
    s.validEpochOp r = true ↔ 0 ≤ (s.readX r).toInt ∧ (s.readX r).toInt ≤ 2 ^ 31 - 1 := by
  rw [validEpochOp, Bool.and_eq_true, decide_eq_true_iff, decide_eq_true_iff]
  exact Iff.rfl

theorem validEpochOp_false_iff (s : State) (r : RegIdx) :
    s.validEpochOp r = false ↔ (s.readX r).toInt < 0 ∨ 2 ^ 31 - 1 < (s.readX r).toInt := by
  rw [← Bool.not_eq_true, validEpochOp_iff]; omega

/-- A valid epoch is the same number read signed or unsigned. -/
theorem epochOp_eq_toNat (s : State) (r : RegIdx) (h : 0 ≤ (s.readX r).toInt) :
    s.epochOp r = (s.readX r).toNat := by
  have hlt := (s.readX r).isLt
  unfold epochOp sintOp
  rw [BitVec.toInt_eq_toNat_cond] at h ⊢
  split at h <;> rename_i hc
  · simp [hc]
  · omega

theorem epochOp_lt (s : State) (r : RegIdx) (h : s.validEpochOp r = true) : s.epochOp r < 2 ^ 31 := by
  have h' := (s.validEpochOp_iff r).1 h
  have hd : s.epochOp r = (s.readX r).toInt.toNat := rfl
  omega

/-! ## Memory through the state -/

/-- A vector written to its region reads back byte for byte, and every byte outside stays (R53). -/
theorem memWrite_mem_read {n : Nat} (s : State) (a : Nat) (B : Bytes n) :
    (∀ k < n, (s.memWrite a B.toList).mem.read (a + k) = elem B k) ∧
    ∀ b, b < a ∨ a + n ≤ b → (s.memWrite a B.toList).mem.read b = s.mem.read b := by
  refine ⟨fun k hk => Memory.read_write_vector _ _ _ hk, fun b hb => ?_⟩
  exact Memory.read_write_of_outside _ _ _ (by simpa using hb)

/-- The list a region reads as. -/
theorem memRead_toList (s : State) (a n : Nat) :
    (s.memRead a n).toList = (List.range n).map fun k => s.mem.read (a + k) := by
  apply List.ext_getElem
  · simp
  · intro i h1 h2
    simp [memRead, Memory.readBytes]

/-- Error entry, field by field, for an error that is not BUS_FAULT (R203). -/
theorem raise_of_ne_busFault (s : State) {e : ErrCode} (a : Word) (h : e ≠ .busFault) :
    (s.raise e a).erraddr = 0 := by
  simp [raise, h]

end Sys2Proof.Machine.State
end

