-- ==== Sys2Proof/Laws/Cache.lean ====
section
/-!
SUPPORT. Laws of the light cache as items in MEM: reading an item after writing one, and what a build
leaves alone (Machine/Cache.lean, Machine/Dataset.lean).
-/

namespace Sys2Proof.Machine

/-- Nat.repeat, one pass more. -/
theorem repeat_succ {α : Type} (f : α → α) (n : Nat) (a : α) :
    Nat.repeat f (n + 1) a = f (Nat.repeat f n a) := rfl

namespace Context

/-- A read of an item is its 64 bytes (R171). -/
theorem elem_item (c : Context) (m : Memory) (i : Nat) {k : Nat} (h : k < 64) :
    elem (c.item m i) k = m.read (c.itemAddr i + k) :=
  Memory.elem_readBytes m _ h

/-- Item `i` is the 64 bytes at `LCBASE + 64·i` (R26, R171). -/
theorem item_eq (c : Context) (m : Memory) (i : Nat) :
    c.item m i = m.readBytes (c.lcbase.toNat + 64 * i) 64 := rfl

/-- A write of item `i` is a write at `LCBASE + 64·i` (R26, R171). -/
theorem putItem_eq (c : Context) (m : Memory) (i : Nat) (v : Bytes 64) :
    c.putItem m i v = m.write (c.lcbase.toNat + 64 * i) v.toList := rfl

/-- The bytewise XOR of two items, byte by byte from MEM (R10, R171). -/
theorem xorBytes_item_toList (c : Context) (m : Memory) (v w : Nat) :
    (xorBytes (c.item m v) (c.item m w)).toList =
      (List.range 64).map fun k =>
        m.read (c.lcbase.toNat + 64 * v + k) ^^^ m.read (c.lcbase.toNat + 64 * w + k) := by
  apply List.ext_getElem
  · simp
  · intro k hk _
    have hk' : k < 64 := by simpa using hk
    simp [xorBytes, item_eq, Memory.elem_readBytes _ _ hk']

/-- Items whose bytes are equal are equal, in whatever memory and context. -/
theorem item_congr {c c' : Context} {m m' : Memory} {i : Nat}
    (h : ∀ k < 64, m.read (c.itemAddr i + k) = m'.read (c'.itemAddr i + k)) :
    c.item m i = c'.item m' i := by
  apply vector_ext_elem
  intro k hk
  rw [elem_item _ _ _ hk, elem_item _ _ _ hk, h k hk]

/-- A write of an item: the bytes of that item are the new ones, every other byte stays (R171). -/
theorem putItem_read (c : Context) (m : Memory) (i : Nat) (v : Bytes 64) (b : Nat) :
    (c.putItem m i v).read b =
      if c.itemAddr i ≤ b ∧ b < c.itemAddr i + 64 then elem v (b - c.itemAddr i) else m.read b := by
  unfold putItem
  rw [Memory.read_write]
  simp [elem]

theorem item_putItem_self (c : Context) (m : Memory) (i : Nat) (v : Bytes 64) :
    c.item (c.putItem m i v) i = v := by
  apply vector_ext_elem
  intro k hk
  rw [elem_item _ _ _ hk, putItem_read, if_pos (by omega)]
  congr 1; omega

theorem item_putItem_of_ne (c : Context) (m : Memory) {i j : Nat} (v : Bytes 64) (h : j ≠ i) :
    c.item (c.putItem m i v) j = c.item m j := by
  apply vector_ext_elem
  intro k hk
  rw [elem_item _ _ _ hk, elem_item _ _ _ hk, putItem_read, if_neg]
  unfold itemAddr; omega

/-- A write of item `i < n` leaves every byte outside the region of `n` items. -/
theorem putItem_read_of_outside (c : Context) (m : Memory) {i n : Nat} (v : Bytes 64) (hi : i < n)
    {b : Nat} (hb : b < c.lcbase.toNat ∨ c.lcbase.toNat + 64 * n ≤ b) :
    (c.putItem m i v).read b = m.read b := by
  rw [putItem_read, if_neg]
  unfold itemAddr; omega

theorem putItem_wf {m : Memory} (h : m.wf) (c : Context) (i : Nat) (v : Bytes 64) :
    (c.putItem m i v).wf :=
  Memory.write_wf h _ _

theorem putItem_within {m : Memory} {bytes : Nat} (h : m.within bytes) (c : Context) {i n : Nat}
    (v : Bytes 64) (hi : i < n) (hn : c.lcbase.toNat + 64 * n ≤ bytes) :
    (c.putItem m i v).within bytes := by
  refine Memory.write_within h _ _ (.inr ?_)
  simp only [Vector.length_toList, itemAddr]; omega

/-- The build is the chain stage and three passes (R171). -/
theorem buildLightCache_eq (c : Context) (seed : Bytes 32) (m : Memory) :
    c.buildLightCache seed m =
      c.smoothPass c.lccount.toNat (c.smoothPass c.lccount.toNat
        (c.smoothPass c.lccount.toNat (c.chain c.lccount.toNat seed m))) := rfl

/-- Whatever property of memory every item write below `n` keeps, the whole build keeps. -/
theorem buildLightCache_induct (c : Context) (seed : Bytes 32) (m : Memory) (P : Memory → Prop)
    (h0 : P m) (hn : c.lccount.toNat ≠ 0)
    (hput : ∀ m i v, i < c.lccount.toNat → P m → P (c.putItem m i v)) :
    P (c.buildLightCache seed m) := by
  have hfold : ∀ (l : List Nat) (f : Memory → Nat → Memory) (m : Memory), P m →
      (∀ i ∈ l, ∀ m, P m → P (f m i)) → P (l.foldl f m) := by
    intro l
    induction l with
    | nil => intro f m h _; exact h
    | cons i l ih =>
      intro f m h hf
      exact ih f _ (hf i (by simp) _ h) fun j hj => hf j (by simp [hj])
  have hchain : P (c.chain c.lccount.toNat seed m) := by
    refine hfold _ _ _ (hput _ _ _ (by omega) h0) fun i hi m hm => hput _ _ _ ?_ hm
    have := List.mem_range.1 hi; omega
  have hpass : ∀ m, P m → P (c.smoothPass c.lccount.toNat m) := fun m hm =>
    hfold _ _ _ hm fun i hi m hm => hput _ _ _ (List.mem_range.1 hi) hm
  have hrep : ∀ k, P (Nat.repeat (c.smoothPass c.lccount.toNat) k
      (c.chain c.lccount.toNat seed m)) := by
    intro k
    induction k with
    | zero => exact hchain
    | succ k ih => exact hpass _ ih
  exact hrep cacheRounds

/-- A build keeps the canonical form. -/
theorem buildLightCache_wf (c : Context) (seed : Bytes 32) {m : Memory} (h : m.wf)
    (hn : c.lccount.toNat ≠ 0) : (c.buildLightCache seed m).wf :=
  c.buildLightCache_induct seed m Memory.wf h hn fun _ i v _ hm => putItem_wf hm c i v

theorem buildLightCache_within (c : Context) (seed : Bytes 32) {m : Memory} {bytes : Nat}
    (h : m.within bytes) (hn : c.lccount.toNat ≠ 0)
    (hin : c.lcbase.toNat + 64 * c.lccount.toNat ≤ bytes) :
    (c.buildLightCache seed m).within bytes :=
  c.buildLightCache_induct seed m (fun m => m.within bytes) h hn fun _ _ v hi hm =>
    putItem_within hm c v hi hin

/-- A build leaves every byte outside the light-cache region (R171). -/
theorem buildLightCache_read_of_outside (c : Context) (seed : Bytes 32) (m : Memory)
    (hn : c.lccount.toNat ≠ 0) {b : Nat}
    (hb : b < c.lcbase.toNat ∨ c.lcbase.toNat + 64 * c.lccount.toNat ≤ b) :
    (c.buildLightCache seed m).read b = m.read b :=
  c.buildLightCache_induct seed m (fun m' => m'.read b = m.read b) rfl hn fun _ _ v hi hm =>
    (c.putItem_read_of_outside _ v hi hb).trans hm

end Context

/-! ## A fold over `range` as a sequence -/

/-- A loop over the indices below `n` is a sequence of `n` states. -/
theorem foldl_range_succ {α : Type} (f : α → Nat → α) (a : α) (n : Nat) :
    (List.range (n + 1)).foldl f a = f ((List.range n).foldl f a) n := by
  simp [List.range_succ]

/-! ## Dataset items -/

/-- One mixing round depends on the light-cache items alone (R180, R186). -/
theorem mixRound_congr {c c' : Context} {m m' : Memory} (hc : c.lccount = c'.lccount)
    (hn : c.lccount.toNat ≠ 0) (h : ∀ i < c.lccount.toNat, c.item m i = c'.item m' i)
    (sd : Word32) (mix : Bytes 64) (r : Nat) : mixRound c m sd mix r = mixRound c' m' sd mix r := by
  unfold mixRound
  dsimp only
  rw [← hc, h _ (Nat.mod_lt _ (Nat.pos_of_ne_zero hn))]

end Sys2Proof.Machine
end

