-- ==== Sys2Proof/Laws/Decode.lean ====
section
/-!
SUPPORT. Laws of the field layout: each field of an assembled word is the field put there (Decode.lean,
30_encoding.md R70), and a word is the assembly of its fields when FN is 0.
-/

namespace Sys2Proof

/-- A field of the high part of a concatenation. -/
theorem extract_high {m n : Nat} (hi : BitVec m) (lo : BitVec n) (k len : Nat) :
    (hi ++ lo).extractLsb' (n + k) len = hi.extractLsb' k len := by
  apply BitVec.eq_of_getLsbD_eq
  intro i _
  have h1 : ¬ n + k + i < n := by omega
  have h2 : n + k + i - n = k + i := by omega
  simp [BitVec.getLsbD_extractLsb', BitVec.getLsbD_append, h1, h2]

/-- The low part of a concatenation. -/
theorem extract_low {m n : Nat} (hi : BitVec m) (lo : BitVec n) :
    (hi ++ lo).extractLsb' 0 n = lo := by
  apply BitVec.eq_of_getLsbD_eq
  intro i h
  simp [BitVec.getLsbD_append, h]

variable (op : BitVec 8) (rd ra rb rc : RegIdx)

theorem opField_assemble : opField (assemble op rd ra rb rc) = op := extract_low _ op

theorem rdField_assemble : rdField (assemble op rd ra rb rc) = rd :=
  (extract_high (n := 8) _ op 0 4).trans (extract_low _ rd)

theorem raField_assemble : raField (assemble op rd ra rb rc) = ra :=
  (extract_high (n := 8) _ op 4 4).trans <| (extract_high (n := 4) _ rd 0 4).trans (extract_low _ ra)

theorem rbField_assemble : rbField (assemble op rd ra rb rc) = rb :=
  (extract_high (n := 8) _ op 8 4).trans <| (extract_high (n := 4) _ rd 4 4).trans <|
    (extract_high (n := 4) _ ra 0 4).trans (extract_low _ rb)

theorem rcField_assemble : rcField (assemble op rd ra rb rc) = rc :=
  (extract_high (n := 8) _ op 12 4).trans <| (extract_high (n := 4) _ rd 8 4).trans <|
    (extract_high (n := 4) _ ra 4 4).trans <| (extract_high (n := 4) _ rb 0 4).trans (extract_low _ rc)

/-- Bit by bit: a field extracted from a word. -/
theorem getLsbD_field (w : Word32) (k len i : Nat) (h : i < len) :
    (w.extractLsb' k len).getLsbD i = w.getLsbD (k + i) := by
  simp [h]

theorem extract_whole32 (w : Word32) : w.extractLsb' 0 32 = w := by
  apply BitVec.eq_of_getLsbD_eq
  intro i hi
  simp [hi]

theorem extract_whole8 (b : BitVec 8) : b.extractLsb' 0 8 = b := by
  apply BitVec.eq_of_getLsbD_eq
  intro i hi
  simp [hi]

/-- A word whose FN is 0 is the assembly of its other fields (R70). -/
theorem assemble_fields (w : Word32) (hfn : w.extractLsb' 24 8 = 0) :
    assemble (opField w) (rdField w) (raField w) (rbField w) (rcField w) = w := by
  have join : ∀ {N : Nat} (v : BitVec N) (k m n : Nat),
      v.extractLsb' (k + n) m ++ v.extractLsb' k n = v.extractLsb' k (m + n) := by
    intro N v k m n
    apply BitVec.eq_of_getLsbD_eq
    intro i hi
    rw [BitVec.getLsbD_append]
    split
    · rename_i h
      have h3 : i < m + n := hi
      simp [h, h3]
    · rename_i h
      have h1 : i - n < m := by omega
      have h2 : k + n + (i - n) = k + i := by omega
      simp [h1, h2, hi]
  have h0 : (0#8 : BitVec 8) = w.extractLsb' 24 8 := hfn.symm
  have h1 := join w 20 8 4
  have h2 := join w 16 12 4
  have h3 := join w 12 16 4
  have h4 := join w 8 20 4
  have h5 := join w 0 24 8
  unfold assemble opField rdField raField rbField rcField
  rw [h0]
  refine Eq.trans ?_ (extract_whole32 w)
  refine Eq.trans ?_ h5
  rw [← h4, ← h3, ← h2, ← h1]

/-- A field that the mask keeps is the pattern's (R73). -/
theorem field_of_mask {w m p : Word32} (h : w &&& m = p) (k len : Nat)
    (hm : m.extractLsb' k len = BitVec.allOnes len) : w.extractLsb' k len = p.extractLsb' k len := by
  rw [← h, BitVec.extractLsb'_and, hm, BitVec.and_allOnes]

/-- A decoded word comes from one row of the table: its OP is the row's, and the row's mask leaves the
row's pattern (R73). -/
theorem decode_row {w : Word32} {i : Instr} (h : decode w = .ok i) :
    ∃ r ∈ opcodeTable, r.op = opField w ∧ w &&& formatMask r.fmt = r.pattern ∧
      i = r.build (rdField w) (raField w) (rbField w) (rcField w) := by
  unfold decode at h
  split at h
  · simp at h
  · rename_i r hr
    split at h
    · rename_i hm
      exact ⟨r, List.mem_of_find?_eq_some hr, by simpa using List.find?_some hr, hm,
        by simpa using h.symm⟩
    · simp at h

end Sys2Proof
end

