-- ==== Sys2Proof/Laws/Epoch.lean ====
section
/-!
SUPPORT. Laws of the epoch seeds and of the reverse lookup's scan (Machine/Epoch.lean).
-/

namespace Sys2Proof.Machine

@[simp] theorem epochSeed_zero : epochSeed 0 = zeros 32 := rfl

/-- The hash chain, one step (R140). -/
theorem epochSeed_succ (e : Nat) : epochSeed (e + 1) = seedNext (epochSeed e) := rfl

/-- The scan answers with the first epoch from `i` on, within its passes, that has the seed (R143). -/
theorem scanSeeds_some {q : Bytes 32} {fuel i e : Nat} {seed : Bytes 32}
    (h : scanSeeds q fuel i (epochSeed i) = some (e, seed)) :
    i ≤ e ∧ e < i + fuel ∧ seed = q ∧ epochSeed e = q ∧ ∀ j, i ≤ j → j < e → epochSeed j ≠ q := by
  induction fuel generalizing i with
  | zero => simp [scanSeeds] at h
  | succ fuel ih =>
    rw [scanSeeds] at h
    split at h
    · rename_i hq
      simp only [Option.some.injEq, Prod.mk.injEq] at h
      obtain ⟨rfl, rfl⟩ := h
      exact ⟨le_rfl, by omega, hq.symm, hq.symm, fun j h1 h2 => by omega⟩
    · rename_i hq
      rw [← epochSeed_succ] at h
      obtain ⟨h1, h2, h3, h4, h5⟩ := ih h
      refine ⟨by omega, by omega, h3, h4, fun j hj hje => ?_⟩
      by_cases hji : j = i
      · subst hji; exact fun e => hq e.symm
      · exact h5 j (by omega) hje

/-- The scan finds nothing exactly when none of its epochs has the seed (R143). -/
theorem scanSeeds_none {q : Bytes 32} {fuel i : Nat} :
    scanSeeds q fuel i (epochSeed i) = none ↔ ∀ j, i ≤ j → j < i + fuel → epochSeed j ≠ q := by
  induction fuel generalizing i with
  | zero => simp only [scanSeeds, true_iff]; intro j h1 h2; omega
  | succ fuel ih =>
    rw [scanSeeds]
    split
    · rename_i hq
      simp only [false_iff, reduceCtorEq]
      exact fun h => h i le_rfl (by omega) hq.symm
    · rename_i hq
      rw [← epochSeed_succ, ih]
      constructor
      · intro h j h1 h2
        by_cases hji : j = i
        · subst hji; exact fun e => hq e.symm
        · exact h j (by omega) (by omega)
      · exact fun h j h1 h2 => h j (by omega) (by omega)

/-- The effective epoch is no larger than the epoch (R146). -/
theorem effectiveEpoch_le (e : Nat) : effectiveEpoch e ≤ e := by
  unfold effectiveEpoch; split <;> omega

/-! ## The lookup and ENUM, case by case (R143, R144) -/

theorem epochLookup_cached (c : EpochCache) : epochLookup c c.ecseed = (some c.ecepoch, c) := by
  rw [epochLookup]; simp

theorem epochLookup_next {c : EpochCache} {q : Bytes 32} (h : q ≠ c.ecseed)
    (hn : q = seedNext c.ecseed) :
    epochLookup c q = (some (c.ecepoch + 1), { ecepoch := c.ecepoch + 1, ecseed := q }) := by
  rw [epochLookup]
  rw [if_neg h, if_pos hn, ← hn]

theorem epochLookup_scan {c : EpochCache} {q : Bytes 32} (h : q ≠ c.ecseed) (hn : q ≠ seedNext c.ecseed)
    {i : Nat} (hi : i < enumLimit) (hq : epochSeed i = q) (hmin : ∀ j < i, epochSeed j ≠ q) :
    epochLookup c q = (some (BitVec.ofNat 64 i), { ecepoch := BitVec.ofNat 64 i, ecseed := q }) := by
  rw [epochLookup]
  rw [if_neg h, if_neg hn, ← epochSeed_zero]
  split
  · rename_i e seed hs
    obtain ⟨_, _, h3, h4, h5⟩ := scanSeeds_some hs
    have : e = i := by
      rcases Nat.lt_trichotomy e i with hl | he | hl
      · exact absurd h4 (hmin e hl)
      · exact he
      · exact absurd hq (h5 i (by omega) hl)
    rw [this, h3]
  · rename_i hs
    exact absurd hq (scanSeeds_none.1 hs i (by omega) (by omega))

theorem epochLookup_notFound {c : EpochCache} {q : Bytes 32} (h : q ≠ c.ecseed)
    (hn : q ≠ seedNext c.ecseed) (hno : ∀ i < enumLimit, epochSeed i ≠ q) :
    epochLookup c q = (none, c) := by
  rw [epochLookup]
  rw [if_neg h, if_neg hn, ← epochSeed_zero, scanSeeds_none.2 fun j _ hj => hno j (by omega)]

/-- One of the four cases holds of every lookup (R143). -/
theorem epochLookup_cases (c : EpochCache) (q : Bytes 32) :
    (q = c.ecseed) ∨ (q ≠ c.ecseed ∧ q = seedNext c.ecseed) ∨
    (q ≠ c.ecseed ∧ q ≠ seedNext c.ecseed ∧
      ∃ i < enumLimit, epochSeed i = q ∧ ∀ j < i, epochSeed j ≠ q) ∨
    (q ≠ c.ecseed ∧ q ≠ seedNext c.ecseed ∧ ∀ i < enumLimit, epochSeed i ≠ q) := by
  by_cases h1 : q = c.ecseed
  · exact .inl h1
  by_cases h2 : q = seedNext c.ecseed
  · exact .inr (.inl ⟨h1, h2⟩)
  by_cases h3 : ∃ i, i < enumLimit ∧ epochSeed i = q
  · classical
    obtain ⟨hi, hq⟩ := Nat.find_spec h3
    exact .inr (.inr (.inl ⟨h1, h2, Nat.find h3, hi, hq, fun j hj hjq =>
      Nat.find_min h3 hj ⟨by omega, hjq⟩⟩))
  · exact .inr (.inr (.inr ⟨h1, h2, fun i hi hiq => h3 ⟨i, hi, hiq⟩⟩))

theorem execEnum_bus {rd ra : RegIdx} {s : State} (hv : s.valid (s.unsignedOp ra) 32 = false) :
    execEnum rd ra s = .next (s.raise .busFault (s.readX ra)) := by
  rw [execEnum, if_pos (by rw [hv]; rfl)]

theorem execEnum_found {rd ra : RegIdx} {s : State} {r : Word} {c : EpochCache}
    (hv : s.valid (s.unsignedOp ra) 32 = true)
    (hl : epochLookup s.ecache (s.memRead (s.unsignedOp ra) 32) = (some r, c)) :
    execEnum rd ra s = .next (((s.setEcache c).writeX rd r).setNf false) := by
  rw [execEnum]
  rw [hv, hl]
  simp

theorem execEnum_notFound {rd ra : RegIdx} {s : State} {c : EpochCache}
    (hv : s.valid (s.unsignedOp ra) 32 = true)
    (hl : epochLookup s.ecache (s.memRead (s.unsignedOp ra) 32) = (none, c)) :
    execEnum rd ra s = .next ((s.setEcache c).setNf true) := by
  rw [execEnum]
  rw [hv, hl]
  simp

end Sys2Proof.Machine
end

