-- ==== Sys2Proof/Laws/Size.lean ====
section
/-!
SUPPORT. Laws of the prime search: the trial divisions decide primality, and the descending loop stops at
the first odd prime (Machine/Size.lean). The bounds on the loops' passes are never reached (log 16).
-/

namespace Sys2Proof.Machine

/-- The trial divisions from an odd divisor `d`, with enough passes left, say whether some odd divisor of
`n` from `d` on has a square at most `n` (R160). -/
theorem noDivisorFrom_iff (n : Nat) {fuel d : Nat} (hd : d % 2 = 1) (h3 : 3 ≤ d) (hf : n ≤ d + fuel) :
    noDivisorFrom n fuel d = true ↔
      ∀ k, k % 2 = 1 → d ≤ k → k * k ≤ n → n % k ≠ 0 := by
  induction fuel generalizing d with
  | zero =>
    simp only [noDivisorFrom, true_iff]
    intro k _ hdk hkk _
    have : 3 * k ≤ k * k := Nat.mul_le_mul_right k (by omega)
    omega
  | succ fuel ih =>
    rw [noDivisorFrom]
    split
    · split
      · rename_i h1 h2
        simp only [false_iff, reduceCtorEq]
        exact fun h => h d hd le_rfl h1 h2
      · rename_i h1 h2
        rw [ih (by omega) (by omega) (by omega)]
        constructor
        · intro h k hk hdk hkk
          by_cases e : k = d
          · subst e; exact h2
          · exact h k hk (by omega) hkk
        · exact fun h k hk hdk hkk => h k hk (by omega) hkk
    · rename_i h1
      simp only [true_iff]
      intro k _ hdk hkk
      have : d * d ≤ k * k := Nat.mul_le_mul hdk hdk
      omega

/-- `OddPrime` decides primality of the odd numbers from 3 on (R160). -/
theorem oddPrime_iff {n : Nat} (h3 : 3 ≤ n) (hodd : n % 2 = 1) : oddPrime n = true ↔ n.Prime := by
  unfold oddPrime
  rw [noDivisorFrom_iff n (by decide) le_rfl (by omega)]
  constructor
  · intro h
    rw [Nat.prime_def_minFac]
    refine ⟨by omega, ?_⟩
    by_contra hne
    have hmp : n.minFac.Prime := Nat.minFac_prime (by omega)
    have hdvd := Nat.minFac_dvd n
    have hlt : n.minFac < n := lt_of_le_of_ne (Nat.minFac_le (by omega)) hne
    have hsq : n.minFac * n.minFac ≤ n := by
      have hnp : ¬ n.Prime := fun hp => hne hp.minFac_eq
      have := Nat.minFac_sq_le_self (by omega) hnp
      rwa [pow_two] at this
    have hmod : n.minFac % 2 = 1 := by
      rcases hmp.eq_two_or_odd with h2 | h2
      · rw [h2] at hdvd; omega
      · exact h2
    have hge : 3 ≤ n.minFac := by have := hmp.two_le; omega
    exact h _ hmod hge hsq (Nat.mod_eq_zero_of_dvd hdvd)
  · intro hp k hk hk3 hkk hmod
    have hdvd := Nat.dvd_of_mod_eq_zero hmod
    rcases (Nat.dvd_prime hp).1 hdvd with h1 | h1
    · omega
    · subst h1
      have : 3 * k ≤ k * k := Nat.mul_le_mul_right k hk3
      omega

/-- The descending loop from an odd candidate stops at the largest odd prime at most it (R160). -/
theorem firstPrimeDown_spec {fuel n : Nat} (h3 : 3 ≤ n) (hodd : n % 2 = 1) (hf : n ≤ 2 * fuel + 1) :
    (firstPrimeDown fuel n).Prime ∧ firstPrimeDown fuel n ≤ n ∧ 3 ≤ firstPrimeDown fuel n ∧
      ∀ p, p.Prime → p ≤ n → p ≤ firstPrimeDown fuel n := by
  induction fuel generalizing n with
  | zero => omega
  | succ fuel ih =>
    rw [firstPrimeDown]
    split
    · rename_i hp
      exact ⟨(oddPrime_iff h3 hodd).1 hp, le_rfl, h3, fun p _ h => h⟩
    · rename_i hp
      have hnp : ¬ n.Prime := fun h => hp ((oddPrime_iff h3 hodd).2 h)
      have hn5 : 5 ≤ n := by
        by_contra hlt
        have : n = 3 := by omega
        subst this
        exact hnp Nat.prime_three
      obtain ⟨h1, h2, h3', h4⟩ := ih (n := n - 2) (by omega) (by omega) (by omega)
      refine ⟨h1, by omega, h3', fun p hpp hpn => ?_⟩
      by_cases hle : p ≤ n - 2
      · exact h4 p hpp hle
      · have hne : p ≠ n := fun e => hnp (e ▸ hpp)
        have he : p = n - 1 := by omega
        rcases hpp.eq_two_or_odd with h2 | h2 <;> omega

/-- Below 2 there is no prime (R160). -/
theorem largestPrimeAtMost_of_lt {b : Int} (h : b < 2) : largestPrimeAtMost b = 0 := by
  simp [largestPrimeAtMost, h]

/-- From 2 on, `LargestPrimeAtMost(b)` is the largest prime at most `b` (R160). -/
theorem largestPrimeAtMost_spec {b : Nat} (h : 2 ≤ b) :
    (largestPrimeAtMost b).Prime ∧ largestPrimeAtMost b ≤ b ∧
      ∀ p, p.Prime → p ≤ b → p ≤ largestPrimeAtMost b := by
  unfold largestPrimeAtMost
  rw [if_neg (by omega)]
  split
  · rename_i h2
    have : b = 2 := by omega
    subst this
    exact ⟨Nat.prime_two, le_rfl, fun p _ hp => hp⟩
  · rename_i h2
    have h2 : b ≠ 2 := fun e => h2 (by omega)
    dsimp only
    rw [Int.toNat_natCast]
    split
    · obtain ⟨h1, h2, _, h4⟩ := firstPrimeDown_spec (fuel := b) (n := b) (by omega) (by omega) (by omega)
      exact ⟨h1, h2, h4⟩
    · rename_i heven
      obtain ⟨h1, h2', _, h4⟩ :=
        firstPrimeDown_spec (fuel := b) (n := b - 1) (by omega) (by omega) (by omega)
      refine ⟨h1, by omega, fun p hp hle => h4 p hp ?_⟩
      have : p ≠ b := by
        rintro rfl
        rcases hp.eq_two_or_odd with h | h <;> omega
      omega

/-- A result that fits 64 bits, since the bound does (R162). -/
theorem largestPrimeAtMost_le {b : Nat} : largestPrimeAtMost b ≤ b := by
  by_cases h : 2 ≤ b
  · exact (largestPrimeAtMost_spec h).2.1
  · rw [largestPrimeAtMost_of_lt (by omega)]; omega

end Sys2Proof.Machine
end

