-- ==== Sys2Proof/Laws/Sponge.lean ====
section
/-!
SUPPORT. Laws of the permutation's lane layout and of the sponge's absorb loop (Machine/Permutation.lean,
Machine/SpongeOps.lean).
-/

namespace Sys2Proof.Machine

/-! ## Lanes -/

/-- The lane at column x, row y of the lanes laid out from `f` (R24, R100). -/
theorem lane_lanesOf (f : Nat → Nat → Word) (x y : Nat) :
    lane (lanesOf f) x y = f (x % 5) (y % 5) := by
  unfold lane
  have hx : x % 5 < 5 := Nat.mod_lt _ (by decide)
  have hy : y % 5 < 5 := Nat.mod_lt _ (by decide)
  generalize x % 5 = a at *
  generalize y % 5 = b at *
  obtain rfl | rfl | rfl | rfl | rfl : a = 0 ∨ a = 1 ∨ a = 2 ∨ a = 3 ∨ a = 4 := by omega
  all_goals
    obtain rfl | rfl | rfl | rfl | rfl : b = 0 ∨ b = 1 ∨ b = 2 ∨ b = 3 ∨ b = 4 := by omega
    all_goals rfl

theorem lane_mod (A : Lanes) (x y : Nat) : lane A (x % 5) (y % 5) = lane A x y := by
  simp [lane]

/-- theta, lane by lane (R100). -/
theorem lane_theta (A : Lanes) {x y : Nat} (hx : x < 5) (hy : y < 5) :
    lane (theta A) x y = lane A x y ^^^
      (columnParity A ((x + 4) % 5) ^^^ (columnParity A ((x + 1) % 5)).rotateLeft 1) := by
  have hC : ∀ i < 5, elem (#v[columnParity A 0, columnParity A 1, columnParity A 2, columnParity A 3,
      columnParity A 4] : Vector Word 5) i = columnParity A i := by
    intro i hi
    obtain rfl | rfl | rfl | rfl | rfl : i = 0 ∨ i = 1 ∨ i = 2 ∨ i = 3 ∨ i = 4 := by omega
    all_goals rfl
  unfold theta
  rw [lane_lanesOf, hC _ (by omega), hC _ (by omega), Nat.mod_eq_of_lt hx, Nat.mod_eq_of_lt hy]
  rfl

/-- rho and pi, lane by lane, at the lane they move (R100). -/
theorem lane_rhoPi (A : Lanes) {x y : Nat} (hx : x < 5) (hy : y < 5) :
    lane (rhoPi A) y ((2 * x + 3 * y) % 5) = (lane A x y).rotateLeft (rot x y) := by
  unfold rhoPi
  rw [lane_lanesOf]
  have h1 : y % 5 = y := Nat.mod_eq_of_lt hy
  have h2 : (y + 3 * ((2 * x + 3 * y) % 5)) % 5 = x := by omega
  rw [h1, Nat.mod_mod]
  unfold rol64
  have hl : lane A (y + 3 * ((2 * x + 3 * y) % 5)) y = lane A x y := by
    simp only [lane, h2, Nat.mod_eq_of_lt hx]
  have hr : rot (y + 3 * ((2 * x + 3 * y) % 5)) y = rot x y := by
    simp only [rot, h2, Nat.mod_eq_of_lt hx]
  rw [hl, hr]

/-- chi, lane by lane (R100). -/
theorem lane_chi (B : Lanes) {x y : Nat} (hx : x < 5) (hy : y < 5) :
    lane (chi B) x y =
      lane B x y ^^^ (~~~ lane B ((x + 1) % 5) y &&& lane B ((x + 2) % 5) y) := by
  unfold chi
  rw [lane_lanesOf, Nat.mod_eq_of_lt hx, Nat.mod_eq_of_lt hy]
  simp [lane]

/-- iota, lane by lane: only lane (0, 0) changes (R100). -/
theorem lane_iota (A : Lanes) (rc : Word) {x y : Nat} (hx : x < 5) (hy : y < 5) :
    lane (iota A rc) x y = lane A x y ^^^ if x = 0 ∧ y = 0 then rc else 0 := by
  unfold iota lane
  rw [elem_set, Nat.mod_eq_of_lt hx, Nat.mod_eq_of_lt hy]
  by_cases h : x = 0 ∧ y = 0
  · obtain ⟨rfl, rfl⟩ := h; simp
  · have : 0 ≠ x + 5 * y := by omega
    simp [h, this]

/-! ## Absorbing -/

theorem elem_xorLane (S : Lanes) (i : Nat) (v : Word) (j : Nat) :
    elem (xorLane S i v) j = if i = j ∧ j < 25 then elem S i ^^^ v else elem S j := by
  simp [xorLane, elem_setIfInBounds]

theorem rate_pos (w : Width) : 0 < w.rate := by cases w <;> decide

namespace Sponge

@[simp] theorem absorbNext_sph (sp : Sponge) (b : Byte) : (sp.absorbNext b).sph = sp.sph := by
  unfold absorbNext; dsimp only; split <;> rfl

@[simp] theorem absorbNext_sw (sp : Sponge) (b : Byte) : (sp.absorbNext b).sw = sp.sw := by
  unfold absorbNext; dsimp only; split <;> rfl

/-- SPOS counts the bytes of the current block (R25, R115). -/
theorem absorbNext_spos (sp : Sponge) (b : Byte) (h : sp.spos < sp.sw.rate) :
    (sp.absorbNext b).spos = (sp.spos + 1) % sp.sw.rate := by
  unfold absorbNext
  dsimp only
  split
  · rename_i hc; simp [hc]
  · simp [Nat.mod_eq_of_lt (show sp.spos + 1 < sp.sw.rate by omega)]

@[simp] theorem absorbAll_nil (sp : Sponge) : sp.absorbAll [] = sp := rfl

@[simp] theorem absorbAll_cons (sp : Sponge) (b : Byte) (M : List Byte) :
    sp.absorbAll (b :: M) = (sp.absorbNext b).absorbAll M := rfl

/-- Absorbing twice is absorbing the concatenation (R108). -/
theorem absorbAll_append (sp : Sponge) (M N : List Byte) :
    sp.absorbAll (M ++ N) = (sp.absorbAll M).absorbAll N := by
  simp [absorbAll, List.foldl_append]

@[simp] theorem absorbAll_sph (sp : Sponge) (M : List Byte) : (sp.absorbAll M).sph = sp.sph := by
  induction M generalizing sp with
  | nil => rfl
  | cons b M ih => simp [ih]

@[simp] theorem absorbAll_sw (sp : Sponge) (M : List Byte) : (sp.absorbAll M).sw = sp.sw := by
  induction M generalizing sp with
  | nil => rfl
  | cons b M ih => simp [ih]

theorem absorbAll_spos (sp : Sponge) (M : List Byte) (h : sp.spos < sp.sw.rate) :
    (sp.absorbAll M).spos = (sp.spos + M.length) % sp.sw.rate := by
  induction M generalizing sp with
  | nil => simp [Nat.mod_eq_of_lt h]
  | cons b M ih =>
    have hn := absorbNext_spos sp b h
    rw [absorbAll_cons, ih _ (by rw [hn, absorbNext_sw]; exact Nat.mod_lt _ (rate_pos _)), hn,
      absorbNext_sw, List.length_cons]
    rw [Nat.mod_add_mod]
    congr 1; omega

/-- SPOS stays below the rate (R25, R115). -/
theorem absorbAll_spos_lt (sp : Sponge) (M : List Byte) (h : sp.spos < sp.sw.rate) :
    (sp.absorbAll M).spos < (sp.absorbAll M).sw.rate := by
  rw [absorbAll_spos sp M h, absorbAll_sw]
  exact Nat.mod_lt _ (rate_pos _)

/-- Absorbing while the block is not yet full only XORs bytes into lanes (R115). -/
theorem absorbAll_within_block (sp : Sponge) (M : List Byte) (h : sp.spos + M.length < sp.sw.rate) :
    sp.absorbAll M =
      { sp with
        lanes := (List.range M.length).foldl
          (fun S k => absorbByte S (sp.spos + k) (M.getD k 0)) sp.lanes
        spos := sp.spos + M.length } := by
  induction M generalizing sp with
  | nil => simp
  | cons b M ih =>
    simp only [List.length_cons] at h
    have hne : sp.spos + 1 ≠ sp.sw.rate := by omega
    have hb : sp.absorbNext b =
        { sp with lanes := absorbByte sp.lanes sp.spos b, spos := sp.spos + 1 } := by
      simp [absorbNext, hne]
    rw [absorbAll_cons, hb, ih _ (by simpa using by omega)]
    have hlen : sp.spos + 1 + M.length = sp.spos + (M.length + 1) := by omega
    simp only [List.length_cons, List.range_succ_eq_map, List.foldl_cons, List.foldl_map,
      List.getD_cons_zero, Nat.add_zero, hlen, List.getD_cons_succ, Nat.succ_eq_add_one]
    congr 2
    funext S k
    congr 1; omega

end Sponge

end Sys2Proof.Machine
end

