-- ==== Sys2Proof/Laws/Exec.lean ====
section
/-!
SUPPORT. What a command can do, said once: the inversion lemmas of the shared operations and of `exec`
(Machine/Dispatch.lean). Later proofs cite `exec_shape` and do not unfold a meaning.
-/

namespace Sys2Proof.Machine

/-- Everything a command that answers a next state can have done. -/
inductive Shape (i : Instr) (s : State) : State → Prop where
  /-- It raised an error (R203). -/
  | raised (e : ErrCode) (a : Word) (he : e ≠ .none) : Shape i s (s.raise e a)
  /-- It wrote the sponge (R24, R25). -/
  | sponge (sp : Sponge) (hw : writesLanes i = true)
      (hmoves : movesSponge i = false →
        sp.sph = s.sponge.sph ∧ sp.sw = s.sponge.sw ∧ sp.spos = s.sponge.spos)
      (hpos : s.sponge.spos < s.sponge.sw.rate → sp.spos < sp.sw.rate)
      (hout : (s.sponge.sph ≠ .absorb → s.sponge.spos = 0) → sp.sph ≠ .absorb → sp.spos = 0) :
      Shape i s (s.setSponge sp)
  /-- It wrote its destination register and nothing else (R21). -/
  | register (rd : RegIdx) (v : Word) (hrd : destReg i = some rd) : Shape i s (s.writeX rd v)
  /-- ENUM found the seed (R144). -/
  | found (rd ra : RegIdx) (v : Word) (c : EpochCache) (hi : i = .enum rd ra)
      (hl : epochLookup s.ecache (s.memRead (s.unsignedOp ra) 32) = (some v, c)) :
      Shape i s (((s.setEcache c).writeX rd v).setNf false)
  /-- ENUM did not find the seed (R144). -/
  | notFound (rd ra : RegIdx) (c : EpochCache) (hi : i = .enum rd ra)
      (hl : epochLookup s.ecache (s.memRead (s.unsignedOp ra) 32) = (none, c)) :
      Shape i s ((s.setEcache c).setNf true)
  /-- ECRST (R145). -/
  | cacheReset (hi : i = .ecrst) : Shape i s (s.setEcache { ecepoch := 0, ecseed := zeros 32 })
  /-- CTXSET, both checks passed (R170). -/
  | context (ra rb : RegIdx) (hi : i = .ctxset ra rb) (h0 : s.unsignedOp rb ≠ 0)
      (hmax : s.unsignedOp rb ≤ lccountMax)
      (hv : s.valid (s.unsignedOp ra) (64 * s.unsignedOp rb) = true) :
      Shape i s (s.setCtx { lcbase := s.readX ra, lccount := s.readX rb })
  /-- It wrote its destination region (R57). -/
  | memory (r : Region) (bs : List Byte) (hd : destOf i s = some r) (hlen : bs.length = r.len)
      (hv : s.valid r.base r.len = true) : Shape i s (s.memWrite r.base bs)
  /-- BUILDLC built the light cache (R172). -/
  | built (ra : RegIdx) (hi : i = .buildlc ra) (hn : s.ctx.lccount ≠ 0) (hv : s.lightCacheInMem = true) :
      Shape i s { s with mem := s.ctx.buildLightCache (s.memRead (s.unsignedOp ra) 32) s.mem }

/-! ## The dispatch, command by command (R73) -/

theorem exec_keccakf (s : State) : exec .keccakf s = execKeccakf s := rfl
theorem exec_sload (ra : RegIdx) (s : State) : exec (.sload ra) s = execSload ra s := rfl
theorem exec_sstore (ra : RegIdx) (s : State) : exec (.sstore ra) s = execSstore ra s := rfl
theorem exec_sinit256 (s : State) : exec .sinit256 s = execSinit256 s := rfl
theorem exec_sinit512 (s : State) : exec .sinit512 s = execSinit512 s := rfl
theorem exec_sabsorb (ra rb : RegIdx) (s : State) :
    exec (.sabsorb ra rb) s = execSabsorb ra rb s := rfl
theorem exec_sfinal (s : State) : exec .sfinal s = execSfinal s := rfl
theorem exec_ssqueeze (ra : RegIdx) (s : State) : exec (.ssqueeze ra) s = execSsqueeze ra s := rfl
theorem exec_keccak256 (ra rb rc : RegIdx) (s : State) :
    exec (.keccak256 ra rb rc) s = execKeccak256 ra rb rc s := rfl
theorem exec_keccak512 (ra rb rc : RegIdx) (s : State) :
    exec (.keccak512 ra rb rc) s = execKeccak512 ra rb rc s := rfl
theorem exec_fnv1 (rd ra rb : RegIdx) (s : State) :
    exec (.fnv1 rd ra rb) s = execFnv1 rd ra rb s := rfl
theorem exec_fnv1v (ra rb rc : RegIdx) (s : State) :
    exec (.fnv1v ra rb rc) s = execFnv1v ra rb rc s := rfl
theorem exec_eseed (ra rc : RegIdx) (s : State) : exec (.eseed ra rc) s = execEseed ra rc s := rfl
theorem exec_enum (rd ra : RegIdx) (s : State) : exec (.enum rd ra) s = execEnum rd ra s := rfl
theorem exec_ecrst (s : State) : exec .ecrst s = execEcrst s := rfl
theorem exec_ecip (rd ra : RegIdx) (s : State) : exec (.ecip rd ra) s = execEcip rd ra s := rfl
theorem exec_prime (rd ra : RegIdx) (s : State) : exec (.prime rd ra) s = execPrime rd ra s := rfl
theorem exec_lcount (rd ra : RegIdx) (s : State) :
    exec (.lcount rd ra) s = execLcount rd ra s := rfl
theorem exec_dcount (rd ra : RegIdx) (s : State) :
    exec (.dcount rd ra) s = execDcount rd ra s := rfl
theorem exec_ctxset (ra rb : RegIdx) (s : State) :
    exec (.ctxset ra rb) s = execCtxset ra rb s := rfl
theorem exec_buildlc (ra : RegIdx) (s : State) : exec (.buildlc ra) s = execBuildlc ra s := rfl
theorem exec_ditem512 (ra rc : RegIdx) (s : State) :
    exec (.ditem512 ra rc) s = execDitem512 ra rc s := rfl
theorem exec_ditem1024 (ra rc : RegIdx) (s : State) :
    exec (.ditem1024 ra rc) s = execDitem1024 ra rc s := rfl
theorem exec_ditem2048 (ra rc : RegIdx) (s : State) :
    exec (.ditem2048 ra rc) s = execDitem2048 ra rc s := rfl

/-! ## The shared operations -/

theorem hashRegion_cases {d : Nat} {hash : List Byte → Bytes d} {ra rb rc : RegIdx} {s t : State}
    (h : hashRegion hash ra rb rc s = .next t) :
    (∃ a, t = s.raise .busFault a) ∨
    (s.valid (s.unsignedOp ra) (s.unsignedOp rb) = true ∧ s.valid (s.unsignedOp rc) d = true ∧
      t = s.memWrite (s.unsignedOp rc)
        (hash (s.memRead (s.unsignedOp ra) (s.unsignedOp rb)).toList).toList) := by
  unfold hashRegion at h
  dsimp only at h
  split at h
  · exact .inl ⟨_, by simpa using h.symm⟩
  · split at h
    · exact .inl ⟨_, by simpa using h.symm⟩
    · rename_i h1 h2
      exact .inr ⟨by simpa using h1, by simpa using h2, by simpa using h.symm⟩

theorem countOp_cases {count : Nat → Nat} {rd ra : RegIdx} {s t : State}
    (h : countOp count rd ra s = .next t) :
    (t = s.raise .invalidEpoch 0) ∨
    (s.validEpochOp ra = true ∧ t = s.writeX rd (BitVec.ofNat 64 (count (s.epochOp ra)))) := by
  unfold countOp at h
  split at h
  · exact .inl (by simpa using h.symm)
  · rename_i h1
    exact .inr ⟨by simpa using h1, by simpa using h.symm⟩

theorem datasetOp_cases {d : Nat} {make : Context → Memory → Word → Bytes d} {ra rc : RegIdx}
    {s t : State} (h : datasetOp make ra rc s = .next t) :
    (t = s.raise .context 0) ∨ (∃ a, t = s.raise .busFault a) ∨
    (s.ctx.lccount ≠ 0 ∧ s.valid (s.unsignedOp rc) d = true ∧ s.lightCacheInMem = true ∧
      t = s.memWrite (s.unsignedOp rc) (make s.ctx s.mem (s.readX ra)).toList) := by
  unfold datasetOp at h
  dsimp only at h
  split at h
  · exact .inl (by simpa using h.symm)
  · split at h
    · exact .inr (.inl ⟨_, by simpa using h.symm⟩)
    · split at h
      · simp at h
      · rename_i h1 h2 h3
        exact .inr (.inr ⟨h1, by simpa using h2, by simpa using h3, by simpa using h.symm⟩)

/-! ## Commands on the light cache, case by case (R172, R183 to R185) -/

theorem lccount_ne_zero {s : State} : s.ctx.lccount ≠ 0 ↔ s.ctx.lccount.toNat ≠ 0 := by
  rw [Ne, Ne, ← BitVec.toNat_inj]
  exact Iff.rfl

theorem execBuildlc_context {ra : RegIdx} {s : State} (h : s.ctx.lccount = 0) :
    execBuildlc ra s = .next (s.raise .context 0) := by
  rw [execBuildlc, if_pos h]

theorem execBuildlc_bus {ra : RegIdx} {s : State} (h : s.ctx.lccount ≠ 0)
    (hv : s.valid (s.unsignedOp ra) 32 = false) :
    execBuildlc ra s = .next (s.raise .busFault (s.readX ra)) := by
  rw [execBuildlc, if_neg h, hv]
  rfl

theorem execBuildlc_built {ra : RegIdx} {s : State} (h : s.ctx.lccount ≠ 0)
    (hv : s.valid (s.unsignedOp ra) 32 = true) (hc : s.lightCacheInMem = true) :
    execBuildlc ra s =
      .next { s with mem := s.ctx.buildLightCache (s.memRead (s.unsignedOp ra) 32) s.mem } := by
  rw [execBuildlc, if_neg h, hv, hc]
  rfl

theorem datasetOp_context {d : Nat} {make : Context → Memory → Word → Bytes d} {ra rc : RegIdx}
    {s : State} (h : s.ctx.lccount = 0) : datasetOp make ra rc s = .next (s.raise .context 0) := by
  rw [datasetOp, if_pos h]

theorem datasetOp_bus {d : Nat} {make : Context → Memory → Word → Bytes d} {ra rc : RegIdx} {s : State}
    (h : s.ctx.lccount ≠ 0) (hv : s.valid (s.unsignedOp rc) d = false) :
    datasetOp make ra rc s = .next (s.raise .busFault (s.readX rc)) := by
  rw [datasetOp, if_neg h, hv]
  rfl

theorem datasetOp_made {d : Nat} {make : Context → Memory → Word → Bytes d} {ra rc : RegIdx} {s : State}
    (h : s.ctx.lccount ≠ 0) (hv : s.valid (s.unsignedOp rc) d = true) (hc : s.lightCacheInMem = true) :
    datasetOp make ra rc s =
      .next (s.memWrite (s.unsignedOp rc) (make s.ctx s.mem (s.readX ra)).toList) := by
  rw [datasetOp, if_neg h, hv, hc]
  rfl

/-! ## The meanings -/

theorem hashRegion_shape {i : Instr} {d : Nat} {hash : List Byte → Bytes d} {ra rb rc : RegIdx}
    {s t : State} (hd : destOf i s = some ⟨s.unsignedOp rc, d⟩)
    (h : hashRegion hash ra rb rc s = .next t) : Shape i s t := by
  obtain ⟨a, rfl⟩ | ⟨_, hv, rfl⟩ := hashRegion_cases h
  · exact .raised _ _ (by decide)
  · exact .memory _ _ hd (by simp) hv

theorem countOp_shape {i : Instr} {count : Nat → Nat} {rd ra : RegIdx} {s t : State}
    (hd : destReg i = some rd) (h : countOp count rd ra s = .next t) : Shape i s t := by
  obtain rfl | ⟨_, rfl⟩ := countOp_cases h
  · exact .raised _ _ (by decide)
  · exact .register _ _ hd

theorem datasetOp_shape {i : Instr} {d : Nat} {make : Context → Memory → Word → Bytes d}
    {ra rc : RegIdx} {s t : State} (hd : destOf i s = some ⟨s.unsignedOp rc, d⟩)
    (h : datasetOp make ra rc s = .next t) : Shape i s t := by
  obtain rfl | ⟨a, rfl⟩ | ⟨_, hv, _, rfl⟩ := datasetOp_cases h
  · exact .raised _ _ (by decide)
  · exact .raised _ _ (by decide)
  · exact .memory _ _ hd (by simp) hv

/-- Every command that answers a next state has one of these shapes. -/
theorem exec_shape {i : Instr} {s t : State} (h : exec i s = .next t) : Shape i s t := by
  have bad : ∀ {e : ErrCode} {a : Word} {t : State}, e ≠ .none →
      Host.Outcome.next (s.raise e a) = (.next t : Result) → Shape i s t := by
    intro e a t he h
    obtain rfl : s.raise e a = t := by simpa using h
    exact .raised _ _ he
  cases i with
  | keccakf =>
    obtain rfl : _ = t := by simpa [exec, execKeccakf] using h
    exact .sponge _ rfl (fun _ => ⟨rfl, rfl, rfl⟩) id fun h1 h2 => h1 h2
  | sload ra =>
    simp only [exec, execSload] at h
    split at h
    · obtain rfl : _ = t := by simpa using h
      exact .sponge _ rfl (fun _ => ⟨rfl, rfl, rfl⟩) id fun h1 h2 => h1 h2
    · exact bad (by decide) h
  | sstore ra =>
    simp only [exec, execSstore] at h
    split at h
    · obtain rfl : _ = t := by simpa using h
      rename_i hv
      exact .memory ⟨s.unsignedOp ra, 200⟩ _ rfl (by simp) hv
    · exact bad (by decide) h
  | sinit256 =>
    obtain rfl : _ = t := by simpa [exec, execSinit256] using h
    exact .sponge _ rfl (by simp [movesSponge]) (fun _ => by decide) fun _ _ => rfl
  | sinit512 =>
    obtain rfl : _ = t := by simpa [exec, execSinit512] using h
    exact .sponge _ rfl (by simp [movesSponge]) (fun _ => by decide) fun _ _ => rfl
  | sabsorb ra rb =>
    simp only [exec, execSabsorb] at h
    split at h
    · exact bad (by decide) h
    · rename_i hs
      split at h
      · obtain rfl : _ = t := by simpa using h
        refine .sponge _ rfl (by simp [movesSponge]) (Sponge.absorbAll_spos_lt _ _) fun _ h2 => ?_
        exact absurd (by simpa using hs) (by simpa using h2)
      · exact bad (by decide) h
  | sfinal =>
    simp only [exec, execSfinal] at h
    split at h
    · exact bad (by decide) h
    · obtain rfl : _ = t := by simpa using h
      exact .sponge _ rfl (by simp [movesSponge]) (fun _ => rate_pos _) fun _ _ => rfl
  | ssqueeze ra =>
    simp only [exec, execSsqueeze] at h
    split at h
    · exact bad (by decide) h
    · split at h
      · obtain rfl : _ = t := by simpa using h
        rename_i hv
        exact .memory ⟨s.unsignedOp ra, s.sponge.sw.dlen⟩ _ rfl (by simp) hv
      · exact bad (by decide) h
  | keccak256 ra rb rc => exact hashRegion_shape rfl h
  | keccak512 ra rb rc => exact hashRegion_shape rfl h
  | fnv1 rd ra rb =>
    obtain rfl : _ = t := by simpa [exec, execFnv1] using h
    exact .register rd _ rfl
  | fnv1v ra rb rc =>
    simp only [exec, execFnv1v] at h
    split at h
    · exact bad (by decide) h
    · split at h
      · exact bad (by decide) h
      · split at h
        · exact bad (by decide) h
        · obtain rfl : _ = t := by simpa using h
          rename_i hv
          exact .memory ⟨s.unsignedOp rc, 64⟩ _ rfl (by simp) (by simpa using hv)
  | eseed ra rc =>
    simp only [exec, execEseed] at h
    split at h
    · exact bad (by decide) h
    · split at h
      · exact bad (by decide) h
      · obtain rfl : _ = t := by simpa using h
        rename_i hv
        exact .memory ⟨s.unsignedOp rc, 32⟩ _ rfl (by simp) (by simpa using hv)
  | enum rd ra =>
    simp only [exec, execEnum] at h
    split at h
    · exact bad (by decide) h
    · split at h
      · obtain rfl : _ = t := by simpa using h
        rename_i hl
        exact .found rd ra _ _ rfl hl
      · obtain rfl : _ = t := by simpa using h
        rename_i hl
        exact .notFound rd ra _ rfl hl
  | ecrst =>
    obtain rfl : _ = t := by simpa [exec, execEcrst] using h
    exact .cacheReset rfl
  | ecip rd ra =>
    simp only [exec, execEcip] at h
    split at h
    · exact bad (by decide) h
    · obtain rfl : _ = t := by simpa using h
      exact .register rd _ rfl
  | prime rd ra =>
    obtain rfl : _ = t := by simpa [exec, execPrime] using h
    exact .register rd _ rfl
  | lcount rd ra => exact countOp_shape rfl h
  | dcount rd ra => exact countOp_shape rfl h
  | ctxset ra rb =>
    simp only [exec, execCtxset] at h
    split at h
    · exact bad (by decide) h
    · split at h
      · exact bad (by decide) h
      · obtain rfl : _ = t := by simpa using h
        rename_i hn hv
        exact .context ra rb rfl (by omega) (by omega) (by simpa using hv)
  | buildlc ra =>
    simp only [exec, execBuildlc] at h
    split at h
    · exact bad (by decide) h
    · split at h
      · exact bad (by decide) h
      · split at h
        · simp at h
        · obtain rfl : _ = t := by simpa using h
          rename_i hn _ hv
          exact .built ra rfl hn (by simpa using hv)
  | ditem512 ra rc => exact datasetOp_shape rfl h
  | ditem1024 ra rc => exact datasetOp_shape rfl h
  | ditem2048 ra rc => exact datasetOp_shape rfl h

/-- A command leaves what is not the engine's, and BUSY, OVR and CMDLATCH (R29, R31, R33). -/
theorem exec_frame {i : Instr} {s t : State} (h : exec i s = .next t) :
    t.cfg = s.cfg ∧ t.hostQueue = s.hostQueue ∧ t.reply = s.reply ∧ t.draws = s.draws ∧
      t.cmdlatch = s.cmdlatch ∧ t.status.busy = s.status.busy ∧ t.status.ovr = s.status.ovr := by
  cases exec_shape h <;> exact ⟨rfl, rfl, rfl, rfl, rfl, rfl, rfl⟩

/-- While the light cache lies in MEM every command answers a next state: the one stop is log 9. -/
theorem exec_answers_next {i : Instr} {s : State} (hv : s.lightCacheInMem = true) : ∃ t, exec i s = .next t := by
  have dataset : ∀ {d : Nat} (make : Context → Memory → Word → Bytes d) (ra rc : RegIdx),
      ∃ t, datasetOp make ra rc s = .next t := by
    intro d make ra rc
    unfold datasetOp
    dsimp only
    split
    · exact ⟨_, rfl⟩
    · split
      · exact ⟨_, rfl⟩
      · simp [hv]
  have hash : ∀ {d : Nat} (f : List Byte → Bytes d) (ra rb rc : RegIdx),
      ∃ t, hashRegion f ra rb rc s = .next t := by
    intro d f ra rb rc
    unfold hashRegion
    dsimp only
    split
    · exact ⟨_, rfl⟩
    · split <;> exact ⟨_, rfl⟩
  have count : ∀ (f : Nat → Nat) (rd ra : RegIdx), ∃ t, countOp f rd ra s = .next t := by
    intro f rd ra
    unfold countOp
    split <;> exact ⟨_, rfl⟩
  cases i with
  | keccakf => exact ⟨_, rfl⟩
  | sload ra => simp only [exec, execSload]; split <;> exact ⟨_, rfl⟩
  | sstore ra => simp only [exec, execSstore]; split <;> exact ⟨_, rfl⟩
  | sinit256 => exact ⟨_, rfl⟩
  | sinit512 => exact ⟨_, rfl⟩
  | sabsorb ra rb => simp only [exec, execSabsorb]; split <;> [skip; split] <;> exact ⟨_, rfl⟩
  | sfinal => simp only [exec, execSfinal]; split <;> exact ⟨_, rfl⟩
  | ssqueeze ra => simp only [exec, execSsqueeze]; split <;> [skip; split] <;> exact ⟨_, rfl⟩
  | keccak256 ra rb rc => exact hash _ _ _ _
  | keccak512 ra rb rc => exact hash _ _ _ _
  | fnv1 rd ra rb => exact ⟨_, rfl⟩
  | fnv1v ra rb rc =>
    simp only [exec, execFnv1v]
    split <;> [skip; (split <;> [skip; split])] <;> exact ⟨_, rfl⟩
  | eseed ra rc => simp only [exec, execEseed]; split <;> [skip; split] <;> exact ⟨_, rfl⟩
  | enum rd ra => simp only [exec, execEnum]; split <;> [skip; split] <;> exact ⟨_, rfl⟩
  | ecrst => exact ⟨_, rfl⟩
  | ecip rd ra => simp only [exec, execEcip]; split <;> exact ⟨_, rfl⟩
  | prime rd ra => exact ⟨_, rfl⟩
  | lcount rd ra => exact count _ _ _
  | dcount rd ra => exact count _ _ _
  | ctxset ra rb => simp only [exec, execCtxset]; split <;> [skip; split] <;> exact ⟨_, rfl⟩
  | buildlc ra =>
    simp only [exec, execBuildlc]
    split
    · exact ⟨_, rfl⟩
    · split
      · exact ⟨_, rfl⟩
      · simp [hv]
  | ditem512 ra rc => exact dataset _ _ _
  | ditem1024 ra rc => exact dataset _ _ _
  | ditem2048 ra rc => exact dataset _ _ _

end Sys2Proof.Machine
end

