-- ==== Sys2Proof/Laws/PerInstr.lean ====
section
/-!
SUPPORT. The family of per-command laws: the word of every command is well formed by the field rules of
WellFormed.lean, which are written apart from the encoder (30_encoding.md R70, R72, R75).
-/

namespace Sys2Proof.Laws.EncodedWord

/-- The word of a command has an assigned OP, and 0 in FN and in every field its sub-format does not use. -/
def Statement (i : Instr) : Prop := wellFormed (encode i) = true

/-- The fields of an assembled word (R70). -/
theorem fields_assemble (op : BitVec 8) (rd ra rb rc : RegIdx) :
    Fields.ofWord (assemble op rd ra rb rc) = ⟨op, rd, ra, rb, rc, 0⟩ := by
  have h0 : opField (assemble op rd ra rb rc) = op := opField_assemble op rd ra rb rc
  have h1 : rdField (assemble op rd ra rb rc) = rd := rdField_assemble op rd ra rb rc
  have h2 : raField (assemble op rd ra rb rc) = ra := raField_assemble op rd ra rb rc
  have h3 : rbField (assemble op rd ra rb rc) = rb := rbField_assemble op rd ra rb rc
  have h4 : rcField (assemble op rd ra rb rc) = rc := rcField_assemble op rd ra rb rc
  have h5 : (assemble op rd ra rb rc).extractLsb' 24 8 = 0 :=
    (extract_high (n := 8) _ op 16 8).trans <| (extract_high (n := 4) _ rd 12 8).trans <|
      (extract_high (n := 4) _ ra 8 8).trans <| (extract_high (n := 4) _ rb 4 8).trans <|
        (extract_high (n := 4) _ rc 0 8).trans (extract_whole8 0)
  unfold opField at h0
  unfold rdField at h1
  unfold raField at h2
  unfold rbField at h3
  unfold rcField at h4
  unfold Fields.ofWord
  rw [h0, h1, h2, h3, h4, h5]

/-- A word assembled with 0 in the unused fields of its OP's sub-format is well formed (R72). -/
theorem of_format {op : BitVec 8} {rd ra rb rc : RegIdx} {fmt : Format} (hf : formatOf op = some fmt)
    (hu : (⟨op, rd, ra, rb, rc, 0⟩ : Fields).unusedZero fmt = true) :
    wellFormed (assemble op rd ra rb rc) = true := by
  unfold wellFormed
  rw [fields_assemble]
  dsimp only
  rw [hf]
  exact hu

theorem keccakf : Statement .keccakf :=
  of_format (fmt := .N) (by decide) (by simp [Fields.unusedZero, Format.usesRd, Format.usesRa,
    Format.usesRb, Format.usesRc])
theorem sload (ra : RegIdx) : Statement (.sload ra) :=
  of_format (fmt := .A) (by decide) (by simp [Fields.unusedZero, Format.usesRd, Format.usesRa,
    Format.usesRb, Format.usesRc])
theorem sstore (ra : RegIdx) : Statement (.sstore ra) :=
  of_format (fmt := .A) (by decide) (by simp [Fields.unusedZero, Format.usesRd, Format.usesRa,
    Format.usesRb, Format.usesRc])
theorem sinit256 : Statement .sinit256 :=
  of_format (fmt := .N) (by decide) (by simp [Fields.unusedZero, Format.usesRd, Format.usesRa,
    Format.usesRb, Format.usesRc])
theorem sinit512 : Statement .sinit512 :=
  of_format (fmt := .N) (by decide) (by simp [Fields.unusedZero, Format.usesRd, Format.usesRa,
    Format.usesRb, Format.usesRc])
theorem sabsorb (ra rb : RegIdx) : Statement (.sabsorb ra rb) :=
  of_format (fmt := .AB) (by decide) (by simp [Fields.unusedZero, Format.usesRd, Format.usesRa,
    Format.usesRb, Format.usesRc])
theorem sfinal : Statement .sfinal :=
  of_format (fmt := .N) (by decide) (by simp [Fields.unusedZero, Format.usesRd, Format.usesRa,
    Format.usesRb, Format.usesRc])
theorem ssqueeze (ra : RegIdx) : Statement (.ssqueeze ra) :=
  of_format (fmt := .A) (by decide) (by simp [Fields.unusedZero, Format.usesRd, Format.usesRa,
    Format.usesRb, Format.usesRc])
theorem keccak256 (ra rb rc : RegIdx) : Statement (.keccak256 ra rb rc) :=
  of_format (fmt := .ABC) (by decide) (by simp [Fields.unusedZero, Format.usesRd, Format.usesRa,
    Format.usesRb, Format.usesRc])
theorem keccak512 (ra rb rc : RegIdx) : Statement (.keccak512 ra rb rc) :=
  of_format (fmt := .ABC) (by decide) (by simp [Fields.unusedZero, Format.usesRd, Format.usesRa,
    Format.usesRb, Format.usesRc])
theorem fnv1 (rd ra rb : RegIdx) : Statement (.fnv1 rd ra rb) :=
  of_format (fmt := .DAB) (by decide) (by simp [Fields.unusedZero, Format.usesRd, Format.usesRa,
    Format.usesRb, Format.usesRc])
theorem fnv1v (ra rb rc : RegIdx) : Statement (.fnv1v ra rb rc) :=
  of_format (fmt := .ABC) (by decide) (by simp [Fields.unusedZero, Format.usesRd, Format.usesRa,
    Format.usesRb, Format.usesRc])
theorem eseed (ra rc : RegIdx) : Statement (.eseed ra rc) :=
  of_format (fmt := .AC) (by decide) (by simp [Fields.unusedZero, Format.usesRd, Format.usesRa,
    Format.usesRb, Format.usesRc])
theorem enum (rd ra : RegIdx) : Statement (.enum rd ra) :=
  of_format (fmt := .DA) (by decide) (by simp [Fields.unusedZero, Format.usesRd, Format.usesRa,
    Format.usesRb, Format.usesRc])
theorem ecrst : Statement .ecrst :=
  of_format (fmt := .N) (by decide) (by simp [Fields.unusedZero, Format.usesRd, Format.usesRa,
    Format.usesRb, Format.usesRc])
theorem ecip (rd ra : RegIdx) : Statement (.ecip rd ra) :=
  of_format (fmt := .DA) (by decide) (by simp [Fields.unusedZero, Format.usesRd, Format.usesRa,
    Format.usesRb, Format.usesRc])
theorem prime (rd ra : RegIdx) : Statement (.prime rd ra) :=
  of_format (fmt := .DA) (by decide) (by simp [Fields.unusedZero, Format.usesRd, Format.usesRa,
    Format.usesRb, Format.usesRc])
theorem lcount (rd ra : RegIdx) : Statement (.lcount rd ra) :=
  of_format (fmt := .DA) (by decide) (by simp [Fields.unusedZero, Format.usesRd, Format.usesRa,
    Format.usesRb, Format.usesRc])
theorem dcount (rd ra : RegIdx) : Statement (.dcount rd ra) :=
  of_format (fmt := .DA) (by decide) (by simp [Fields.unusedZero, Format.usesRd, Format.usesRa,
    Format.usesRb, Format.usesRc])
theorem ctxset (ra rb : RegIdx) : Statement (.ctxset ra rb) :=
  of_format (fmt := .AB) (by decide) (by simp [Fields.unusedZero, Format.usesRd, Format.usesRa,
    Format.usesRb, Format.usesRc])
theorem buildlc (ra : RegIdx) : Statement (.buildlc ra) :=
  of_format (fmt := .A) (by decide) (by simp [Fields.unusedZero, Format.usesRd, Format.usesRa,
    Format.usesRb, Format.usesRc])
theorem ditem512 (ra rc : RegIdx) : Statement (.ditem512 ra rc) :=
  of_format (fmt := .AC) (by decide) (by simp [Fields.unusedZero, Format.usesRd, Format.usesRa,
    Format.usesRb, Format.usesRc])
theorem ditem1024 (ra rc : RegIdx) : Statement (.ditem1024 ra rc) :=
  of_format (fmt := .AC) (by decide) (by simp [Fields.unusedZero, Format.usesRd, Format.usesRa,
    Format.usesRb, Format.usesRc])
theorem ditem2048 (ra rc : RegIdx) : Statement (.ditem2048 ra rc) :=
  of_format (fmt := .AC) (by decide) (by simp [Fields.unusedZero, Format.usesRd, Format.usesRa,
    Format.usesRb, Format.usesRc])

end Sys2Proof.Laws.EncodedWord
end

