-- ==== Sys2Proof/Laws/Step.lean ====
section
/-!
SUPPORT. What one step can do, said once (Machine/Step.lean, Machine/HostAct.lean, Machine/Engine.lean).
-/

namespace Sys2Proof.Machine

/-! ## Who moves -/

/-- With an action other than `wait` next, that action happens, BUSY or not (log 1). -/
theorem step_action {s : State} {act : HostAction} {rest : List HostAction}
    (hq : s.hostQueue = act :: rest) (hw : act ≠ .wait) : step s = hostStep act (s.setQueue rest) := by
  have hm : s.engineMoves = false := by
    cases act <;> simp_all [State.engineMoves]
  rw [step, hm, hq]
  rfl

/-- With BUSY = 0 the next action happens (log 1). -/
theorem step_action_idle {s : State} {act : HostAction} {rest : List HostAction}
    (hq : s.hostQueue = act :: rest) (hb : s.status.busy = false) :
    step s = hostStep act (s.setQueue rest) := by
  have hm : s.engineMoves = false := by simp [State.engineMoves, hb]
  rw [step, hm, hq]
  rfl

theorem step_engine {s : State} (h : s.engineMoves = true) : step s = engineStep s := by
  simp [step, h]

/-- With nothing pending and BUSY = 0 the machine holds its state (R217). -/
theorem step_idle {s : State} (hq : s.hostQueue = []) (hb : s.status.busy = false) :
    step s = .next s := by
  simp [step, State.engineMoves, hb, hq]

/-- With BUSY = 0 a `wait` is over, and nothing else changes (R77). -/
theorem step_wait_idle {s : State} {rest : List HostAction} (hq : s.hostQueue = .wait :: rest)
    (hb : s.status.busy = false) : step s = .next (s.setQueue rest) :=
  step_action_idle hq hb

/-- The engine moves exactly while BUSY = 1 and the host waits or has nothing left to do (log 1). -/
theorem engineMoves_iff (s : State) :
    s.engineMoves = true ↔
      s.status.busy = true ∧ (s.hostQueue = [] ∨ ∃ rest, s.hostQueue = .wait :: rest) := by
  unfold State.engineMoves
  rcases s.hostQueue with _ | ⟨_ | _ | _ | _ | _ | _, q⟩ <;> simp

theorem engineMoves_busy {s : State} (h : s.engineMoves = true) : s.status.busy = true := by
  unfold State.engineMoves at h
  cases hb : s.status.busy <;> simp_all

/-! ## What happens -/

/-- The engine's step ends a command by its rule, or raises ILLEGAL_CMD (R31, R73). -/
theorem engineStep_cases {s t : State} (h : engineStep s = .next t) :
    ((∃ r, decode s.cmdlatch = .error r) ∧ t = (s.raise .illegalCmd 0).complete) ∨
    ∃ i u, decode s.cmdlatch = .ok i ∧ exec i s = .next u ∧ t = u.complete := by
  unfold engineStep execute at h
  cases hd : decode s.cmdlatch with
  | error r =>
    rw [hd] at h
    exact .inl ⟨⟨r, rfl⟩, by simpa using h.symm⟩
  | ok i =>
    rw [hd] at h
    dsimp only at h
    cases he : exec i s with
    | next u => rw [he] at h; exact .inr ⟨i, u, rfl, he, by simpa using h.symm⟩
    | fault f => rw [he] at h; simp at h
    | refused r => rw [he] at h; simp at h

/-- A host access to MEM that happens is inside MEM and touches nothing in flight (R50, R62). -/
theorem hostMemory_cases {s : State} {a n : Nat} {k t : State} (h : s.hostMemory a n k = .next t) :
    s.valid a n = true ∧ s.touchesInFlight a n = false ∧ t = k := by
  unfold State.hostMemory at h
  split at h
  · simp at h
  · split at h
    · simp at h
    · rename_i h1 h2
      exact ⟨by simpa using h1, by simpa using h2, by simpa using h.symm⟩

/-- Everything a step that answers a next state can have done. -/
theorem step_cases {s t : State} (h : step s = .next t) :
    (s.engineMoves = true ∧ engineStep s = .next t) ∨
    (s.hostQueue = [] ∧ t = s) ∨
    ∃ act rest, s.hostQueue = act :: rest ∧ hostStep act (s.setQueue rest) = .next t := by
  unfold step at h
  split at h
  · rename_i hm; exact .inl ⟨hm, h⟩
  · split at h
    · rename_i hq; exact .inr (.inl ⟨hq, by simpa using h.symm⟩)
    · rename_i act rest hq; exact .inr (.inr ⟨act, rest, hq, h⟩)

/-- Everything an action that answers a next state can have done, on the state it was taken from. -/
theorem hostStep_cases {act : HostAction} {s t : State} (h : hostStep act s = .next t) :
    (∃ width addr v off, act = .write width addr v ∧ definedAccess s.cfg width addr = some off ∧
      t = s.hostWrite off v) ∨
    (∃ width addr off, act = .read width addr ∧ definedAccess s.cfg width addr = some off ∧
      t = s.hostRead off) ∨
    (act = .wait ∧ t = s) ∨
    (∃ a bs, act = .memWrite a bs ∧ s.valid a bs.length = true ∧
      s.touchesInFlight a bs.length = false ∧ t = s.memWrite a bs) ∨
    (∃ a n, act = .memRead a n ∧ s.valid a n = true ∧ s.touchesInFlight a n = false ∧
      t = s.setReply (.bytes (s.memRead a n).toList)) ∨
    (act = .reset ∧ t = s.platformReset) := by
  cases act with
  | write width addr v =>
    unfold hostStep at h
    dsimp only at h
    split at h
    · simp at h
    · rename_i off ho
      exact .inl ⟨width, addr, v, off, rfl, ho, by simpa using h.symm⟩
  | read width addr =>
    unfold hostStep at h
    dsimp only at h
    split at h
    · simp at h
    · rename_i off ho
      exact .inr (.inl ⟨width, addr, off, rfl, ho, by simpa using h.symm⟩)
  | wait => exact .inr (.inr (.inl ⟨rfl, by simpa [hostStep] using h.symm⟩))
  | memWrite a bs =>
    obtain ⟨h1, h2, h3⟩ := hostMemory_cases h
    exact .inr (.inr (.inr (.inl ⟨a, bs, rfl, h1, h2, h3⟩)))
  | memRead a n =>
    obtain ⟨h1, h2, h3⟩ := hostMemory_cases h
    exact .inr (.inr (.inr (.inr (.inl ⟨a, n, rfl, h1, h2, h3⟩))))
  | reset => exact .inr (.inr (.inr (.inr (.inr ⟨rfl, by simpa [hostStep] using h.symm⟩))))

/-! ## Host accesses to MEM -/

/-- With no command in flight, no access touches one. -/
theorem touchesInFlight_idle {s : State} (hb : s.status.busy = false) (a n : Nat) :
    s.touchesInFlight a n = false := by
  simp [State.touchesInFlight, State.inFlight, hb]

/-- An access that shares no byte with a region of the command in flight does not touch it (R62). -/
theorem touchesInFlight_of_disjoint {s : State} {a n : Nat}
    (h : s.status.busy = true → ∀ i, decode s.cmdlatch = .ok i → errorOf i s = none →
      ∀ r ∈ sourcesOf i s ++ (destOf i s).toList, ∀ b, a ≤ b → b < a + n →
        b < r.base ∨ r.base + r.len ≤ b) :
    s.touchesInFlight a n = false := by
  cases hb : s.status.busy with
  | false => exact touchesInFlight_idle hb a n
  | true =>
    unfold State.touchesInFlight State.inFlight
    rw [hb]
    cases hd : decode s.cmdlatch with
    | error _ => rfl
    | ok i =>
      cases he : errorOf i s with
      | some _ => simp [he]
      | none =>
        simp only [he, Option.isSome_none, if_true]
        refine List.any_eq_false.2 fun r hr hm => ?_
        have hd' := h hb i hd he r hr
        simp only [Region.meets, Bool.and_eq_true, decide_eq_true_eq] at hm
        have := hd' (max a r.base) (by omega) (by omega)
        omega

/-- An access inside MEM that touches no command in flight has its effect (R50, R62). -/
theorem hostMemory_ok {s : State} {a n : Nat} (k : State) (hv : s.valid a n = true)
    (ht : s.touchesInFlight a n = false) : s.hostMemory a n k = .next k := by
  simp [State.hostMemory, hv, ht]

/-- What is pending is no part of what a command in flight touches. -/
theorem touchesInFlight_setQueue (s : State) (q : List HostAction) (a n : Nat) :
    (s.setQueue q).touchesInFlight a n = s.touchesInFlight a n := by
  have he : ∀ i, errorOf i (s.setQueue q) = errorOf i s := fun i => by cases i <;> rfl
  have hs : ∀ i, sourcesOf i (s.setQueue q) = sourcesOf i s := fun i => by cases i <;> rfl
  have hd : ∀ i, destOf i (s.setQueue q) = destOf i s := fun i => by cases i <;> rfl
  simp only [State.touchesInFlight, State.inFlight, State.setQueue_status, State.setQueue_cmdlatch, he, hs, hd]

/-! ## The window -/

/-- The aligned offsets of the window are its defined accesses (R214). -/
theorem definedAccess_of_offset (cfg : Config) {off : Nat} (h8 : off % 8 = 0) (hlt : off < 256) :
    definedAccess cfg .b64 (cfg.windowBase + off) = some off := by
  simp [definedAccess, windowOffset, hlt, h8]

/-- There are no other defined accesses (R214, U2). -/
theorem definedAccess_some {cfg : Config} {width : AccessWidth} {addr off : Nat}
    (h : definedAccess cfg width addr = some off) :
    width = .b64 ∧ addr = cfg.windowBase + off ∧ off < 256 ∧ off % 8 = 0 := by
  cases width with
  | b64 =>
    by_cases hin : cfg.windowBase ≤ addr ∧ addr < cfg.windowBase + 256
    · by_cases h8 : (addr - cfg.windowBase) % 8 = 0
      · simp only [definedAccess, windowOffset, hin, h8, and_self, if_true, Option.some.injEq] at h
        subst h
        exact ⟨rfl, by omega, by omega, h8⟩
      · simp [definedAccess, windowOffset, hin, h8] at h
    · simp [definedAccess, windowOffset, hin] at h
  | b8 => simp [definedAccess] at h
  | b16 => simp [definedAccess] at h
  | b32 => simp [definedAccess] at h

/-- Everything a window write can do (R205, R208, R215). -/
theorem hostWrite_cases (s : State) (off : Nat) (v : Word) :
    s.hostWrite off v = s ∨
    (s.hostWrite off v = s.setOvr ∧ s.status.busy = true) ∨
    (∃ r, s.hostWrite off v = s.writeX r v ∧ s.status.busy = false) ∨
    (s.hostWrite off v = s.latch (v.setWidth 32) ∧ s.status.busy = false ∧ s.status.err = false) ∨
    (s.hostWrite off v = s.writeStatus v ∧ off = 0x088) := by
  unfold State.hostWrite
  split
  · split
    · rename_i hb; exact .inr (.inl ⟨rfl, hb⟩)
    · rename_i hb; exact .inr (.inr (.inl ⟨_, rfl, by simpa using hb⟩))
  · split
    · split
      · rename_i hb; exact .inr (.inl ⟨rfl, hb⟩)
      · split
        · exact .inl rfl
        · rename_i hb he
          exact .inr (.inr (.inr (.inl ⟨rfl, by simpa using hb, by simpa using he⟩)))
    · split
      · rename_i ho; exact .inr (.inr (.inr (.inr ⟨rfl, ho⟩)))
      · exact .inl rfl

/-- A window read changes nothing but what the host has read and the count of free values (R215). -/
theorem hostRead_eq (s : State) (off : Nat) :
    ∃ v d, s.hostRead off = { s with reply := .word v, draws := d } := by
  unfold State.hostRead
  split
  · split
    · exact ⟨_, _, rfl⟩
    · split <;> exact ⟨_, _, rfl⟩
  · exact ⟨_, _, rfl⟩

/-! ## Reset -/

/-- MEM after a reset is MEM, or MEM with the destination of the command in flight overwritten
(R231, R232). -/
theorem memAfterReset_cases (s : State) :
    s.memAfterReset = s.mem ∨
    ∃ i r bs, s.status.busy = true ∧ decode s.cmdlatch = .ok i ∧ errorOf i s = none ∧
      destOf i s = some r ∧ bs.length = r.len ∧ s.memAfterReset = s.mem.write r.base bs := by
  unfold State.memAfterReset
  split
  · exact .inl rfl
  · rename_i i hi
    split
    · exact .inl rfl
    · rename_i r hr
      unfold State.inFlight at hi
      split at hi
      · rename_i hb
        split at hi
        · simp at hi
        · rename_i j hd
          split at hi
          · simp at hi
          · rename_i he
            obtain rfl : j = i := by simpa using hi
            refine .inr ⟨j, r, _, hb, hd, by simpa using he, hr, ?_, rfl⟩
            simp
      · simp at hi

end Sys2Proof.Machine
end

