-- ==== Sys2Proof/Tests/Slice0.lean ====
section
/-!
SUPPORT. Tests of the model, and a witness for the hypotheses of every obligation that has hypotheses.
Expected results come from spec/95_test_vectors.md (V and P numbers) or from a calculation by hand from the
rule named. `decide +kernel` has the kernel evaluate; it adds no axiom.
-/

namespace Sys2Proof.Tests

-- One theorem at a time: each evaluation by the kernel takes a large stack of its own.
set_option Elab.async false

open Sys2Proof Sys2Proof.Machine

/-! ## Helpers -/

/-- Reset with `n` bytes of MEM and the window at address 0. -/
def idle (n : Nat) : State := { State.reset with cfg := { memBytes := n, windowBase := 0 } }

/-- The bytes 0, 1, ..., n − 1: the message "iota n" of V4. -/
def iotaBytes (n : Nat) : List Byte := (List.range n).map fun k => BitVec.ofNat 8 k

/-- A property of the next state; false where the machine stops. -/
def next (r : Result) (p : State → Bool) : Bool :=
  match r with
  | .next t => p t
  | .fault _ | .refused _ => false

/-- EpochSeed(1), from V20. -/
def seedOne : List Byte :=
  [0x29, 0x0d, 0xec, 0xd9, 0x54, 0x8b, 0x62, 0xa8, 0xd6, 0x03, 0x45, 0xa9, 0x88, 0x38, 0x6f, 0xc8] ++
  [0x4b, 0xa6, 0xbc, 0x95, 0x48, 0x40, 0x08, 0xf6, 0x36, 0x2f, 0x93, 0x16, 0x0e, 0xf3, 0xe5, 0x63]

/-- K256 of the empty message, from V1. -/
def emptyHash : List Byte :=
  [0xc5, 0xd2, 0x46, 0x01, 0x86, 0xf7, 0x23, 0x3c, 0x92, 0x7e, 0x7d, 0xb2, 0xdc, 0xc7, 0x03, 0xc0] ++
  [0xe5, 0x00, 0xb6, 0x53, 0xca, 0x82, 0x27, 0x3b, 0x7b, 0xfa, 0xd8, 0x04, 0x5d, 0x85, 0xa4, 0x70]

/-- K512 of 64 zero bytes, from V1: the one item of a light cache of one item (V42). -/
def oneItem : List Byte :=
  [0xa8, 0x62, 0x0b, 0x2e, 0xbe, 0xca, 0x41, 0xfb, 0xc7, 0x73, 0xbb, 0x83, 0x7b, 0x5e, 0x72, 0x4d] ++
  [0x6e, 0xb2, 0xde, 0x57, 0x0d, 0x99, 0x85, 0x8d, 0xf0, 0xd7, 0xd9, 0x70, 0x67, 0xfb, 0x81, 0x03] ++
  [0xb2, 0x17, 0x57, 0x87, 0x3b, 0x73, 0x50, 0x97, 0xb3, 0x5d, 0x3b, 0xea, 0x8f, 0xd1, 0xc3, 0x59] ++
  [0xa9, 0xe8, 0xa6, 0x3c, 0x15, 0x40, 0xc7, 0x6c, 0x97, 0x84, 0xcf, 0x8d, 0x97, 0x5e, 0x99, 0x5c]

/-- A context of one item at 0x100, with that item in MEM. -/
def oneItemCache (n : Nat) : State :=
  ((idle n).setCtx { lcbase := 0x100, lccount := 1 }).memWrite 0x100 oneItem

/-! ## WellFormed refuses an ill-formed word for each of its checks (R72, R75) -/

/-- OP at both ends of each reserved range of R75. -/
theorem test_wellFormed_refuses_reserved_op :
    [0x00#32, 0x0F#32, 0x1A#32, 0x1F#32, 0x22#32, 0x2F#32, 0x34#32, 0x37#32, 0x3B#32, 0x3F#32,
      0x42#32, 0x4F#32, 0x53#32, 0xFF#32].all (fun w => !wellFormed w) = true := by decide +kernel

/-- FN ≠ 0 (V61). -/
theorem test_wellFormed_refuses_fn : wellFormed 0x01000010 = false := by decide

/-- RD ≠ 0 in a sub-format without RD (V61). -/
theorem test_wellFormed_refuses_unused_rd :
    wellFormed 0x00000110 = false ∧ wellFormed 0x00321A18 = false := by decide

/-- RA ≠ 0 in sub-format N. -/
theorem test_wellFormed_refuses_unused_ra : wellFormed 0x00001010 = false := by decide

/-- RB ≠ 0 in a sub-format without RB. -/
theorem test_wellFormed_refuses_unused_rb : wellFormed 0x00011011 = false := by decide

/-- RC ≠ 0 in a sub-format without RC (V61). -/
theorem test_wellFormed_refuses_unused_rc : wellFormed 0x00101011 = false := by decide

/-- The legal rows of V61: register 0 is an ordinary register. -/
theorem test_wellFormed_accepts_register_zero :
    wellFormed 0x00000920 = true ∧ wellFormed 0x00001120 = true := by decide

/-! ## Decoding the words of V60, which the spec writes out from the encoding -/

theorem test_decode_keccak_family :
    decode 0x00000010 = .ok .keccakf ∧ decode 0x00001011 = .ok (.sload 1) ∧
    decode 0x00001012 = .ok (.sstore 1) ∧ decode 0x00000013 = .ok .sinit256 ∧
    decode 0x00000014 = .ok .sinit512 ∧ decode 0x00021015 = .ok (.sabsorb 1 2) ∧
    decode 0x00000016 = .ok .sfinal ∧ decode 0x00001017 = .ok (.ssqueeze 1) ∧
    decode 0x00321018 = .ok (.keccak256 1 2 3) ∧ decode 0x00321019 = .ok (.keccak512 1 2 3) := by decide

theorem test_decode_fnv_and_epoch_families :
    decode 0x00021420 = .ok (.fnv1 4 1 2) ∧ decode 0x00321021 = .ok (.fnv1v 1 2 3) ∧
    decode 0x00301030 = .ok (.eseed 1 3) ∧ decode 0x00001431 = .ok (.enum 4 1) ∧
    decode 0x00000032 = .ok .ecrst ∧ decode 0x00001433 = .ok (.ecip 4 1) := by decide

theorem test_decode_size_cache_and_dataset_families :
    decode 0x00001438 = .ok (.prime 4 1) ∧ decode 0x00001439 = .ok (.lcount 4 1) ∧
    decode 0x0000143A = .ok (.dcount 4 1) ∧ decode 0x00021040 = .ok (.ctxset 1 2) ∧
    decode 0x00001041 = .ok (.buildlc 1) ∧ decode 0x00301050 = .ok (.ditem512 1 3) ∧
    decode 0x00301051 = .ok (.ditem1024 1 3) ∧ decode 0x00301052 = .ok (.ditem2048 1 3) := by decide

/-- The illegal rows of V61 are rejected by name. -/
theorem test_decode_rejects :
    decode 0x00000000 = .error (.reservedOpcode 0x00) ∧ decode 0x000000FF = .error (.reservedOpcode 0xFF) ∧
    decode 0x00000034 = .error (.reservedOpcode 0x34) ∧
    decode 0x01000010 = .error (.reservedBits 0x01000000) ∧
    decode 0x00000110 = .error (.reservedBits 0x00000100) ∧
    decode 0x00101011 = .error (.reservedBits 0x00100000) ∧
    decode 0x00321A18 = .error (.reservedBits 0x00000A00) := by decide

/-- The two readings of a table word, and the first step after reset (V60, R77). -/
theorem test_table_words :
    decodeTableWord 32 0x00021420 = some (.fnv1 4 1 2) ∧ decodeTableWord 32 0x34 = none ∧
    next (step (State.reset.withFetchWord 32 0x32)) (fun t =>
      t == { State.reset with cmdlatch := 0x32 } ) = true := by decide +kernel

/-! ## Results, one step each -/

/-- V2: KECCAKF of the zero state, lanes S[0] and S[24]. -/
theorem test_keccakf_zero_state :
    next (exec .keccakf (idle 0)) (fun t => elem t.sponge.lanes 0 == 0xf1258f7940e1dde7 &&
      elem t.sponge.lanes 24 == 0xeaf1ff7b5ceca249) = true := by decide +kernel

/-- By hand from R54: bytes 1 to 8 are lane 0, 0x0807060504030201. -/
theorem test_sload_little_endian :
    next (exec (.sload 1) ((idle 200).memWrite 0 [1, 2, 3, 4, 5, 6, 7, 8]))
      (fun t => elem t.sponge.lanes 0 == 0x0807060504030201 && elem t.sponge.lanes 1 == 0) = true := by
  decide +kernel

/-- By hand from R54: lane 1 goes to bytes 8 to 15, least significant byte first. -/
theorem test_sstore_little_endian :
    next (exec (.sstore 1) ((idle 200).setSponge { Sponge.reset with
        lanes := Sponge.reset.lanes.set 1 0xA1B2C3D4E5F60718 }))
      (fun t => t.mem.read 8 == 0x18 && t.mem.read 15 == 0xA1 && t.mem.read 0 == 0) = true := by
  decide +kernel

/-- V5, V63: SCTRL after SINIT256, and after SINIT512. -/
theorem test_sinit_sctrl :
    next (exec .sinit256 (idle 0)) (fun t => t.sponge.sctrl == 0x0001) = true ∧
    next (exec .sinit512 (idle 0)) (fun t => t.sponge.sctrl == 0x0005) = true := by decide +kernel

/-- V5: S[0] and SCTRL after absorbing "abc". -/
theorem test_sabsorb_abc :
    next (exec (.sabsorb 1 2) ((((idle 16).setSponge (Sponge.start .w256)).memWrite 0 [0x61, 0x62, 0x63]).writeX
        2 3)) (fun t => elem t.sponge.lanes 0 == 0x636261 && t.sponge.sctrl == 0x0301) = true := by
  decide +kernel

/-- V6: a zero-length region is valid anywhere. -/
theorem test_sabsorb_empty_region :
    let s := ((idle 16).setSponge (Sponge.start .w256)).writeX 1 0xFFFFFFFFFFFFFFFF
    next (exec (.sabsorb 1 2) s) (fun t => t == s) = true := by decide +kernel

/-- V5: SFINAL before its permutation, lanes S[0] and S[16]. -/
theorem test_sfinal_padding :
    let S := (((Sponge.start .w256).absorbAll [0x61, 0x62, 0x63]).padded)
    elem S 0 = 0x0000000001636261 ∧ elem S 16 = 0x8000000000000000 := by decide +kernel

/-- V6: SFINAL twice raises SEQUENCE on the second, and the permutation ran on the first (V5: S[0]). -/
theorem test_sfinal_abc :
    next (exec .sfinal ((idle 0).setSponge ((Sponge.start .w256).absorbAll [0x61, 0x62, 0x63])))
      (fun t => elem t.sponge.lanes 0 == 0x4fa945ea7a65034e && t.sponge.sctrl == 0x0002 &&
        next (exec .sfinal t) (fun u => u == t.raise .sequence 0)) = true := by decide +kernel

/-- V6: SSQUEEZE right after SINIT256 raises SEQUENCE. -/
theorem test_ssqueeze_sequence :
    let s := (idle 64).setSponge (Sponge.start .w256)
    next (exec (.ssqueeze 1) s) (fun t => t == s.raise .sequence 0) = true := by decide +kernel

/-- V1, P4: KECCAK256 of the empty region at the end of MEM. -/
theorem test_keccak256_empty :
    next (exec (.keccak256 5 6 3) ((idle 0x1000).writeX 5 0x1000))
      (fun t => (t.memRead 0 32).toList == emptyHash) = true := by decide +kernel

/-- V4: the last byte of the block and the padding meet in 0x81. -/
theorem test_keccak512_iota71 :
    next (exec (.keccak512 1 2 3) (((idle 0x100).memWrite 0 (iotaBytes 71)).writeX 2 71))
      (fun t => t.mem.read 0 == 0xfe && t.mem.read 1 == 0x09 && t.mem.read 63 == 0x15) = true := by
  decide +kernel

/-- V15: the rows that show the order of multiply and XOR, and the ignored high halves. -/
theorem test_fnv1 :
    next (exec (.fnv1 3 1 2) (((idle 0).writeX 1 0x12345678).writeX 2 0x9ABCDEF0))
      (fun t => t.readX 3 == 0xBAD8C018) = true ∧
    next (exec (.fnv1 3 1 2) (((idle 0).writeX 1 0xFFFFFFFF00000001).writeX 2 0x1234567800000000))
      (fun t => t.readX 3 == 0x1000193) = true := by decide +kernel

/-- V14, V16: FNV1V of bytes 00..3F and 40..7F, and with the sources exchanged. -/
theorem test_fnv1v :
    next (exec (.fnv1v 1 2 3) ((((idle 256).memWrite 0 (iotaBytes 128)).writeX 2 64).writeX 3 128))
      (fun t => (t.memRead 128 4).toList == [0x40, 0xd2, 0x65, 0xff] && t.mem.read 191 == 0xb5) = true ∧
    next (exec (.fnv1v 2 1 3) ((((idle 256).memWrite 0 (iotaBytes 128)).writeX 2 64).writeX 3 128))
      (fun t => (t.memRead 128 4).toList == [0xc0, 0xb6, 0x4e, 0x22]) = true := by decide +kernel

/-- V20: EpochSeed(1). -/
theorem test_eseed_one :
    next (exec (.eseed 1 3) ((idle 32).writeX 1 1)) (fun t => (t.memRead 0 32).toList == seedOne) = true := by
  decide +kernel

/-- V23: INVALID_EPOCH comes before the destination's BUS_FAULT. -/
theorem test_eseed_priority :
    next (exec (.eseed 1 3) (((idle 32).writeX 1 0xFFFFFFFFFFFFFFFF).writeX 3 0xFFFFFFFFFFFFFFFF))
      (fun t => t.status.word == 0x0402 && t.erraddr == 0) = true := by decide +kernel

/-- V21: the cached seed, and one hash step on. -/
theorem test_enum_cached_and_next :
    next (exec (.enum 4 1) ((idle 32).writeX 4 7))
      (fun t => t.readX 4 == 0 && t.ecache.ecepoch == 0 && !t.status.nf) = true ∧
    next (exec (.enum 4 1) ((idle 32).memWrite 0 seedOne))
      (fun t => t.readX 4 == 1 && t.ecache.ecepoch == 1 && t.ecache.ecseed.toList == seedOne) = true := by
  decide +kernel

/-- V21: a scan that hits, from a cache that is past the answer (EpochSeed(0), cache at epoch 1). -/
theorem test_enum_scan :
    next (exec (.enum 4 1) ((idle 32).setEcache { ecepoch := 6, ecseed := Vector.replicate 32 7 }))
      (fun t => t.readX 4 == 0 && t.ecache.ecepoch == 0 && !t.status.nf) = true := by decide +kernel

/-- R145: the pair is reset and NF stays. -/
theorem test_ecrst :
    next (exec .ecrst ((idle 0).setNf true)) (fun t => t == (idle 0).setNf true) = true ∧
    next (exec .ecrst ((idle 0).setEcache { ecepoch := 5, ecseed := Vector.replicate 32 1 }))
      (fun t => t.ecache.ecepoch == 0 && t.ecache.ecseed == Vector.replicate 32 0) = true := by decide +kernel

/-- V22: the halving boundary, and the epochs out of range. -/
theorem test_ecip :
    next (exec (.ecip 4 1) ((idle 0).writeX 1 389)) (fun t => t.readX 4 == 389) = true ∧
    next (exec (.ecip 4 1) ((idle 0).writeX 1 391)) (fun t => t.readX 4 == 195) = true ∧
    next (exec (.ecip 4 1) ((idle 0).writeX 1 0x7FFFFFFF)) (fun t => t.readX 4 == 1073741823) = true ∧
    next (exec (.ecip 4 1) ((idle 0).writeX 1 0x80000000)) (fun t => t.status.word == 0x0402) = true := by
  decide +kernel

/-- V30, E5: PRIME at its corners. -/
theorem test_prime :
    [17, 16, 1, 2, 4, 262144, 0xFFFFFFFFFFFFFFFB].map (fun b =>
      next (exec (.prime 4 1) ((idle 0).writeX 1 b)) (fun t => t.readX 4 ==
        if b = 17 then 17 else if b = 16 then 13 else if b = 1 then 0 else if b = 2 then 2
        else if b = 4 then 3 else if b = 262144 then 262139 else 0)) = List.replicate 7 true := by
  decide +kernel

/-- V31, V33: LCOUNT of 0 and of 390. -/
theorem test_lcount :
    next (exec (.lcount 4 1) (idle 0)) (fun t => t.readX 4 == 262139) = true ∧
    next (exec (.lcount 4 1) ((idle 0).writeX 1 390)) (fun t => t.readX 4 == 1060861) = true := by
  decide +kernel

/-- V31: DCOUNT of 0 and of 195. -/
theorem test_dcount :
    next (exec (.dcount 4 1) (idle 0)) (fun t => t.readX 4 == 8388593) = true ∧
    next (exec (.dcount 4 1) ((idle 0).writeX 1 195)) (fun t => t.readX 4 == 21168113) = true := by
  decide +kernel

/-- V44: the last region that fits and the first that does not. -/
theorem test_ctxset :
    next (exec (.ctxset 1 2) (((idle 0x2000).writeX 1 0x1000).writeX 2 64))
      (fun t => t.ctx.lcbase == 0x1000 && t.ctx.lccount == 64) = true ∧
    next (exec (.ctxset 1 2) (((idle 0x2000).writeX 1 0x1000).writeX 2 65))
      (fun t => t.status.word == 0x0502 && t.erraddr == 0x1000 && t.ctx.lccount == 0) = true ∧
    next (exec (.ctxset 1 2) (((idle 0x2000).writeX 1 0x1000).writeX 2 0x100000000))
      (fun t => t.status.word == 0x0302) = true := by decide +kernel

/-- V42: a cache of one item is K512 of 64 zero bytes. -/
theorem test_buildlc_one_item :
    next (exec (.buildlc 1) ((idle 0x200).setCtx { lcbase := 0x100, lccount := 1 }))
      (fun t => (t.memRead 0x100 64).toList == oneItem) = true := by decide +kernel

/-- By hand from R130 and R180: a mix of zeros takes over its parent, since fnv1(0, v) = v. -/
theorem test_mixRound_of_zeros :
    let s := oneItemCache 0x200
    (mixRound s.ctx s.mem 0 (zeros 64) 0).toList = oneItem := by decide +kernel

/-- V56: with LCCOUNT = 0 every DITEM command raises CONTEXT, whatever its destination. -/
theorem test_ditem_context :
    [Instr.ditem512 1 3, .ditem1024 1 3, .ditem2048 1 3].map (fun i =>
      next (exec i ((idle 0).writeX 3 0xFFFFFFFFFFFFFFFF)) (fun t => t.status.word == 0x0302)) =
      [true, true, true] := by decide +kernel

/-! ## The host window and errors (V62, V63, P4) -/

/-- P4: a BUS_FAULT, its record as the host reads it, and a discarded CMD write. -/
theorem test_bus_fault_record :
    let s := (((idle 0x1000).writeX 1 0xFF0).writeX 2 0x20).latch 0x00321018
    next (step s) (fun t => t.windowWord 0x088 == 0x0502 && t.windowWord 0x090 == 0x00321018 &&
      t.windowWord 0x098 == 0xFF0 &&
      next (step (t.setQueue [.write .b64 0x080 0x16])) (fun u => u == t)) = true := by decide +kernel

/-- V62: ILLEGAL_CMD, and NF, in STATUS. -/
theorem test_status_values :
    next (step ((idle 0).latch 0x01000010)) (fun t => t.windowWord 0x088 == 0x0102) = true ∧
    ((idle 0).setNf true).windowWord 0x088 = 0x0004 := by decide +kernel

/-- V63: an X write while BUSY = 1 is ignored and sets OVR; a write to LCBASE is ignored. -/
theorem test_window_writes :
    next (step (((idle 0).latch 0x10).setQueue [.write .b64 0x018 9]))
      (fun t => t == ((idle 0).latch 0x10).setOvr) = true ∧
    next (step ((idle 0).setQueue [.write .b64 0x0A0 9])) (fun t => t == idle 0) = true := by decide +kernel

/-! ## Witnesses: concrete states and operands that meet the hypotheses of each obligation -/

/-- `next` says that the machine goes on, to a state with the property. -/
theorem next_eq_true {r : Result} {p : State → Bool} (h : next r p = true) :
    ∃ t, r = .next t ∧ p t = true := by
  cases r with
  | next t => exact ⟨t, rfl, h⟩
  | fault f => simp [next] at h
  | refused r => simp [next] at h

/-- `n` bytes of MEM, with `v` in X[1]. -/
def withOne (n : Nat) (v : Word) : State := (idle n).writeX 1 v

/-- `n` bytes of MEM, with `u`, `v` and `w` in X[1], X[2] and X[3]. -/
def withThree (n : Nat) (u v w : Word) : State := (((idle n).writeX 1 u).writeX 2 v).writeX 3 w

/-- The command `i` in flight, nothing pending, `n` bytes of MEM. -/
def inFlight (n : Nat) (i : Instr) : State := (idle n).latch (encode i)

/-- The outside actions `q` pending, nothing in flight, `n` bytes of MEM. -/
def pending (n : Nat) (q : List HostAction) : State := (idle n).setQueue q

theorem test_hyps_EncodeOfDecodeIsTheWord : decode 0x00321018 = .ok (.keccak256 1 2 3) := by decide

/-- A command that goes on with nothing pending, one that stops, one with a `wait` pending, an idle machine,
and an idle one with a `wait` pending. -/
theorem test_hyps_StepRunsTheLatchedCommand :
    let s := ((idle 64).setCtx { lcbase := 1, lccount := 1 }).latch 0x1041
    (inFlight 0 .ecrst).status.busy = true ∧ (inFlight 0 .ecrst).hostQueue = [] ∧
    decode (inFlight 0 .ecrst).cmdlatch = .ok .ecrst ∧
    next (exec .ecrst (inFlight 0 .ecrst)) (fun _ => true) = true ∧
    s.status.busy = true ∧ s.hostQueue = [] ∧ decode s.cmdlatch = .ok (.buildlc 1) ∧
    next (exec (.buildlc 1) s) (fun _ => true) = false ∧
    ((inFlight 0 .ecrst).setQueue [.wait, .reset]).hostQueue = .wait :: [.reset] ∧
    (idle 0).status.busy = false ∧ (idle 0).hostQueue = [] ∧
    (pending 0 [.wait, .reset]).status.busy = false ∧
    (pending 0 [.wait, .reset]).hostQueue = .wait :: [.reset] := by decide +kernel

theorem test_hyps_IllegalWordRaisesIllegalCmd :
    ((idle 0).latch 0xFF).engineMoves = true ∧ wellFormed ((idle 0).latch 0xFF).cmdlatch = false := by decide

/-- By hand from R103: position 199 is byte 7 of lane 24, and eight bytes at 192 are lane 24. -/
theorem test_hyps_AbsorbedBytesMakeLittleEndianLanes :
    elem (absorbByte (Vector.replicate 25 0) 199 0x5A) 24 = 0x5A00000000000000 ∧
    elem ((List.range 8).foldl (fun S k => absorbByte S (8 * 24 + k) (BitVec.ofNat 8 (k + 1)))
      (Vector.replicate 25 0)) 24 = 0x0807060504030201 := by decide +kernel

/-- An empty piece outside MEM, a piece that ends at the end of MEM, and digests that do too. -/
theorem test_hyps_SpongeRunEqualsOneShotHash :
    let s := (withThree 0x240 0x23F 1 0).writeX 4 0xFFFFFFFFFFFFFFFF
    (∀ p ∈ [((1 : RegIdx), (2 : RegIdx)), (4, 3)], (s.readX p.2).toNat = 0 ∨
      (s.readX p.1).toNat + (s.readX p.2).toNat ≤ s.cfg.memBytes) ∧
    ((s.writeX 5 0x220).readX 5).toNat + 32 ≤ s.cfg.memBytes ∧
    ((s.writeX 5 0x200).readX 5).toNat + 64 ≤ s.cfg.memBytes := by decide +kernel

/-- Each clause: in ABSORB (width 512, so the rate is 72) with a full region and with an empty one, in IDLE
(width 256, rate 136), and a command that leaves the sponge. -/
theorem test_hyps_SpongePhasesFollowTheTable :
    let s := (withThree 8 3 5 0).setSponge { Sponge.start .w512 with spos := 71 }
    72 = (if s.sponge.sw = .w256 then 136 else 72) ∧ s.sponge.spos < 72 ∧ s.sponge.sph = .absorb ∧
    (s.readX 1).toNat + (s.readX 2).toNat ≤ s.cfg.memBytes ∧ (s.readX 3).toNat = 0 ∧
    (idle 8).sponge.sph ≠ .absorb ∧ (idle 8).sponge.sph ≠ .squeeze ∧
    136 = (if (idle 8).sponge.sw = .w256 then 136 else 72) ∧ (idle 8).sponge.spos < 136 ∧
    movesSponge .ecrst = false ∧ next (exec .ecrst s) (fun _ => true) = true := by decide +kernel

/-- The last address that fits, and the first that does not, for SLOAD and SSTORE. -/
theorem test_hyps_SloadLoadsTheStateImage :
    ((withOne 201 1).readX 1).toNat + 200 ≤ (withOne 201 1).cfg.memBytes ∧
    (withOne 201 2).cfg.memBytes < ((withOne 201 2).readX 1).toNat + 200 := by decide +kernel

theorem test_hyps_SstoreStoresTheStateImage :
    ((withOne 200 0).readX 1).toNat + 200 ≤ (withOne 200 0).cfg.memBytes ∧
    (withOne 200 0xFFFFFFFFFFFFFFFF).cfg.memBytes <
      ((withOne 200 0xFFFFFFFFFFFFFFFF).readX 1).toNat + 200 := by decide +kernel

theorem test_hyps_SabsorbAbsorbsByteByByte :
    let s := (withThree 8 3 5 6).setSponge { Sponge.start .w256 with spos := 135 }
    136 = (if s.sponge.sw = .w256 then 136 else 72) ∧
    (idle 8).sponge.sph ≠ .absorb ∧ s.sponge.sph = .absorb ∧
    (s.readX 2).toNat ≠ 0 ∧ (s.readX 1).toNat + (s.readX 2).toNat ≤ s.cfg.memBytes ∧
    (s.readX 3).toNat ≠ 0 ∧ s.cfg.memBytes < (s.readX 1).toNat + (s.readX 3).toNat := by decide +kernel

theorem test_hyps_SfinalPadsAndPermutes :
    let s := (idle 0).setSponge { Sponge.start .w512 with spos := 71 }
    let u := (idle 0).setSponge { Sponge.start .w256 with spos := 135 }
    (idle 0).sponge.sph ≠ .absorb ∧ s.sponge.sph = .absorb ∧ u.sponge.sph = .absorb ∧
    72 = (if s.sponge.sw = .w256 then 136 else 72) ∧ 8 = (if s.sponge.sw = .w256 then 16 else 8) ∧
    s.sponge.spos < 72 ∧
    136 = (if u.sponge.sw = .w256 then 136 else 72) ∧ 16 = (if u.sponge.sw = .w256 then 16 else 8) ∧
    u.sponge.spos < 136 := by decide

theorem test_hyps_SsqueezeWritesTheDigest :
    let s := (withThree 64 0 1 33).setSponge { Sponge.reset with sph := .squeeze, sw := .w512 }
    64 = (if s.sponge.sw = .w256 then 32 else 64) ∧ s.sponge.sph = .squeeze ∧
    (s.readX 1).toNat + 64 ≤ s.cfg.memBytes ∧ s.cfg.memBytes < (s.readX 2).toNat + 64 ∧
    32 = (if (idle 0).sponge.sw = .w256 then 32 else 64) ∧ (idle 0).sponge.sph ≠ .squeeze := by
  decide +kernel

/-- The source too long, the destinations too high, and both that fit, at the end of MEM. -/
theorem test_hyps_OneShotCommandsWriteTheHash :
    let s := (withThree 0x100 0xC0 0x40 0xC1).writeX 4 0xE1
    (s.readX 3).toNat ≠ 0 ∧ s.cfg.memBytes < (s.readX 1).toNat + (s.readX 3).toNat ∧
    (s.readX 1).toNat + (s.readX 2).toNat ≤ s.cfg.memBytes ∧
    s.cfg.memBytes < (s.readX 4).toNat + 32 ∧ s.cfg.memBytes < (s.readX 3).toNat + 64 ∧
    (s.readX 1).toNat + 32 ≤ s.cfg.memBytes ∧ (s.readX 1).toNat + 64 ≤ s.cfg.memBytes := by decide +kernel

/-- The error record of each region, in the order of R133, and all three that fit. -/
theorem test_hyps_FnvVectorMixesSixteenWords :
    let s := withThree 64 0 1 0
    s.cfg.memBytes < (s.readX 2).toNat + 64 ∧ (s.readX 1).toNat + 64 ≤ s.cfg.memBytes ∧
    (s.readX 3).toNat + 64 ≤ s.cfg.memBytes := by decide +kernel

theorem test_hyps_EseedWritesTheHashChain :
    let s := (withThree 33 0x7FFFFFFF 0x80000000 1).writeX 4 2
    (2 ^ 31 - 1 < (s.readX 2).toInt ∧ (s.writeX 2 0xFFFFFFFFFFFFFFFF |>.readX 2).toInt < 0) ∧
    0 ≤ (s.readX 1).toInt ∧ (s.readX 1).toInt ≤ 2 ^ 31 - 1 ∧
    s.cfg.memBytes < (s.readX 4).toNat + 32 ∧ (s.readX 3).toNat + 32 ≤ s.cfg.memBytes := by decide +kernel

/-- The region that fits, the cached seed, one step on (EpochSeed(1), V20), and a scan that hits. -/
theorem test_hyps_EnumFollowsTheLookupOrder :
    let s := (idle 32).memWrite 0 seedOne
    let u := (idle 32).setEcache { ecepoch := 6, ecseed := Vector.replicate 32 7 }
    ((idle 32).readX 1).toNat + 32 ≤ (idle 32).cfg.memBytes ∧
    (withOne 32 1).cfg.memBytes < ((withOne 32 1).readX 1).toNat + 32 ∧
    (idle 32).mem.readBytes 0 32 = (idle 32).ecache.ecseed ∧
    s.mem.readBytes 0 32 ≠ s.ecache.ecseed ∧ s.mem.readBytes 0 32 = k256 s.ecache.ecseed.toList ∧
    u.mem.readBytes 0 32 ≠ u.ecache.ecseed ∧ u.mem.readBytes 0 32 ≠ k256 u.ecache.ecseed.toList ∧
    epochSeed 0 = u.mem.readBytes 0 32 := by decide +kernel

/-- Some query has no epoch below 30000, whatever is cached: there are more queries than answers. -/
theorem test_hyps_EnumFollowsTheLookupOrder_notFound (c : EpochCache) :
    ∃ q : Bytes 32, q ≠ c.ecseed ∧ q ≠ k256 c.ecseed.toList ∧ ∀ i < 30000, epochSeed i ≠ q := by
  let f : Nat → Bytes 32 := fun n =>
    Vector.ofFn fun k => if k.val = 0 then BitVec.ofNat 8 n else if k.val = 1 then BitVec.ofNat 8 (n / 256)
      else 0
  have hinj : ∀ a < 65536, ∀ b < 65536, f a = f b → a = b := by
    intro a ha b hb h
    have h0 : elem (f a) 0 = elem (f b) 0 := by rw [h]
    have h1 : elem (f a) 1 = elem (f b) 1 := by rw [h]
    simp only [f, elem_ofFn _ (show 0 < 32 by decide), elem_ofFn _ (show 1 < 32 by decide), if_true,
      if_neg Nat.one_ne_zero] at h0 h1
    have h0 := congrArg BitVec.toNat h0
    have h1 := congrArg BitVec.toNat h1
    simp only [BitVec.toNat_ofNat] at h0 h1
    omega
  let S : Finset (Bytes 32) :=
    insert c.ecseed (insert (k256 c.ecseed.toList) ((Finset.range 30000).image epochSeed))
  let T : Finset (Bytes 32) := (Finset.range 30003).image f
  have hS : S.card ≤ 30002 := by
    have h1 : ((Finset.range 30000).image epochSeed).card ≤ 30000 := by
      simpa using Finset.card_image_le (s := Finset.range 30000) (f := epochSeed)
    have h2 := Finset.card_insert_le (k256 c.ecseed.toList) ((Finset.range 30000).image epochSeed)
    have h3 := Finset.card_insert_le c.ecseed
      (insert (k256 c.ecseed.toList) ((Finset.range 30000).image epochSeed))
    exact h3.trans (by omega)
  have hT : T.card = 30003 := by
    rw [Finset.card_image_of_injOn, Finset.card_range]
    intro a ha b hb h
    have ha : a < 30003 := by simpa using ha
    have hb : b < 30003 := by simpa using hb
    exact hinj a (by omega) b (by omega) h
  obtain ⟨q, _, hq⟩ := Finset.exists_mem_notMem_of_card_lt_card (show S.card < T.card by omega)
  refine ⟨q, fun h => hq ?_, fun h => hq ?_, fun i hi h => hq ?_⟩
  · rw [h]; exact Finset.mem_insert_self _ _
  · rw [h]; exact Finset.mem_insert_of_mem (Finset.mem_insert_self _ _)
  · refine Finset.mem_insert_of_mem (Finset.mem_insert_of_mem ?_)
    exact Finset.mem_image.2 ⟨i, Finset.mem_range.2 hi, h⟩

/-- From reset with 32 bytes of MEM: the query of zeros is the cached seed. -/
theorem test_hyps_EnumAnswersATrueEpoch :
    (idle 32).SeedTrue ∧ (idle 32).ecache.ecepoch.toNat < 2 ^ 64 - 1 ∧
    ((idle 32).readX 1).toNat + 32 ≤ (idle 32).cfg.memBytes ∧
    next (exec (.enum 4 1) (idle 32)) (fun _ => true) = true := by
  refine ⟨rfl, ?_⟩
  decide +kernel

theorem test_hyps_EcipHalvesFrom390 :
    2 ^ 31 - 1 < ((withOne 0 0x80000000).readX 1).toInt ∧
    ((withOne 0 0xFFFFFFFFFFFFFFFF).readX 1).toInt < 0 ∧
    0 ≤ ((withOne 0 0x7FFFFFFF).readX 1).toInt ∧ ((withOne 0 0x7FFFFFFF).readX 1).toInt ≤ 2 ^ 31 - 1 := by
  decide +kernel

theorem test_hyps_PrimeWritesTheLargestPrime :
    ((withOne 0 1).readX 1).toInt < 2 ∧ 2 ≤ ((withOne 0 2).readX 1).toInt ∧
    ((withOne 0 0x8000000000000000).readX 1).toInt < 2 ∧ (2 : Nat).Prime :=
  ⟨by decide +kernel, by decide +kernel, by decide +kernel, Nat.prime_two⟩

theorem test_hyps_CountsAreLargestPrimesBelowTheirBounds :
    2 ^ 31 - 1 < ((withOne 0 0x80000000).readX 1).toInt ∧
    0 ≤ ((withOne 0 0).readX 1).toInt ∧ ((withOne 0 0x7FFFFFFF).readX 1).toInt ≤ 2 ^ 31 - 1 := by
  decide +kernel

theorem test_hyps_CountsArePrimeAndNonDecreasing : 1 ≤ 1 := le_rfl

/-- V44 with 2^32 and 2^32 − 1 items. -/
theorem test_hyps_CtxsetSetsTheContext :
    let s := (withThree 0x2000 0x1000 64 65).writeX 4 0x100000000
    (s.readX 0).toNat = 0 ∧ 2 ^ 32 - 1 < (s.readX 4).toNat ∧
    1 ≤ (s.readX 2).toNat ∧ (s.readX 2).toNat ≤ 2 ^ 32 - 1 ∧
    (s.readX 1).toNat + 64 * (s.readX 2).toNat ≤ s.cfg.memBytes ∧
    (s.readX 3).toNat ≤ 2 ^ 32 - 1 ∧ s.cfg.memBytes < (s.readX 1).toNat + 64 * (s.readX 3).toNat ∧
    ((s.writeX 5 0xFFFFFFFF).readX 5).toNat ≤ 2 ^ 32 - 1 := by decide +kernel

/-- A context whose region ends at the end of MEM, and no context. -/
theorem test_hyps_BuildlcRunsChainAndPasses :
    let s := (withThree 0x140 0x120 0x121 0).setCtx { lcbase := 0x100, lccount := 1 }
    (idle 0).ctx.lccount.toNat = 0 ∧ s.ctx.lccount.toNat ≠ 0 ∧
    (s.readX 1).toNat + 32 ≤ s.cfg.memBytes ∧ s.cfg.memBytes < (s.readX 2).toNat + 32 ∧
    s.ctx.lcbase.toNat + 64 * s.ctx.lccount.toNat ≤ s.cfg.memBytes := by decide +kernel

/-- Two machines with one count and one seed, with their regions at different places. -/
theorem test_hyps_BuildlcDependsOnCountAndSeedAlone :
    let s := (withOne 0x140 0).setCtx { lcbase := 0x40, lccount := 2 }
    let u := (withOne 0x200 0x20).setCtx { lcbase := 0x100, lccount := 2 }
    s.ctx.lccount = u.ctx.lccount ∧ s.ctx.lccount ≠ 0 ∧
    s.mem.readBytes (s.readX 1).toNat 32 = u.mem.readBytes (u.readX 1).toNat 32 ∧
    (s.readX 1).toNat + 32 ≤ s.cfg.memBytes ∧ (u.readX 1).toNat + 32 ≤ u.cfg.memBytes ∧
    next (exec (.buildlc 1) s) (fun _ => true) = true ∧
    next (exec (.buildlc 1) u) (fun _ => true) = true := by decide +kernel

theorem test_hyps_BuildlcOfOneItemForgetsTheSeed :
    let s := (withOne 0x140 0x120).setCtx { lcbase := 0x100, lccount := 1 }
    s.ctx.lccount = 1 ∧ (s.readX 1).toNat + 32 ≤ s.cfg.memBytes ∧
    s.ctx.lcbase.toNat + 64 ≤ s.cfg.memBytes := by decide +kernel

theorem test_hyps_DitemDerivesOneItem :
    let s := (withThree 0x140 0xFFFFFFFFFFFFFFFF 0x100 0x101).setCtx { lcbase := 0x100, lccount := 1 }
    (idle 0).ctx.lccount.toNat = 0 ∧ s.ctx.lccount.toNat ≠ 0 ∧
    (s.readX 2).toNat + 64 ≤ s.cfg.memBytes ∧ s.cfg.memBytes < (s.readX 3).toNat + 64 ∧
    s.ctx.lcbase.toNat + 64 * s.ctx.lccount.toNat ≤ s.cfg.memBytes := by decide +kernel

theorem test_hyps_DitemGroupsAreConsecutiveItems :
    let s := (withThree 0x140 0x40 0xC0 0xC1).setCtx { lcbase := 0x100, lccount := 1 }
    (idle 0).ctx.lccount = 0 ∧ s.ctx.lccount ≠ 0 ∧
    (s.readX 2).toNat + 128 ≤ s.cfg.memBytes ∧ s.cfg.memBytes < (s.readX 3).toNat + 128 ∧
    (s.readX 1).toNat + 256 ≤ s.cfg.memBytes ∧ s.cfg.memBytes < (s.readX 2).toNat + 256 ∧
    s.ctx.lcbase.toNat + 64 * s.ctx.lccount.toNat ≤ s.cfg.memBytes := by decide +kernel

/-- Two machines with one cache of one item, at 0x100 in one and at 0x140 in the other. -/
theorem test_hyps_DatasetItemsDependOnTheCacheAlone :
    let s := oneItemCache 0x200
    let u := ((idle 0x300).setCtx { lcbase := 0x140, lccount := 1 }).memWrite 0x140 oneItem
    s.readX 1 = u.readX 2 ∧ s.ctx.lccount = u.ctx.lccount ∧ s.ctx.lccount ≠ 0 ∧
    (List.range 64).all (fun j => s.mem.read (0x100 + j) == u.mem.read (0x140 + j)) = true ∧
    (s.readX 3).toNat + 256 ≤ s.cfg.memBytes ∧ (u.readX 3).toNat + 256 ≤ u.cfg.memBytes ∧
    [Instr.ditem512 1 3, .ditem1024 1 3, .ditem2048 1 3].all
      (fun i => next (exec i s) (fun _ => true) && next (exec i u) (fun _ => true)) = true := by
  decide +kernel

theorem test_hyps_LightCacheOutsideMemStops :
    let s := (idle 0x13F).setCtx { lcbase := 0x100, lccount := 1 }
    s.ctx.lccount ≠ 0 ∧ s.cfg.memBytes < s.ctx.lcbase.toNat + 64 * s.ctx.lccount.toNat ∧
    (s.readX 1).toNat + 32 ≤ s.cfg.memBytes ∧ (s.readX 3).toNat + 256 ≤ s.cfg.memBytes := by decide +kernel

/-- Each error of R201 that a command raises, and a command that raises none. -/
theorem test_hyps_CommandsRaiseTheirFirstError :
    errorOf .sfinal (idle 0) = some (.sequence, 0) ∧
    errorOf (.ditem512 1 3) (idle 0) = some (.context, 0) ∧
    errorOf (.ecip 2 1) (withOne 0 0x80000000) = some (.invalidEpoch, 0) ∧
    errorOf (.sload 1) (withOne 200 1) = some (.busFault, 1) ∧
    errorOf .ecrst (idle 0) = none ∧ next (exec .ecrst (idle 0)) (fun _ => true) = true := by decide +kernel

theorem test_hyps_ErrorsArePrecise :
    (inFlight 0 .sfinal).engineMoves = true ∧ (inFlight 0 .sfinal).status.err = false ∧
    next (step (inFlight 0 .sfinal)) (fun t => t.status.err) = true := by decide +kernel

/-- The CMD write of an idle machine with an error pending. -/
theorem test_hyps_CmdWriteIsDiscardedWhileErr :
    let s := ((idle 0).raise .sequence 0).setQueue [.write .b64 0x080 0x10]
    s.hostQueue = .write .b64 (s.cfg.windowBase + 0x080) 0x10 :: [] ∧ s.status.busy = false ∧
    s.status.err = true := by decide +kernel

/-- The lowest and the highest offset that set OVR. -/
theorem test_hyps_OverrunIsIgnoredAndRecorded :
    [0x000, 0x080].all (fun off =>
      let s := (inFlight 0 .ecrst).setQueue [.write .b64 off 1]
      s.hostQueue == [HostAction.write .b64 (s.cfg.windowBase + off) 1] && off % 8 == 0 &&
        decide (off ≤ 0x080) && s.status.busy) = true := by decide +kernel

theorem test_hyps_ClearingErrRestoresNothingElse :
    let s := ((idle 0).raise .sequence 0).setQueue [.write .b64 0x088 2, .write .b64 0x080 0x10]
    s.hostQueue = .write .b64 (s.cfg.windowBase + 0x088) 2 ::
      .write .b64 (s.cfg.windowBase + 0x080) 0x10 :: [] ∧
    s.status.busy = false ∧ (2#64).getLsbD 1 = true ∧ (2#64).getLsbD 3 = false := by decide +kernel

/-- An offset of each clause, while idle, while idle with an error, and while BUSY: the first and the last
X register, CMD, STATUS, and the first and the last offset above it. -/
theorem test_hyps_IdleHostWritesFollowTheTable :
    [0x000, 0x078, 0x080, 0x088, 0x090, 0x0F8].all (fun off =>
      let s := pending 0 [.write .b64 off 7]
      let e := s.raise .sequence 0
      let u := (inFlight 0 .ecrst).setQueue [.write .b64 off 7]
      [s, e, u].all (fun t => t.hostQueue == [HostAction.write .b64 (t.cfg.windowBase + off) 7]) &&
        off % 8 == 0 && decide (off < 256) && !s.status.busy && !s.status.err && !e.status.busy &&
        e.status.err && u.status.busy) = true ∧
    0x078 = 8 * (15 : RegIdx).toNat := by decide +kernel

/-- An offset of each clause, the window's first and last among them. -/
theorem test_hyps_IdleWindowReadsShowTheRegisters :
    [0x000, 0x078, 0x080, 0x088, 0x090, 0x098, 0x0A0, 0x0A8, 0x0B0, 0x0B8, 0x0D8, 0x0E0, 0x0F8].all (fun off =>
      let s := pending 0 [.read .b64 off]
      s.hostQueue == [HostAction.read .b64 (s.cfg.windowBase + off)] && off % 8 == 0 &&
        decide (off < 256) && !s.status.busy && decide (s.sponge.spos < 256)) = true ∧
    0x0D8 = 0x0C0 + 8 * 3 := by decide +kernel

theorem test_hyps_BusyStatusReadsShowOvr :
    [0x088, 0x0E0].all (fun off =>
      let s := (inFlight 0 .ecrst).setQueue [.read .b64 off]
      s.hostQueue == [HostAction.read .b64 (s.cfg.windowBase + off)] && off % 8 == 0 &&
        decide (off < 256) && s.status.busy) = true := by decide +kernel

/-- A 32-bit access, the address after the window, an unaligned one, a MEM access past the end, and one that
shares its last byte with the source of SLOAD in flight. -/
theorem test_hyps_UndutifulHostActionsStop :
    let s := ((withOne 300 100).latch 0x00001011).setQueue [.memWrite 99 [1, 2]]
    AccessWidth.b32 ≠ .b64 ∧ (idle 0).cfg.windowBase + 256 ≤ 256 ∧ (3 - (idle 0).cfg.windowBase) % 8 ≠ 0 ∧
    (pending 1 [.memRead 0 2]).cfg.memBytes < 0 + 2 ∧
    99 + 2 ≤ s.cfg.memBytes ∧ s.status.busy = true ∧ decode s.cmdlatch = .ok (.sload 1) ∧
    errorOf (.sload 1) s = none ∧
    (⟨100, 200⟩ : Region) ∈ sourcesOf (.sload 1) s ++ (destOf (.sload 1) s).toList ∧
    99 ≤ 100 ∧ 100 < 99 + 2 := by decide +kernel

/-- An access of no bytes outside MEM, a read up to the end of MEM, and a write up to the source of SLOAD in
flight. -/
theorem test_hyps_IdleHostMemoryAccessesAreOrdinary :
    let e := pending 4 [.memWrite 5 []]
    let s := pending 4 [.memRead 0 4]
    let u := ((withOne 300 100).latch 0x00001011).setQueue [.memWrite 98 [1, 2]]
    e.status.busy = false ∧ e.hostQueue = .memWrite 5 [] :: [] ∧ ([] : List Byte).length = 0 ∧
    s.status.busy = false ∧ s.hostQueue = .memRead 0 4 :: [] ∧ 0 + 4 ≤ s.cfg.memBytes ∧
    u.status.busy = true ∧ u.hostQueue = .memWrite 98 [1, 2] :: [] ∧ [1#8, 2].length = 2 ∧
    98 + 2 ≤ u.cfg.memBytes ∧ decode u.cmdlatch = .ok (.sload 1) ∧ errorOf (.sload 1) u = none ∧
    sourcesOf (.sload 1) u ++ (destOf (.sload 1) u).toList = [⟨100, 200⟩] ∧ 98 + 2 ≤ 100 := by
  decide +kernel

theorem test_hyps_ResetGivesEveryRegisterItsValue : (pending 0 [.reset]).hostQueue = .reset :: [] := by decide

/-- An idle reset, a reset that cuts SSTORE off, and one that cuts an illegal word off. -/
theorem test_hyps_ResetKeepsMemoryOutsideTheDestination :
    let s := (inFlight 300 (.sstore 1)).setQueue [.reset]
    (pending 0 [.reset]).status.busy = false ∧ s.hostQueue = .reset :: [] ∧ s.status.busy = true ∧
    decode s.cmdlatch = .ok (.sstore 1) ∧ destOf (.sstore 1) s = some ⟨0, 200⟩ ∧ 0 + 200 ≤ 200 ∧
    next (step s) (fun _ => true) = true ∧
    wellFormed (((idle 0).latch 0).setQueue [.reset]).cmdlatch = false := by decide +kernel

/-- A state with a command in flight meets the invariant. -/
theorem test_inFlight_inv : (inFlight 64 .ecrst).Inv where
  memCanonical := by decide
  memInside := by decide
  memSize := by decide
  sposBelowRate := by decide
  sposOutsideAbsorb := fun _ => rfl
  lccountRange := by decide
  lightCacheInside := by decide
  busyWithoutErr := fun _ => rfl
  ecodeWithErr := by decide
  errcmdWord := by decide
  erraddrOfOthers := fun _ _ => rfl

theorem test_hyps_StepKeepsTheInvariant :
    (inFlight 64 .ecrst).Inv ∧ ∃ t, step (inFlight 64 .ecrst) = .next t := by
  refine ⟨test_inFlight_inv, ?_⟩
  obtain ⟨t, ht, _⟩ := next_eq_true (r := step (inFlight 64 .ecrst)) (p := fun _ => true) (by decide +kernel)
  exact ⟨t, ht⟩

theorem test_hyps_StepKeepsTheSeedPairTrue :
    (inFlight 32 (.enum 4 1)).SeedTrue ∧ (inFlight 32 (.enum 4 1)).ecache.ecepoch.toNat < 2 ^ 64 - 1 ∧
    next (step (inFlight 32 (.enum 4 1))) (fun _ => true) = true := by
  refine ⟨rfl, ?_⟩
  decide +kernel

/-- A MEM write past the regions of the command in flight keeps the duties. -/
theorem test_hyps_DutifulHostNeverStopsTheMachine :
    (inFlight 64 .ecrst).Inv ∧ (inFlight 64 .ecrst).hostDuty = true ∧
    ((inFlight 300 (.sload 1)).setQueue [.memWrite 200 [1]]).hostDuty = true ∧
    ((inFlight 300 (.sload 1)).setQueue [.memWrite 199 [1]]).hostDuty = false :=
  ⟨test_inFlight_inv, by decide +kernel, by decide +kernel, by decide +kernel⟩

theorem test_hyps_RegistersHaveTheirOwnWriters :
    next (exec (.ecip 2 1) (idle 0)) (fun _ => true) = true ∧ destReg (.ecip 2 1) ≠ some 1 ∧
    writesLanes (.ecip 2 1) = false ∧ movesSponge (.ecip 2 1) = false := by decide +kernel

/-- SSTORE that stores, and SSTORE that faults. -/
theorem test_hyps_MemoryChangesOnlyInTheDestination :
    next (exec (.sstore 1) (idle 200)) (fun _ => true) = true ∧
    destOf (.sstore 1) (idle 200) = some ⟨0, 200⟩ ∧ errorOf (.sstore 1) (withOne 200 1) ≠ none := by
  decide +kernel

theorem test_hyps_MemoryReadsTheLastByteWritten :
    Memory.wf [(3, 7)] ∧ (Memory.write [(3, 7)] 3 [0]).wf ∧ Memory.write [(3, 7)] 3 [0] = [] := by decide

theorem test_hyps_CommandDirectiveRunsTheCommand :
    (idle 0).hostQueue = [] ∧ (idle 0).status.busy = false ∧ (idle 0).status.err = false ∧
    next (exec .ecrst { idle 0 with
      cmdlatch := encode .ecrst
      status := { (idle 0).status with busy := true }
      hostQueue := [.wait] }) (fun _ => true) = true := by decide +kernel

/-- The host obtains the buffers of P6. -/
def buffersOfP6 (_ _ : Nat) : Option Buffers := some { sb := 0, lb := 0x100, items := 0x1000000 }

/-- Did the procedure return a context? -/
def isContext : ContextResult → Bool
  | .context _ _ => true
  | .engineError _ | .allocationFailure _ | .stopped => false

/-- P6's machine, epoch 0: the procedure returns a context, without and with the L1 fill. -/
theorem test_hyps_EpochContextHasTheEffectiveCounts :
    let s := idle 0x1004000
    s.hostQueue = [] ∧ s.status.busy = false ∧ s.status.err = false ∧
    isContext (createEpochContext 0 true buffersOfP6 s) = true ∧
    isContext (createEpochContext 0 false buffersOfP6 s) = true := by decide +kernel

end Sys2Proof.Tests
end

section
/-!
PROOFS. The little-endian accessors as sums, and the lanes of a state image (00_scope.md R11,
20_memory.md R54).
-/

namespace Sys2Proof.Machine

/-- A concatenation weighs its upper part by the width of its lower part. -/
theorem toNat_append_eq_add {m n : Nat} (hi : BitVec m) (lo : BitVec n) :
    (hi ++ lo).toNat = hi.toNat * 2 ^ n + lo.toNat := by
  rw [BitVec.toNat_append, ← Nat.shiftLeft_add_eq_or_of_lt lo.isLt, Nat.shiftLeft_eq]

theorem toNat_le32 {n : Nat} (B : Bytes n) (j : Nat) :
    (le32 B j).toNat = (elem B (4 * j)).toNat + (elem B (4 * j + 1)).toNat * 2 ^ 8 +
      (elem B (4 * j + 2)).toNat * 2 ^ 16 + (elem B (4 * j + 3)).toNat * 2 ^ 24 := by
  simp only [le32, toNat_append_eq_add]
  omega

/-- The 64-bit view is two neighbours of the 32-bit view, the later one on top (R54). -/
theorem le64_eq_le32_append {n : Nat} (B : Bytes n) (j : Nat) :
    le64 B j = le32 B (2 * j + 1) ++ le32 B (2 * j) := by
  apply word_ext_byteOf
  intro k hk
  rw [byteOf_le64 B j k hk]
  by_cases hlow : k < 4
  · calc elem B (8 * j + k)
      _ = elem B (4 * (2 * j) + k) := congrArg (elem B) (by omega)
      _ = byteOf (le32 B (2 * j)) k := (byteOf_le32 B (2 * j) k hlow).symm
      _ = _ := (extract_append_low _ _ (8 * k) (by omega)).symm
  · obtain ⟨l, rfl⟩ := Nat.exists_eq_add_of_le (Nat.le_of_not_lt hlow)
    calc elem B (8 * j + (4 + l))
      _ = elem B (4 * (2 * j + 1) + l) := congrArg (elem B) (by omega)
      _ = byteOf (le32 B (2 * j + 1)) l := (byteOf_le32 B (2 * j + 1) l (by omega)).symm
      _ = (le32 B (2 * j + 1) ++ le32 B (2 * j)).extractLsb' (32 + 8 * l) 8 :=
        (extract_append_high _ _ (8 * l)).symm
      _ = byteOf (le32 B (2 * j + 1) ++ le32 B (2 * j)) (4 + l) := by rw [byteOf, Nat.mul_add]

theorem toNat_le64 {n : Nat} (B : Bytes n) (j : Nat) :
    (le64 B j).toNat = (le32 B (2 * j)).toNat + 2 ^ 32 * (le32 B (2 * j + 1)).toNat := by
  rw [le64_eq_le32_append, toNat_append_eq_add, Nat.mul_comm, Nat.add_comm]

/-- A lane read from the state image of the lanes is that lane (R54, R112). -/
theorem le64_ofLanes (S : Lanes) {i : Nat} (h : i < 25) : le64 (ofLanes 200 S) i = elem S i := by
  rw [← elem_toLanes _ h, toLanes_ofLanes]

/-- Settles O58: the sum of each word is its concatenation's, the two views share their bytes, and
loading undoes storing on every lane. -/
theorem littleEndianViewsAgree : Obligations.LittleEndianViewsAgree :=
  fun _ B j => ⟨toNat_le32 B j, toNat_le64 B j, fun S _ hi => le64_ofLanes S hi⟩

end Sys2Proof.Machine
end

section
/-!
PROOFS. What one step does, said exactly: the engine's step of a legal word, and the one stop of a command
(10_state.md R31; 30_encoding.md R73; logs 1 and 9).
-/

namespace Sys2Proof.Machine

/-- The rule of a word that decodes (R73). -/
theorem execute_of_decode {s : State} {i : Instr} (hd : decode s.cmdlatch = .ok i) :
    execute s = exec i s := by
  rw [execute, hd]

/-- Settles O5: the engine's step is `exec` of the decoded word and then BUSY = 0, and the two idle steps
are the laws `step_idle` and `step_wait_idle`. -/
theorem stepRunsTheLatchedCommand : Obligations.StepRunsTheLatchedCommand := by
  refine ⟨fun s i hb hq hd => ?_, fun _ hb hq => step_idle hq hb, fun _ _ hb hq => step_wait_idle hq hb⟩
  rw [step_engine ((engineMoves_iff s).2 ⟨hb, hq⟩), engineStep, execute_of_decode hd]
  cases exec i s <;> rfl

/-! ## The light cache outside MEM (log 9) -/

theorem execBuildlc_outside {ra : RegIdx} {s : State} (h : s.ctx.lccount ≠ 0)
    (hv : s.valid (s.unsignedOp ra) 32 = true) (hc : s.lightCacheInMem = false) :
    execBuildlc ra s = .fault .lightCacheOutsideMem := by
  rw [execBuildlc, if_neg h, hv, hc]
  rfl

theorem datasetOp_outside {d : Nat} {make : Context → Memory → Word → Bytes d} {ra rc : RegIdx}
    {s : State} (h : s.ctx.lccount ≠ 0) (hv : s.valid (s.unsignedOp rc) d = true)
    (hc : s.lightCacheInMem = false) :
    datasetOp make ra rc s = .fault .lightCacheOutsideMem := by
  rw [datasetOp, if_neg h, hv, hc]
  rfl

/-- Settles O37: a light cache that reaches past MEM is no valid region, so each of the four commands comes
to its last check and stops there. -/
theorem lightCacheOutsideMemStops : Obligations.LightCacheOutsideMemStops := by
  intro ra rc s hn hlt
  have hc : s.lightCacheInMem = false :=
    s.not_valid_of_lt (Nat.mul_ne_zero (by decide) (lccount_ne_zero.1 hn)) hlt
  exact ⟨fun hv => execBuildlc_outside hn (s.valid_of_le hv) hc,
    fun hv => datasetOp_outside hn (s.valid_of_le hv) hc,
    fun hv => datasetOp_outside hn (s.valid_of_le hv) hc,
    fun hv => datasetOp_outside hn (s.valid_of_le hv) hc⟩

end Sys2Proof.Machine
end

section
/-!
PROOFS. What each command leaves unchanged, register by register (10_state.md R21 to R29;
60_exceptions.md R209). Every lemma reads it off the shape of the command.
-/

namespace Sys2Proof.Machine

section Frame

variable {i : Instr} {s t : State}

/-- Every X register but the one RD names is unchanged (R21). -/
theorem exec_readX_of_ne (h : exec i s = .next t) {r : RegIdx} (hr : destReg i ≠ some r) :
    t.readX r = s.readX r := by
  cases exec_shape h with
  | register rd v hrd =>
    exact State.readX_writeX_of_ne s v fun e => hr (e ▸ hrd)
  | found rd ra v c hi _ =>
    subst hi
    exact State.readX_writeX_of_ne _ v fun e => hr (e ▸ rfl)
  | _ => rfl

/-- Only the commands of R24's list change S. -/
theorem exec_lanes (h : exec i s = .next t) (hw : writesLanes i = false) :
    t.sponge.lanes = s.sponge.lanes := by
  cases exec_shape h with
  | sponge sp hw' => rw [hw'] at hw; cases hw
  | _ => rfl

/-- Only the commands that move the sponge controller change SPH, SW or SPOS (R25, R107). -/
theorem exec_spongeController (h : exec i s = .next t) (hm : movesSponge i = false) :
    t.sponge.sph = s.sponge.sph ∧ t.sponge.sw = s.sponge.sw ∧ t.sponge.spos = s.sponge.spos := by
  cases exec_shape h with
  | sponge sp _ hmoves => exact hmoves hm
  | _ => exact ⟨rfl, rfl, rfl⟩

/-- Only CTXSET changes LCBASE and LCCOUNT (R26). -/
theorem exec_ctx (h : exec i s = .next t) (hi : ∀ ra rb, i ≠ .ctxset ra rb) : t.ctx = s.ctx := by
  cases exec_shape h with
  | context ra rb hi' => exact absurd hi' (hi ra rb)
  | _ => rfl

/-- Only ENUM and ECRST change the epoch cache (R27). -/
theorem exec_ecache (h : exec i s = .next t) (he : ∀ rd ra, i ≠ .enum rd ra) (hr : i ≠ .ecrst) :
    t.ecache = s.ecache := by
  cases exec_shape h with
  | found rd ra _ _ hi => exact absurd hi (he rd ra)
  | notFound rd ra _ hi => exact absurd hi (he rd ra)
  | cacheReset hi => exact absurd hi hr
  | _ => rfl

/-- Only ENUM changes NF (R29, R209). -/
theorem exec_nf (h : exec i s = .next t) (he : ∀ rd ra, i ≠ .enum rd ra) :
    t.status.nf = s.status.nf := by
  cases exec_shape h with
  | found rd ra _ _ hi => exact absurd hi (he rd ra)
  | notFound rd ra _ hi => exact absurd hi (he rd ra)
  | _ => rfl

end Frame

/-- Settles O55: the frame lemmas of the registers, and `exec_frame` for what no command writes. -/
theorem registersHaveTheirOwnWriters : Obligations.RegistersHaveTheirOwnWriters := by
  intro i s t h
  obtain ⟨hcfg, hqueue, hreply, hdraws, hlatch, hbusy, hovr⟩ := exec_frame h
  exact ⟨fun _ => exec_readX_of_ne h, exec_lanes h, exec_spongeController h, exec_ctx h, exec_ecache h,
    exec_nf h, hbusy, hovr, hlatch, hcfg, hqueue, hreply, hdraws⟩

end Sys2Proof.Machine
end

section
/-!
PROOFS. The invariant of the state: it holds at reset and every step keeps it (10_state.md R25, R26, R29,
R30; 20_memory.md R50; 60_exceptions.md R215). One lemma for each named update, then the commands, the
engine's step and the actions from outside. A step from it stops only where the host breaks a duty.
-/

namespace Sys2Proof.Machine

theorem State.reset_inv : State.reset.Inv where
  memCanonical := by decide
  memInside := by decide
  memSize := le_rfl
  sposBelowRate := by decide
  sposOutsideAbsorb _ := rfl
  lccountRange := by decide
  lightCacheInside := rfl
  busyWithoutErr _ := rfl
  ecodeWithErr := by decide
  errcmdWord := by decide
  erraddrOfOthers _ _ := rfl

/-- Settles O51: field by field, and EpochSeed(0) is zeros(32) (R34, R140). -/
theorem resetStateMeetsTheInvariants : Obligations.ResetStateMeetsTheInvariants :=
  ⟨State.reset_inv, rfl⟩

/-! ## The named updates -/

namespace State.Inv

variable {s : State}

theorem writeX (h : s.Inv) (r : RegIdx) (v : Word) : (s.writeX r v).Inv := { h with }

theorem setEcache (h : s.Inv) (c : EpochCache) : (s.setEcache c).Inv := { h with }

theorem setNf (h : s.Inv) (b : Bool) : (s.setNf b).Inv := { h with }

theorem setQueue (h : s.Inv) (q : List HostAction) : (s.setQueue q).Inv := { h with }

theorem setReply (h : s.Inv) (r : Reply) : (s.setReply r).Inv := { h with }

theorem setOvr (h : s.Inv) : s.setOvr.Inv := { h with }

theorem clearOvr (h : s.Inv) : s.clearOvr.Inv := { h with }

theorem clearErr (h : s.Inv) : s.clearErr.Inv :=
  { h with
    busyWithoutErr := fun _ => rfl
    ecodeWithErr := ⟨fun _ => rfl, fun _ => rfl⟩
    erraddrOfOthers := fun he => nomatch he }

theorem complete (h : s.Inv) : s.complete.Inv := { h with busyWithoutErr := fun hb => nomatch hb }

/-- CMD takes a word only while ERR = 0 (R205, R215). -/
theorem latch (h : s.Inv) (he : s.status.err = false) (w : Word32) : (s.latch w).Inv :=
  { h with busyWithoutErr := fun _ => he }

theorem setSponge (h : s.Inv) {sp : Sponge} (hpos : sp.spos < sp.sw.rate)
    (hout : sp.sph ≠ .absorb → sp.spos = 0) : (s.setSponge sp).Inv :=
  { h with sposBelowRate := hpos, sposOutsideAbsorb := hout }

theorem setCtx (h : s.Inv) {c : Context} (hn : c.lccount.toNat ≤ lccountMax)
    (hv : s.valid c.lcbase.toNat (64 * c.lccount.toNat) = true) : (s.setCtx c).Inv :=
  { h with lccountRange := hn, lightCacheInside := hv }

theorem withMem (h : s.Inv) {m : Memory} (hc : m.wf) (hi : m.within s.cfg.memBytes) :
    { s with mem := m }.Inv :=
  { h with memCanonical := hc, memInside := hi }

/-- A write to a valid region keeps MEM inside MEM_BYTES (R51). -/
theorem write_within (h : s.Inv) {a : Nat} {bs : List Byte} (hv : s.valid a bs.length = true) :
    (s.mem.write a bs).within s.cfg.memBytes :=
  Memory.write_within h.memInside a bs <|
    ((s.valid_iff _ _).1 hv).imp_left List.length_eq_zero_iff.1

theorem memWrite (h : s.Inv) {a : Nat} {bs : List Byte} (hv : s.valid a bs.length = true) :
    (s.memWrite a bs).Inv :=
  h.withMem (Memory.write_wf h.memCanonical a bs) (h.write_within hv)

theorem buildLightCache (h : s.Inv) (hn : s.ctx.lccount ≠ 0) (seed : Bytes 32) :
    { s with mem := s.ctx.buildLightCache seed s.mem }.Inv := by
  have hn' := lccount_ne_zero.1 hn
  have hin : s.ctx.lcbase.toNat + 64 * s.ctx.lccount.toNat ≤ s.cfg.memBytes :=
    ((s.valid_iff _ _).1 h.lightCacheInside).resolve_left (Nat.mul_ne_zero (by decide) hn')
  exact h.withMem (s.ctx.buildLightCache_wf seed h.memCanonical hn')
    (s.ctx.buildLightCache_within seed h.memInside hn' hin)

/-- Error entry breaks "BUSY = 1 only with ERR = 0" until EngineStep clears BUSY (R31, R203). -/
theorem raise_complete (h : s.Inv) {e : ErrCode} (he : e ≠ .none) (a : Word) :
    (s.raise e a).complete.Inv :=
  { h with
    busyWithoutErr := fun hb => nomatch hb
    ecodeWithErr := ⟨fun h0 => absurd h0 he, fun h0 => nomatch h0⟩
    errcmdWord := by
      change (s.cmdlatch.setWidth 64).toNat < 2 ^ 32
      rw [BitVec.toNat_setWidth_of_le (by decide)]
      exact s.cmdlatch.isLt
    erraddrOfOthers := fun _ hne => s.raise_of_ne_busFault a hne }

/-! ## The engine -/

/-- A command and the end of its step keep the invariant. -/
theorem exec_complete (h : s.Inv) {i : Instr} {t : State} (ht : exec i s = .next t) :
    t.complete.Inv := by
  cases exec_shape ht with
  | raised e a he => exact h.raise_complete he a
  | sponge sp _ _ hpos hout =>
    exact (h.setSponge (hpos h.sposBelowRate) (hout h.sposOutsideAbsorb)).complete
  | register rd v => exact (h.writeX rd v).complete
  | found rd ra v c => exact (((h.setEcache c).writeX rd v).setNf false).complete
  | notFound rd ra c => exact ((h.setEcache c).setNf true).complete
  | cacheReset => exact (h.setEcache _).complete
  | context ra rb _ _ hmax hv => exact (h.setCtx (c := ⟨s.readX ra, s.readX rb⟩) hmax hv).complete
  | memory r bs _ hlen hv => exact (h.memWrite (hlen ▸ hv)).complete
  | built ra _ hn => exact (h.buildLightCache hn _).complete

theorem engineStep (h : s.Inv) {t : State} (ht : engineStep s = .next t) : t.Inv := by
  obtain ⟨_, rfl⟩ | ⟨i, u, _, hu, rfl⟩ := engineStep_cases ht
  · exact h.raise_complete (by decide) 0
  · exact h.exec_complete hu

end State.Inv

/-! ## Reset while BUSY (R231) -/

theorem busError_eq_none {s : State} {r : RegIdx} {n : Nat} (h : s.busError r n = none) :
    s.valid (s.unsignedOp r) n = true := by
  unfold State.busError at h
  split at h
  · assumption
  · cases h

/-- The destination's check is a command's last one (R202, R204). -/
theorem busError_last {s : State} {o : Option ErrInfo} {r : RegIdx} {n : Nat}
    (h : (o <|> s.busError r n) = none) : s.valid (s.unsignedOp r) n = true :=
  busError_eq_none ((Option.orElse_eq_none _ _).1 h).2

/-- A command whose checks pass has a valid destination; BUILDLC's is the light cache, which CTXSET
checked (R26, R62, R204). -/
theorem destOf_valid {i : Instr} {s : State} {r : Region} (hlc : s.lightCacheInMem = true)
    (he : errorOf i s = none) (hd : destOf i s = some r) : s.valid r.base r.len = true := by
  cases i with
  | sstore ra => cases hd; exact busError_eq_none he
  | ssqueeze ra => cases hd; exact busError_last he
  | keccak256 ra rb rc => cases hd; exact busError_last he
  | keccak512 ra rb rc => cases hd; exact busError_last he
  | fnv1v ra rb rc => cases hd; exact busError_last ((Option.orElse_eq_none _ _).1 he).2
  | eseed ra rc => cases hd; exact busError_last he
  | buildlc ra => cases hd; exact hlc
  | ditem512 ra rc => cases hd; exact busError_last he
  | ditem1024 ra rc => cases hd; exact busError_last he
  | ditem2048 ra rc => cases hd; exact busError_last he
  | _ => cases hd

namespace State.Inv

variable {s : State}

theorem memAfterReset (h : s.Inv) :
    s.memAfterReset.wf ∧ s.memAfterReset.within s.cfg.memBytes := by
  obtain hm | ⟨i, r, bs, _, _, he, hd, hlen, hm⟩ := memAfterReset_cases s <;> rw [hm]
  · exact ⟨h.memCanonical, h.memInside⟩
  · have hv := destOf_valid h.lightCacheInside he hd
    exact ⟨Memory.write_wf h.memCanonical _ _, h.write_within (hlen ▸ hv)⟩

theorem platformReset (h : s.Inv) : s.platformReset.Inv :=
  { State.reset_inv with
    memCanonical := h.memAfterReset.1
    memInside := h.memAfterReset.2
    memSize := h.memSize
    lightCacheInside := rfl }

/-! ## The actions from outside -/

theorem writeStatus (h : s.Inv) (v : Word) : (s.writeStatus v).Inv := by
  have herr : (if v.getLsbD 1 then s.clearErr else s).Inv := by
    split
    exacts [h.clearErr, h]
  unfold State.writeStatus
  dsimp only
  split
  exacts [herr.clearOvr, herr]

theorem hostWrite (h : s.Inv) (off : Nat) (v : Word) : (s.hostWrite off v).Inv := by
  obtain e | ⟨e, _⟩ | ⟨r, e, _⟩ | ⟨e, _, herr⟩ | ⟨e, _⟩ := hostWrite_cases s off v <;> rw [e]
  · exact h
  · exact h.setOvr
  · exact h.writeX r v
  · exact h.latch herr _
  · exact h.writeStatus v

theorem hostRead (h : s.Inv) (off : Nat) : (s.hostRead off).Inv := by
  obtain ⟨v, d, e⟩ := hostRead_eq s off
  rw [e]
  exact { h with }

theorem hostStep (h : s.Inv) {act : HostAction} {t : State} (ht : hostStep act s = .next t) :
    t.Inv := by
  obtain ⟨_, _, v, off, _, _, rfl⟩ | ⟨_, _, off, _, _, rfl⟩ | ⟨_, rfl⟩ | ⟨a, bs, _, hv, _, rfl⟩ |
    ⟨a, n, _, _, _, rfl⟩ | ⟨_, rfl⟩ := hostStep_cases ht
  · exact h.hostWrite off v
  · exact h.hostRead off
  · exact h
  · exact h.memWrite hv
  · exact h.setReply _
  · exact h.platformReset

end State.Inv

/-- Settles O52: the engine's step, the idle step and each action from outside keep the invariant. -/
theorem stepKeepsTheInvariant : Obligations.StepKeepsTheInvariant := by
  intro s t h ht
  obtain ⟨_, he⟩ | ⟨_, rfl⟩ | ⟨act, rest, _, ha⟩ := step_cases ht
  · exact h.engineStep he
  · exact h
  · exact (h.setQueue rest).hostStep ha

/-! ## Progress -/

/-- The engine's step never stops on a state that meets the invariant (log 9). -/
theorem engineStep_answers_next {s : State} (h : s.Inv) : ∃ t, engineStep s = .next t := by
  cases hd : decode s.cmdlatch with
  | error _ => exact ⟨(s.raise .illegalCmd 0).complete, by rw [engineStep, execute, hd]⟩
  | ok i =>
    obtain ⟨u, hu⟩ := exec_answers_next (i := i) h.lightCacheInside
    exact ⟨u.complete, by rw [engineStep, execute_of_decode hd, hu]⟩

/-- An action that keeps the host's duties happens (R50, R62, R214). -/
theorem hostStep_answers_next {s : State} {act : HostAction} {rest : List HostAction}
    (hq : s.hostQueue = act :: rest) (hd : s.hostDuty = true) :
    ∃ t, hostStep act (s.setQueue rest) = .next t := by
  unfold State.hostDuty at hd
  rw [hq] at hd
  cases act with
  | write width addr v =>
    obtain ⟨off, ho⟩ := Option.isSome_iff_exists.1 hd
    exact ⟨(s.setQueue rest).hostWrite off v, by simp [hostStep, ho]⟩
  | read width addr =>
    obtain ⟨off, ho⟩ := Option.isSome_iff_exists.1 hd
    exact ⟨(s.setQueue rest).hostRead off, by simp [hostStep, ho]⟩
  | wait => exact ⟨_, rfl⟩
  | memWrite a bs =>
    obtain ⟨hv, ht⟩ : s.valid a bs.length = true ∧ s.touchesInFlight a bs.length = false := by
      simpa using hd
    exact ⟨_, hostMemory_ok _ hv ((touchesInFlight_setQueue s rest _ _).trans ht)⟩
  | memRead a n =>
    obtain ⟨hv, ht⟩ : s.valid a n = true ∧ s.touchesInFlight a n = false := by simpa using hd
    exact ⟨_, hostMemory_ok _ hv ((touchesInFlight_setQueue s rest _ _).trans ht)⟩
  | reset => exact ⟨_, rfl⟩

/-- Settles O54: the light cache is in MEM, so the engine's step answers; and every stop of an action from
outside is a broken duty. -/
theorem dutifulHostNeverStopsTheMachine : Obligations.DutifulHostNeverStopsTheMachine := by
  intro s h hd
  unfold step
  split
  · exact engineStep_answers_next h
  · split
    · exact ⟨s, rfl⟩
    · rename_i hq
      exact hostStep_answers_next hq hd

end Sys2Proof.Machine
end

section
/-!
PROOFS. The epoch cache holds a true pair (10_state.md R28): the lookup keeps it short of the wrap, ECRST
and reset restore it, and nothing else touches it.
-/

namespace Sys2Proof.Machine

/-- The lookup leaves a true pair: the old one, its successor, or one of the scan (R143). -/
theorem epochLookup_seedTrue {c c' : EpochCache} {q : Bytes 32} {v : Option Word}
    (h : c.ecseed = epochSeed c.ecepoch.toNat) (hlt : c.ecepoch.toNat < 2 ^ 64 - 1)
    (hl : epochLookup c q = (v, c')) : c'.ecseed = epochSeed c'.ecepoch.toNat := by
  obtain rfl | ⟨h1, h2⟩ | ⟨h1, h2, i, hi, hq, hmin⟩ | ⟨h1, h2, hno⟩ := epochLookup_cases c q
  · cases (epochLookup_cached c).symm.trans hl
    exact h
  · have hsucc : (c.ecepoch + 1).toNat = c.ecepoch.toNat + 1 :=
      BitVec.toNat_add_of_lt (y := 1) (by change _ + 1 < 2 ^ 64; omega)
    cases (epochLookup_next h1 h2).symm.trans hl
    calc q
      _ = seedNext (epochSeed c.ecepoch.toNat) := by rw [h2, h]
      _ = epochSeed (c.ecepoch.toNat + 1) := rfl
      _ = epochSeed (c.ecepoch + 1).toNat := by rw [hsucc]
  · have hi64 : (BitVec.ofNat 64 i).toNat = i :=
      (BitVec.toNat_ofNat i 64).trans (Nat.mod_eq_of_lt (hi.trans (by decide)))
    cases (epochLookup_scan h1 h2 hi hq hmin).symm.trans hl
    exact (hi64.symm ▸ hq).symm
  · cases (epochLookup_notFound h1 h2 hno).symm.trans hl
    exact h

theorem exec_seedTrue {i : Instr} {s t : State} (h : s.SeedTrue)
    (hlt : s.ecache.ecepoch.toNat < 2 ^ 64 - 1) (ht : exec i s = .next t) : t.SeedTrue := by
  cases exec_shape ht with
  | found rd ra v c _ hl => exact epochLookup_seedTrue h hlt hl
  | notFound rd ra c _ hl => exact epochLookup_seedTrue h hlt hl
  | cacheReset => exact epochSeed_zero.symm
  | _ => exact h

theorem writeStatus_ecache (s : State) (v : Word) : (s.writeStatus v).ecache = s.ecache := by
  unfold State.writeStatus
  dsimp only
  split <;> split <;> rfl

/-- A window write never reaches the epoch cache: its offsets are read-only (R214, R215). -/
theorem hostWrite_ecache (s : State) (off : Nat) (v : Word) : (s.hostWrite off v).ecache = s.ecache := by
  obtain e | ⟨e, _⟩ | ⟨r, e, _⟩ | ⟨e, _, _⟩ | ⟨e, _⟩ := hostWrite_cases s off v <;> rw [e]
  · rfl
  · rfl
  · rfl
  · exact writeStatus_ecache s v

/-- An action from outside leaves the epoch cache, or resets it (R27, R230). -/
theorem hostStep_ecache {act : HostAction} {s t : State} (ht : hostStep act s = .next t) :
    t.ecache = s.ecache ∨ t.ecache = EpochCache.reset := by
  obtain ⟨_, _, v, off, _, _, rfl⟩ | ⟨_, _, off, _, _, rfl⟩ | ⟨_, rfl⟩ | ⟨a, bs, _, _, _, rfl⟩ |
    ⟨a, n, _, _, _, rfl⟩ | ⟨_, rfl⟩ := hostStep_cases ht
  · exact .inl (hostWrite_ecache s off v)
  · obtain ⟨v, d, e⟩ := hostRead_eq s off
    exact .inl (by rw [e])
  · exact .inl rfl
  · exact .inl rfl
  · exact .inl rfl
  · exact .inr rfl

/-- Settles O53: a command keeps the pair true by the lookup's lemma, and an action from outside leaves
the pair or resets it. -/
theorem stepKeepsTheSeedPairTrue : Obligations.StepKeepsTheSeedPairTrue := by
  intro s t h hlt ht
  obtain ⟨_, he⟩ | ⟨_, rfl⟩ | ⟨act, rest, _, ha⟩ := step_cases ht
  · obtain ⟨_, rfl⟩ | ⟨i, u, _, hu, rfl⟩ := engineStep_cases he
    · exact h
    · exact (exec_seedTrue h hlt hu : u.SeedTrue)
  · exact h
  · obtain e | e := hostStep_ecache ha <;> rw [State.SeedTrue, e]
    · exact h
    · exact epochSeed_zero.symm

end Sys2Proof.Machine
end

section
/-!
PROOFS. MEM on the model's list, host accesses to it, and what a command leaves in it (20_memory.md R50 to
R62; 60_exceptions.md R200).
-/

namespace Sys2Proof.Machine

/-- Settles O57: the laws of Laws/Memory.lean, one for each clause. -/
theorem memoryReadsTheLastByteWritten : Obligations.MemoryReadsTheLastByteWritten :=
  ⟨Memory.read_write, fun _ a bs h => Memory.write_wf h a bs, fun _ _ => Memory.ext_of_wf,
    fun m a _ _ => Memory.elem_readBytes m a⟩

/-! ## Host accesses (R50, R60, R62) -/

section HostAccess

variable {s : State} {a : Nat} {rest : List HostAction}

/-- A host write to MEM that touches no command in flight is a write of its bytes (R60, R62). -/
theorem step_memWrite {bs : List Byte} (hq : s.hostQueue = .memWrite a bs :: rest)
    (hv : s.valid a bs.length = true) (ht : s.touchesInFlight a bs.length = false) :
    step s = .next ((s.setQueue rest).memWrite a bs) :=
  (step_action hq (by simp)).trans <|
    hostMemory_ok _ hv ((touchesInFlight_setQueue s rest a _).trans ht)

/-- A host read of MEM that touches no command in flight returns the bytes MEM holds (R60, R62). -/
theorem step_memRead {n : Nat} (hq : s.hostQueue = .memRead a n :: rest) (hv : s.valid a n = true)
    (ht : s.touchesInFlight a n = false) :
    step s = .next ((s.setQueue rest).setReply (.bytes (s.memRead a n).toList)) :=
  (step_action hq (by simp)).trans <|
    hostMemory_ok _ hv ((touchesInFlight_setQueue s rest a n).trans ht)

end HostAccess

/-- Settles O48: an access away from the regions in flight happens, and then it is `MemWrite` or `MemRead`. -/
theorem idleHostMemoryAccessesAreOrdinary : Obligations.IdleHostMemoryAccessesAreOrdinary := by
  intro s a n rest hin hdisj
  have hv : s.valid a n = true := (s.valid_iff a n).2 hin
  have ht : s.touchesInFlight a n = false := touchesInFlight_of_disjoint hdisj
  constructor
  · rintro bs rfl hq
    refine ⟨s.mem.write a bs, step_memWrite hq hv ht, fun k hk => ?_,
      fun b => Memory.read_write_of_outside s.mem a bs⟩
    rw [Memory.read_write, if_pos (by omega), Nat.add_sub_cancel_left]
  · intro hq
    rw [step_memRead hq hv ht, s.memRead_toList a n]
    rfl

/-! ## The checks of a command (R202, R204) -/

section Checks

variable {s : State} {r : RegIdx} {e : ErrCode} {a : Word}

/-- The first error is an earlier check's, or that passed and it is a later one's (R202). -/
theorem firstError_cases {o o' : Option ErrInfo} {p : ErrInfo} (h : (o <|> o') = some p) :
    o = some p ∨ o = none ∧ o' = some p :=
  (Option.orElse_eq_some o o' p).1 h

theorem phaseError_eq_some {p : Phase} :
    s.phaseError p = some (e, a) ↔ s.sponge.sph ≠ p ∧ .sequence = e ∧ 0 = a := by
  simp [State.phaseError]

theorem phaseError_eq_none {p : Phase} : s.phaseError p = none ↔ s.sponge.sph = p := by
  simp [State.phaseError]

theorem contextError_eq_some :
    s.contextError = some (e, a) ↔ s.ctx.lccount = 0 ∧ .context = e ∧ 0 = a := by
  simp [State.contextError]

theorem contextError_eq_none : s.contextError = none ↔ s.ctx.lccount ≠ 0 := by
  simp [State.contextError]

theorem countError_eq_some :
    s.countError r = some (e, a) ↔
      (s.unsignedOp r = 0 ∨ s.unsignedOp r > lccountMax) ∧ .context = e ∧ 0 = a := by
  simp [State.countError]

theorem countError_eq_none :
    s.countError r = none ↔ ¬(s.unsignedOp r = 0 ∨ s.unsignedOp r > lccountMax) := by
  simp [State.countError]

theorem epochError_eq_some :
    s.epochError r = some (e, a) ↔ s.validEpochOp r = false ∧ .invalidEpoch = e ∧ 0 = a := by
  simp [State.epochError]

theorem epochError_eq_none : s.epochError r = none ↔ s.validEpochOp r = true := by
  simp [State.epochError]

theorem busError_eq_some {n : Nat} :
    s.busError r n = some (e, a) ↔
      s.valid (s.unsignedOp r) n = false ∧ .busFault = e ∧ s.readX r = a := by
  simp [State.busError]

end Checks

/-! ## The shared operations, when a check fails -/

section FailedChecks

variable {s : State} {ra rb rc rd : RegIdx} {e : ErrCode} {a : Word}

theorem hashRegion_error {d : Nat} {hash : List Byte → Bytes d}
    (h : (s.busError ra (s.unsignedOp rb) <|> s.busError rc d) = some (e, a)) :
    hashRegion hash ra rb rc s = .next (s.raise e a) := by
  obtain h | ⟨hn, h⟩ := firstError_cases h <;> obtain ⟨hv, rfl, rfl⟩ := busError_eq_some.1 h
  · simp [hashRegion, hv]
  · simp [hashRegion, busError_eq_none hn, hv]

theorem countOp_error {count : Nat → Nat} (h : s.epochError ra = some (e, a)) :
    countOp count rd ra s = .next (s.raise e a) := by
  obtain ⟨hv, rfl, rfl⟩ := epochError_eq_some.1 h
  simp [countOp, hv]

theorem datasetOp_error {d : Nat} {make : Context → Memory → Word → Bytes d}
    (h : (s.contextError <|> s.busError rc d) = some (e, a)) :
    datasetOp make ra rc s = .next (s.raise e a) := by
  obtain h | ⟨hn, h⟩ := firstError_cases h
  · obtain ⟨hc, rfl, rfl⟩ := contextError_eq_some.1 h
    exact datasetOp_context hc
  · obtain ⟨hv, rfl, rfl⟩ := busError_eq_some.1 h
    exact datasetOp_bus (contextError_eq_none.1 hn) hv

end FailedChecks

/-- A command raises the first error of its row in R204's table, and does nothing else (R202, R203). -/
theorem exec_of_errorOf {i : Instr} {s : State} {e : ErrCode} {a : Word}
    (h : errorOf i s = some (e, a)) : exec i s = .next (s.raise e a) := by
  cases i with
  | keccakf | sinit256 | sinit512 | fnv1 | ecrst | prime => cases h
  | sload ra =>
    obtain ⟨hv, rfl, rfl⟩ := busError_eq_some.1 h
    simp [exec_sload, execSload, hv]
  | sstore ra =>
    obtain ⟨hv, rfl, rfl⟩ := busError_eq_some.1 h
    simp [exec_sstore, execSstore, hv]
  | sabsorb ra rb =>
    obtain h | ⟨hp, h⟩ := firstError_cases h
    · obtain ⟨hp, rfl, rfl⟩ := phaseError_eq_some.1 h
      simp [exec_sabsorb, execSabsorb, hp]
    · obtain ⟨hv, rfl, rfl⟩ := busError_eq_some.1 h
      simp [exec_sabsorb, execSabsorb, phaseError_eq_none.1 hp, hv]
  | sfinal =>
    obtain ⟨hp, rfl, rfl⟩ := phaseError_eq_some.1 h
    simp [exec_sfinal, execSfinal, hp]
  | ssqueeze ra =>
    obtain h | ⟨hp, h⟩ := firstError_cases h
    · obtain ⟨hp, rfl, rfl⟩ := phaseError_eq_some.1 h
      simp [exec_ssqueeze, execSsqueeze, hp]
    · obtain ⟨hv, rfl, rfl⟩ := busError_eq_some.1 h
      simp [exec_ssqueeze, execSsqueeze, phaseError_eq_none.1 hp, hv]
  | keccak256 ra rb rc => exact hashRegion_error h
  | keccak512 ra rb rc => exact hashRegion_error h
  | fnv1v ra rb rc =>
    obtain h | ⟨ha, h⟩ := firstError_cases h
    · obtain ⟨hv, rfl, rfl⟩ := busError_eq_some.1 h
      simp [exec_fnv1v, execFnv1v, hv]
    · obtain h | ⟨hb, h⟩ := firstError_cases h <;> obtain ⟨hv, rfl, rfl⟩ := busError_eq_some.1 h
      · simp [exec_fnv1v, execFnv1v, busError_eq_none ha, hv]
      · simp [exec_fnv1v, execFnv1v, busError_eq_none ha, busError_eq_none hb, hv]
  | eseed ra rc =>
    obtain h | ⟨he, h⟩ := firstError_cases h
    · obtain ⟨hv, rfl, rfl⟩ := epochError_eq_some.1 h
      simp [exec_eseed, execEseed, hv]
    · obtain ⟨hv, rfl, rfl⟩ := busError_eq_some.1 h
      simp [exec_eseed, execEseed, epochError_eq_none.1 he, hv]
  | enum rd ra =>
    obtain ⟨hv, rfl, rfl⟩ := busError_eq_some.1 h
    exact (exec_enum rd ra s).trans (execEnum_bus hv)
  | ecip rd ra =>
    obtain ⟨hv, rfl, rfl⟩ := epochError_eq_some.1 h
    simp [exec_ecip, execEcip, hv]
  | lcount rd ra => exact countOp_error h
  | dcount rd ra => exact countOp_error h
  | ctxset ra rb =>
    obtain h | ⟨hn, h⟩ := firstError_cases h
    · obtain ⟨hn, rfl, rfl⟩ := countError_eq_some.1 h
      rw [exec_ctxset, execCtxset, if_pos hn]
    · obtain ⟨hv, rfl, rfl⟩ := busError_eq_some.1 h
      rw [exec_ctxset, execCtxset, if_neg (countError_eq_none.1 hn), hv]
      rfl
  | buildlc ra =>
    obtain h | ⟨hn, h⟩ := firstError_cases h
    · obtain ⟨hc, rfl, rfl⟩ := contextError_eq_some.1 h
      exact execBuildlc_context hc
    · obtain ⟨hv, rfl, rfl⟩ := busError_eq_some.1 h
      exact execBuildlc_bus (contextError_eq_none.1 hn) hv
  | ditem512 ra rc => exact datasetOp_error h
  | ditem1024 ra rc => exact datasetOp_error h
  | ditem2048 ra rc => exact datasetOp_error h

/-! ## What a command leaves in MEM (R53, R57, R200) -/

/-- A command writes no byte outside its destination region (R57, R58). -/
theorem exec_read_of_outside {i : Instr} {s t : State} (h : exec i s = .next t) {b : Nat}
    (hb : ∀ r, destOf i s = some r → b < r.base ∨ r.base + r.len ≤ b) :
    t.mem.read b = s.mem.read b := by
  cases exec_shape h with
  | memory r bs hd hlen => exact Memory.read_write_of_outside _ _ _ (hlen ▸ hb r hd)
  | built ra hi hn =>
    subst hi
    exact s.ctx.buildLightCache_read_of_outside _ _ (lccount_ne_zero.1 hn) (hb s.lightCache rfl)
  | _ => rfl

/-- Settles O56: a command that writes MEM writes its destination, and one whose row of R204 holds an error
answers error entry, which leaves MEM alone. -/
theorem memoryChangesOnlyInTheDestination : Obligations.MemoryChangesOnlyInTheDestination := by
  intro i s t h
  refine ⟨fun b => exec_read_of_outside h, fun he => ?_⟩
  obtain ⟨⟨e, a⟩, he⟩ := Option.ne_none_iff_exists'.1 he
  cases (exec_of_errorOf he).symm.trans h
  rfl

end Sys2Proof.Machine
end

section
/-!
PROOFS. The decoder by mask and match against the field rules, and against the encoder (30_encoding.md R70 to
R75). A word is its six fields; on them the mask test of a row says that FN and the unused fields are 0.
-/

namespace Sys2Proof

open Laws.EncodedWord (fields_assemble)

/-! ## A word and its fields (R70) -/

/-- A word has no bit outside its six fields. -/
theorem Fields.ofWord_injective : Function.Injective Fields.ofWord := by
  intro w v h
  simp only [Fields.ofWord, Fields.mk.injEq, ← BitVec.toNat_inj, BitVec.extractLsb'_toNat,
    Nat.shiftRight_eq_div_pow] at h
  apply BitVec.eq_of_toNat_eq
  omega

theorem Fields.ofWord_and (w v : Word32) :
    Fields.ofWord (w &&& v) =
      { op := (Fields.ofWord w).op &&& (Fields.ofWord v).op
        rd := (Fields.ofWord w).rd &&& (Fields.ofWord v).rd
        ra := (Fields.ofWord w).ra &&& (Fields.ofWord v).ra
        rb := (Fields.ofWord w).rb &&& (Fields.ofWord v).rb
        rc := (Fields.ofWord w).rc &&& (Fields.ofWord v).rc
        fn := (Fields.ofWord w).fn &&& (Fields.ofWord v).fn } := by
  simp only [Fields.ofWord, BitVec.extractLsb'_and]

theorem Fields.unusedZero_iff (f : Fields) (fmt : Format) :
    f.unusedZero fmt = true ↔
      f.fn = 0 ∧ (fmt.usesRd || f.rd == 0) = true ∧ (fmt.usesRa || f.ra == 0) = true ∧
        (fmt.usesRb || f.rb == 0) = true ∧ (fmt.usesRc || f.rc == 0) = true := by
  simp only [Fields.unusedZero, Bool.and_eq_true, beq_iff_eq, and_assoc]

/-! ## The mask and match test, field by field (R72, R73) -/

/-- What a sub-format's mask holds over a register field: nothing if the sub-format uses the field, all of
it if not. -/
def registerMask (used : Bool) : RegIdx := if used then 0 else BitVec.allOnes 4

theorem and_registerMask_eq_zero_iff (used : Bool) (r : RegIdx) :
    r &&& registerMask used = 0 ↔ (used || r == 0) = true := by
  cases used with
  | true => simp [registerMask]
  | false => rw [registerMask, if_neg Bool.false_ne_true, BitVec.and_allOnes]; simp

theorem ofWord_formatMask (fmt : Format) :
    Fields.ofWord (formatMask fmt) =
      { op := BitVec.allOnes 8
        rd := registerMask fmt.usesRd
        ra := registerMask fmt.usesRa
        rb := registerMask fmt.usesRb
        rc := registerMask fmt.usesRc
        fn := BitVec.allOnes 8 } := by
  cases fmt <;> decide

theorem Row.pattern_eq_assemble (r : Row) : r.pattern = assemble r.op 0 0 0 0 := by
  simp [Row.pattern, assemble, BitVec.setWidth_eq_append]

/-- A word passes a row's test exactly when its OP is the row's, and FN and the fields the row's sub-format
does not use are 0. -/
theorem and_formatMask_eq_pattern_iff (w : Word32) (r : Row) :
    w &&& formatMask r.fmt = r.pattern ↔
      opField w = r.op ∧ (Fields.ofWord w).unusedZero r.fmt = true := by
  rw [← Fields.ofWord_injective.eq_iff, Fields.ofWord_and, ofWord_formatMask, r.pattern_eq_assemble,
    fields_assemble, Fields.mk.injEq]
  simp only [BitVec.and_allOnes, and_registerMask_eq_zero_iff, Fields.unusedZero_iff]
  change opField w = r.op ∧ _ ↔ _
  tauto

/-! ## The opcode table (R74, R75) -/

/-- The row of an OP. -/
def rowOf (op : BitVec 8) : Option Row := opcodeTable.find? (fun r => r.op == op)

/-- The list of reserved OP values leaves exactly the OP values that have a row, with the row's sub-format. -/
theorem formatOf_eq_rowOf_fmt (op : BitVec 8) : formatOf op = (rowOf op).map Row.fmt := by
  revert op
  decide

theorem rowOf_some {op : BitVec 8} {r : Row} (h : rowOf op = some r) : r ∈ opcodeTable ∧ r.op = op :=
  ⟨List.mem_of_find?_eq_some h, by simpa using List.find?_some h⟩

theorem wellFormed_iff_rowOf (w : Word32) :
    wellFormed w = true ↔
      ∃ r, rowOf (opField w) = some r ∧ (Fields.ofWord w).unusedZero r.fmt = true := by
  have hf : formatOf (Fields.ofWord w).op = (rowOf (opField w)).map Row.fmt := formatOf_eq_rowOf_fmt _
  rw [wellFormed, hf]
  cases rowOf (opField w) <;> simp

/-- A word decodes exactly when its OP has a row and its FN and unused fields are 0 (R73). -/
theorem decode_eq_ok_iff (w : Word32) (i : Instr) :
    decode w = .ok i ↔
      ∃ r, rowOf (opField w) = some r ∧ (Fields.ofWord w).unusedZero r.fmt = true ∧
        r.build (rdField w) (raField w) (rbField w) (rcField w) = i := by
  rw [decode, ← rowOf]
  cases hr : rowOf (opField w) with
  | none => simp
  | some r =>
    have hm := and_formatMask_eq_pattern_iff w r
    simp only [(rowOf_some hr).2, true_and] at hm
    by_cases hu : (Fields.ofWord w).unusedZero r.fmt = true <;> simp [hm, hu]

/-- Settles O3: with the test said field by field, both sides speak of a row of the word's OP. -/
theorem decoderAcceptsExactlyWellFormedWords : Obligations.DecoderAcceptsExactlyWellFormedWords := by
  intro w
  simp only [decode_eq_ok_iff, wellFormed_iff_rowOf]
  constructor
  · rintro ⟨i, r, hr, hu, -⟩
    exact ⟨r, hr, hu⟩
  · rintro ⟨r, hr, hu⟩
    exact ⟨_, r, hr, hu, rfl⟩

/-! ## The encoder (R70, R74) -/

theorem wellFormed_encode (i : Instr) : wellFormed (encode i) = true := by
  cases i with
  | keccakf => exact Laws.EncodedWord.keccakf
  | sload ra => exact Laws.EncodedWord.sload ra
  | sstore ra => exact Laws.EncodedWord.sstore ra
  | sinit256 => exact Laws.EncodedWord.sinit256
  | sinit512 => exact Laws.EncodedWord.sinit512
  | sabsorb ra rb => exact Laws.EncodedWord.sabsorb ra rb
  | sfinal => exact Laws.EncodedWord.sfinal
  | ssqueeze ra => exact Laws.EncodedWord.ssqueeze ra
  | keccak256 ra rb rc => exact Laws.EncodedWord.keccak256 ra rb rc
  | keccak512 ra rb rc => exact Laws.EncodedWord.keccak512 ra rb rc
  | fnv1 rd ra rb => exact Laws.EncodedWord.fnv1 rd ra rb
  | fnv1v ra rb rc => exact Laws.EncodedWord.fnv1v ra rb rc
  | eseed ra rc => exact Laws.EncodedWord.eseed ra rc
  | enum rd ra => exact Laws.EncodedWord.enum rd ra
  | ecrst => exact Laws.EncodedWord.ecrst
  | ecip rd ra => exact Laws.EncodedWord.ecip rd ra
  | prime rd ra => exact Laws.EncodedWord.prime rd ra
  | lcount rd ra => exact Laws.EncodedWord.lcount rd ra
  | dcount rd ra => exact Laws.EncodedWord.dcount rd ra
  | ctxset ra rb => exact Laws.EncodedWord.ctxset ra rb
  | buildlc ra => exact Laws.EncodedWord.buildlc ra
  | ditem512 ra rc => exact Laws.EncodedWord.ditem512 ra rc
  | ditem1024 ra rc => exact Laws.EncodedWord.ditem1024 ra rc
  | ditem2048 ra rc => exact Laws.EncodedWord.ditem2048 ra rc

/-- A well-formed assembled word decodes to the command its OP's row builds of the fields. -/
theorem decode_assemble {op : BitVec 8} {rd ra rb rc : RegIdx} {r : Row}
    (hw : wellFormed (assemble op rd ra rb rc) = true) (hr : rowOf op = some r) :
    decode (assemble op rd ra rb rc) = .ok (r.build rd ra rb rc) := by
  obtain ⟨r', hr', hu⟩ := (wellFormed_iff_rowOf _).1 hw
  obtain rfl : r' = r := by simpa [opField_assemble, hr] using hr'.symm
  refine (decode_eq_ok_iff _ _).2 ⟨r', hr', hu, ?_⟩
  rw [rdField_assemble, raField_assemble, rbField_assemble, rcField_assemble]

theorem decode_encode (i : Instr) : decode (encode i) = .ok i := by
  have hw := wellFormed_encode i
  cases i <;> exact decode_assemble hw rfl

/-- Settles O1: the word is well formed, and its OP's row builds the command of the fields put there. -/
theorem decodeOfEncodeIsTheCommand : Obligations.DecodeOfEncodeIsTheCommand := decode_encode

/-- The command a row builds is encoded by the row's OP and the register fields its sub-format uses. -/
theorem encode_build {r : Row} (hr : r ∈ opcodeTable) (rd ra rb rc : RegIdx) :
    encode (r.build rd ra rb rc) =
      assemble r.op (if r.fmt.usesRd then rd else 0) (if r.fmt.usesRa then ra else 0)
        (if r.fmt.usesRb then rb else 0) (if r.fmt.usesRc then rc else 0) := by
  revert r
  simp [opcodeTable, encode, Format.usesRd, Format.usesRa, Format.usesRb, Format.usesRc]

/-- Settles O2: the command's word has the OP and the used fields of `w`, and the test has left only 0 in
the rest of `w`. -/
theorem encodeOfDecodeIsTheWord : Obligations.EncodeOfDecodeIsTheWord := by
  intro w i h
  obtain ⟨r, hr, hu, rfl⟩ := (decode_eq_ok_iff w i).1 h
  obtain ⟨hmem, hop⟩ := rowOf_some hr
  obtain ⟨hfn, hrd, hra, hrb, hrc⟩ := (Fields.unusedZero_iff _ _).1 hu
  have kept : ∀ {b : Bool} {x : RegIdx}, (b || x == 0) = true → (if b then x else 0) = x := by
    intro b x
    cases b <;> simp +contextual
  calc encode (r.build (rdField w) (raField w) (rbField w) (rcField w))
    _ = assemble (opField w) (rdField w) (raField w) (rbField w) (rcField w) := by
      rw [encode_build hmem, hop]
      exact congr (congr (congr (congrArg _ (kept hrd)) (kept hra)) (kept hrb)) (kept hrc)
    _ = w := assemble_fields w hfn

/-- Settles O4: each word is the encoder's word of its command. -/
theorem sampleWordsDecode : Obligations.SampleWordsDecode :=
  ⟨decode_encode .keccakf, decode_encode (.keccak256 1 2 3), decode_encode (.fnv1 3 1 2),
    decode_encode (.enum 4 1), decode_encode (.lcount 2 1), decode_encode (.ctxset 1 2),
    decode_encode (.ditem1024 1 4)⟩

end Sys2Proof
end

section
/-!
PROOFS. A word in CMDLATCH that is no command, and the directive of a command run to its end (10_state.md R31;
30_encoding.md R75, R77; 60_exceptions.md R215).
-/

namespace Sys2Proof.Machine

/-! ## ILLEGAL_CMD (R75) -/

/-- A word that is not well formed raises ILLEGAL_CMD and runs nothing (R73, R202). -/
theorem execute_of_not_wellFormed {s : State} (h : wellFormed s.cmdlatch = false) :
    execute s = .next (s.raise .illegalCmd 0) := by
  rw [execute]
  cases hd : decode s.cmdlatch with
  | error r => rfl
  | ok i =>
    have hw := (decoderAcceptsExactlyWellFormedWords s.cmdlatch).1 ⟨i, hd⟩
    exact absurd hw (by simp [h])

/-- Settles O6: the engine's step of such a word is error entry (R203) and then BUSY = 0. -/
theorem illegalWordRaisesIllegalCmd : Obligations.IllegalWordRaisesIllegalCmd := by
  refine ⟨by decide, fun s hm hw => ?_⟩
  rw [step_engine hm, engineStep, execute_of_not_wellFormed hw]
  rfl

/-! ## The host's steps of a command directive (R77, R215) -/

/-- A CMD write to an idle machine without an error latches the low 32 bits (R215). -/
theorem hostWrite_cmd {s : State} (hb : s.status.busy = false) (he : s.status.err = false) (v : Word) :
    s.hostWrite 0x080 v = s.latch (v.setWidth 32) := by
  simp [State.hostWrite, hb, he]

/-- The step of a CMD write to an idle machine without an error (R215). -/
theorem step_issue {s : State} {w : Word32} {rest : List HostAction}
    (hq : s.hostQueue = Directive.writeAt s.cfg 0x080 (w.setWidth 64) :: rest)
    (hb : s.status.busy = false) (he : s.status.err = false) :
    step s = .next ((s.setQueue rest).latch w) := by
  have hoff := definedAccess_of_offset s.cfg (off := 0x080) (by decide) (by decide)
  have hw : (w.setWidth 64).setWidth 32 = w := by simp
  rw [step_action_idle hq hb, Directive.writeAt, hostStep, State.setQueue_cfg, hoff]
  dsimp only
  rw [hostWrite_cmd (s := s.setQueue rest) hb he, hw]

/-- The engine's step of a latched command that answers `t` (R31). -/
theorem step_latched {s t : State} {i : Instr} (hm : s.engineMoves = true) (hd : s.cmdlatch = encode i)
    (h : exec i s = .next t) : step s = .next t.complete := by
  rw [step_engine hm, engineStep, execute_of_decode (hd ▸ decode_encode i), h]

/-! ## Coming to rest (R77) -/

/-- The machine is at rest once nothing is pending and BUSY = 0. -/
theorem settle_rest {s : State} (hq : s.hostQueue = []) (hb : s.status.busy = false) (fuel : Nat) :
    settle fuel s = .next s := by
  cases fuel <;> simp [settle, hq, hb]

theorem settle_step {s t : State} {act : HostAction} {rest : List HostAction}
    (hq : s.hostQueue = act :: rest) (h : step s = .next t) (fuel : Nat) :
    settle (fuel + 1) s = settle fuel t := by
  simp [settle, hq, h]

/-- The directive of a command takes three steps: the CMD write, the command, and the `wait` that finds
BUSY = 0. -/
theorem perform_command {s t : State} {i : Instr} (hq : s.hostQueue = []) (hb : s.status.busy = false)
    (he : s.status.err = false) (h : exec i ((s.setQueue [.wait]).latch (encode i)) = .next t) :
    perform (.command i) s = .next (t.complete.setQueue []) := by
  have hissue : step (s.setQueue (Directive.issue s.cfg (encode i))) =
      .next ((s.setQueue [.wait]).latch (encode i)) := step_issue (s := s.setQueue _) rfl hb he
  have hrun : step ((s.setQueue [.wait]).latch (encode i)) = .next t.complete :=
    step_latched rfl rfl h
  have hq' : t.complete.hostQueue = [.wait] := (exec_frame h).2.1
  have hwait : step t.complete = .next (t.complete.setQueue []) := step_wait_idle hq' rfl
  calc perform (.command i) s
    _ = settle 5 (s.setQueue (Directive.issue s.cfg (encode i))) := by rw [perform, hq]; rfl
    _ = settle 4 ((s.setQueue [.wait]).latch (encode i)) := settle_step rfl hissue 4
    _ = settle 3 t.complete := settle_step rfl hrun 3
    _ = settle 2 (t.complete.setQueue []) := settle_step hq' hwait 2
    _ = .next (t.complete.setQueue []) := settle_rest rfl rfl 2

/-- Settles O59. -/
theorem commandDirectiveRunsTheCommand : Obligations.CommandDirectiveRunsTheCommand :=
  fun _ _ hq hb he _ h => perform_command hq hb he h

end Sys2Proof.Machine
end

section
/-!
PROOFS. The permutation's rounds, and the sponge read through its state image, byte by byte (40_keccak.md
R100 to R105). Byte `q` of the image of the lanes `S` is `elem (ofLanes 200 S) q` (R104, R112); AbsorbByte
and a block of the padded message both XOR bytes into it, which is why the two sponges agree.
-/

namespace Sys2Proof.Machine

/-! ## The rounds (R100) -/

/-- The lanes after the first `i` rounds. -/
def keccakRounds (S : Lanes) (i : Nat) : Lanes := (roundConstants.take i).foldl keccakRound S

theorem keccakRounds_succ (S : Lanes) {i : Nat} (h : i < roundConstants.length) :
    keccakRounds S (i + 1) = keccakRound (keccakRounds S i) (roundConstants.getD i 0) := by
  rw [keccakRounds, List.take_add_one, List.getElem?_eq_getElem h, List.foldl_append,
    List.getD_eq_getElem _ _ h]
  rfl

/-- iota after chi, lane by lane (R100). -/
theorem lane_iota_chi (B : Lanes) (rc : Word) {x y : Nat} (hx : x < 5) (hy : y < 5) :
    lane (iota (chi B) rc) x y =
      (lane B x y ^^^ (~~~ lane B ((x + 1) % 5) y &&& lane B ((x + 2) % 5) y)) ^^^
        if x = 0 ∧ y = 0 then rc else 0 := by
  rw [lane_iota _ _ hx hy, lane_chi _ hx hy]

/-- Settles O7: the lanes after `i` rounds are the sequence, and each step of a round is its law, lane by
lane. -/
theorem keccakFIsTwentyFourRounds : Obligations.KeccakFIsTwentyFourRounds := by
  refine ⟨by decide, by decide, by decide, by decide, by decide, by decide, by decide,
    fun S => ⟨keccakRounds S, rfl, rfl, fun i hi => ?_⟩⟩
  let A := keccakRounds S i
  refine ⟨columnParity A,
    fun x => columnParity A ((x + 4) % 5) ^^^ (columnParity A ((x + 1) % 5)).rotateLeft 1, lane (theta A),
    lane (rhoPi (theta A)), fun _ _ => rfl, fun _ _ => rfl, fun _ hx _ hy => lane_theta A hx hy,
    fun _ hx _ hy => lane_rhoPi (theta A) hx hy, fun x hx y hy => ?_⟩
  rw [keccakRounds_succ S hi]
  exact lane_iota_chi (rhoPi (theta A)) _ hx hy

/-! ## The state image -/

theorem byteOf_xor {w : Nat} (u v : BitVec w) (k : Nat) :
    byteOf (u ^^^ v) k = byteOf u k ^^^ byteOf v k := BitVec.extractLsb'_xor

@[simp] theorem byteOf_zero {w : Nat} (k : Nat) : byteOf (0#w) k = 0#8 := by simp [byteOf]

/-- A byte moved to weight 2^(8m) is byte `m` of the word, and the word's other bytes are 0 (R103). -/
theorem byteOf_shiftLeft (b : Byte) {m k : Nat} (hk : k < 8) :
    byteOf (b.setWidth 64 <<< (8 * m)) k = if k = m then b else 0#8 := by
  apply BitVec.eq_of_getLsbD_eq
  intro i hi
  have hin : 8 * k + i < 64 := by omega
  simp only [byteOf, BitVec.getLsbD_extractLsb', BitVec.getLsbD_shiftLeft, BitVec.getLsbD_setWidth, hi, hin]
  obtain hlt | rfl | hgt := Nat.lt_trichotomy k m
  · have : 8 * k + i < 8 * m := by omega
    simp [this, hlt.ne]
  · have h1 : ¬ 8 * k + i < 8 * k := by omega
    have h2 : i < 64 := by omega
    simp [h1, h2]
  · have h1 : 8 ≤ 8 * k + i - 8 * m := by omega
    simp [BitVec.getLsbD_of_ge b _ h1, hgt.ne']

/-- Byte `k` of lane `i` in the state image. -/
theorem elem_image (S : Lanes) {i k : Nat} (hi : i < 25) (hk : k < 8) :
    elem (ofLanes 200 S) (8 * i + k) = byteOf (elem S i) k := by
  rw [elem_ofLanes S (by omega), Nat.mul_add_div (by decide), Nat.mul_add_mod, Nat.div_eq_of_lt hk,
    Nat.mod_eq_of_lt hk, Nat.add_zero]

/-- Lanes with the same image are the same lanes. -/
theorem lanes_ext_image {S T : Lanes}
    (h : ∀ q < 200, elem (ofLanes 200 S) q = elem (ofLanes 200 T) q) : S = T := by
  rw [← toLanes_ofLanes S, ← toLanes_ofLanes T, vector_ext_elem h]

/-! ## AbsorbByte (R103) -/

theorem elem_xorLane_eq_xor (S : Lanes) (i : Nat) (v : Word) {j : Nat} (hj : j < 25) :
    elem (xorLane S i v) j = elem S j ^^^ if j = i then v else 0 := by
  rw [elem_xorLane]
  by_cases h : j = i
  · simp [h, h ▸ hj]
  · simp [h, Ne.symm h]

theorem elem_absorbByte (S : Lanes) (p : Nat) (b : Byte) {i : Nat} (hi : i < 25) :
    elem (absorbByte S p b) i =
      elem S i ^^^ if i = p / 8 then b.setWidth 64 <<< (8 * (p % 8)) else 0 :=
  elem_xorLane_eq_xor S _ _ hi

/-- AbsorbByte XORs the byte into position `p` of the state image. -/
theorem image_absorbByte (S : Lanes) (p : Nat) (b : Byte) {q : Nat} (hq : q < 200) :
    elem (ofLanes 200 (absorbByte S p b)) q =
      elem (ofLanes 200 S) q ^^^ if q = p then b else 0 := by
  rw [elem_ofLanes _ hq, elem_ofLanes _ hq, elem_absorbByte S p b (by omega), byteOf_xor]
  congr 1
  by_cases h : q / 8 = p / 8
  · rw [if_pos h, byteOf_shiftLeft b (by omega)]
    exact if_congr (by omega) rfl rfl
  · rw [if_neg h, if_neg (by omega)]
    exact byteOf_zero _

/-- Bytes absorbed at `p`, `p + 1`, ... are XORed into the image from position `p` on. -/
theorem image_absorbBytes (S : Lanes) (p n : Nat) (f : Nat → Byte) {q : Nat} (hq : q < 200) :
    elem (ofLanes 200 ((List.range n).foldl (fun S k => absorbByte S (p + k) (f k)) S)) q =
      elem (ofLanes 200 S) q ^^^ if p ≤ q ∧ q < p + n then f (q - p) else 0 := by
  induction n with
  | zero => simp [show ¬ (p ≤ q ∧ q < p) by omega]
  | succ n ih =>
    rw [foldl_range_succ, image_absorbByte _ _ _ hq, ih, BitVec.xor_assoc]
    refine congrArg (elem (ofLanes 200 S) q ^^^ ·) ?_
    by_cases h : q = p + n
    · simp [h]
    · simp only [h, if_false, BitVec.ofNat_eq_ofNat, BitVec.xor_zero]
      exact if_congr (by omega) rfl rfl

/-- Settles O8: the second part reads both lanes byte by byte in the state image. -/
theorem absorbedBytesMakeLittleEndianLanes : Obligations.AbsorbedBytesMakeLittleEndianLanes := by
  refine ⟨fun S p b _ i hi => elem_absorbByte S p b hi, fun S j B _ i hi => ?_⟩
  apply word_ext_byteOf
  intro k hk
  rw [← elem_image _ hi hk, image_absorbBytes S (8 * j) 8 (elem B) (by omega), elem_image S hi hk,
    byteOf_xor]
  congr 1
  by_cases h : i = j
  · subst h
    rw [if_pos (by omega), if_pos rfl, byteOf_le64 B 0 k hk]
    exact congrArg (elem B) (by omega)
  · rw [if_neg (by omega), if_neg h]
    exact (byteOf_zero k).symm

/-! ## A block of the padded message (R104, R105) -/

/-- One byte more at the end of a message, as an XOR. -/
theorem getD_concat (M : List Byte) (b : Byte) (q : Nat) :
    (M ++ [b]).getD q 0 = M.getD q 0 ^^^ if q = M.length then b else 0 := by
  obtain hlt | rfl | hgt := Nat.lt_trichotomy q M.length
  · simp [List.getElem?_append_left hlt, hlt.ne]
  · simp
  · have : ¬ q ≤ M.length := by omega
    simp [List.getElem?_eq_none (l := M) hgt.le, List.getElem?_append_right hgt.le, hgt.ne',
      List.getElem?_eq_none (l := [b]) (i := q - M.length) (by simp; omega)]

/-- XORing a block into the lanes and permuting is permuting the lanes whose image has the block XORed in
from position 0. -/
theorem absorbBlock_eq_keccakF (w : Width) {S T : Lanes} {block : List Byte}
    (hlen : block.length ≤ w.rate)
    (h : ∀ q < 200, elem (ofLanes 200 T) q = elem (ofLanes 200 S) q ^^^ block.getD q 0) :
    absorbBlock w.rate S block = keccakF T := by
  have hrate : w.rate = 8 * (w.rate / 8) := by cases w <;> rfl
  refine congrArg keccakF (vector_ext_elem fun i hi => word_ext_byteOf fun k hk => ?_)
  rw [elem_ofFn _ hi, ← elem_image T hi hk, h _ (by omega), elem_image S hi hk]
  split
  · rw [byteOf_xor, byteOf_le64 _ _ _ hk, elem_ofFn _ (by omega)]
  · rename_i hge
    rw [List.getD_eq_default _ _ (by simp only at hge; omega)]
    simp

namespace Sponge

/-- Absorbing from an empty block while it is not yet full XORs the message into the image. -/
theorem absorbAll_partial (S : Lanes) (ph : Phase) (w : Width) {M : List Byte} (h : M.length < w.rate) :
    ∃ T, Sponge.absorbAll ⟨S, ph, w, 0⟩ M = ⟨T, ph, w, M.length⟩ ∧
      ∀ q < 200, elem (ofLanes 200 T) q = elem (ofLanes 200 S) q ^^^ M.getD q 0 := by
  refine ⟨(List.range M.length).foldl (fun S k => absorbByte S (0 + k) (M.getD k 0)) S,
    (absorbAll_within_block _ M (by simpa using h)).trans (by simp only [Nat.zero_add]), fun q hq => ?_⟩
  rw [image_absorbBytes S 0 M.length (fun k => M.getD k 0) hq, Nat.sub_zero]
  split
  · rfl
  · rw [List.getD_eq_default _ _ (by omega)]

/-- A full block absorbed byte by byte is the block XORed in and permuted. -/
theorem absorbAll_block (S : Lanes) (ph : Phase) (w : Width) {M : List Byte} (h : M.length = w.rate) :
    Sponge.absorbAll ⟨S, ph, w, 0⟩ M = ⟨absorbBlock w.rate S M, ph, w, 0⟩ := by
  have hpos := rate_pos w
  obtain ⟨N, b, rfl⟩ := List.eq_nil_or_concat' M |>.resolve_left (by rintro rfl; simp at h; omega)
  have hN : N.length + 1 = w.rate := by simpa using h
  obtain ⟨T, hT, himage⟩ := absorbAll_partial S ph w (M := N) (by omega)
  have hblock : absorbBlock w.rate S (N ++ [b]) = keccakF (absorbByte T N.length b) :=
    absorbBlock_eq_keccakF w h.le fun q hq => by
      rw [image_absorbByte _ _ _ hq, himage q hq, getD_concat, BitVec.xor_assoc]
  rw [absorbAll_append, hT, hblock, absorbAll_cons, absorbAll_nil]
  simp only [absorbNext, hN, if_true]

theorem finish_lanes (sp : Sponge) : sp.finish.lanes = keccakF sp.padded := rfl

/-- The padding of SFINAL is two absorbed bytes, 0x01 at SPOS and 0x80 at the end of the block (R104). -/
theorem padded_eq_absorbByte (sp : Sponge) :
    sp.padded = absorbByte (absorbByte sp.lanes sp.spos 0x01) (sp.sw.rate - 1) 0x80 := by
  unfold padded
  generalize absorbByte sp.lanes sp.spos 0x01 = T
  cases sp.sw <;> rfl

end Sponge

/-! ## The padded message by blocks (R104) -/

/-- The message's full blocks go in front of the padding. -/
theorem padMessage_append {r : Nat} {M : List Byte} (h : M.length = r) (N : List Byte) :
    padMessage r (M ++ N) = M ++ padMessage r N := by
  simp [padMessage, h]

theorem getD_append_zeros (M : List Byte) (n q : Nat) :
    (M ++ List.replicate n 0).getD q 0 = M.getD q 0 := by
  induction n with
  | zero => simp
  | succ n ih => rw [List.replicate_succ', ← List.append_assoc, getD_concat, ih]; simp

/-- The padding of less than a block fills that block, with 0x01 after the message and 0x80 in the last byte
XORed in. -/
theorem padMessage_partial {r : Nat} {M : List Byte} (h : M.length < r) :
    (padMessage r M).length = r ∧ ∀ q, (padMessage r M).getD q 0 =
      M.getD q 0 ^^^ (if q = M.length then 0x01 else 0) ^^^ if q = r - 1 then 0x80 else 0 := by
  unfold padMessage
  simp only [Nat.mod_eq_of_lt h]
  by_cases hleft : r - M.length = 1
  · have hlast : r - 1 = M.length := by omega
    rw [if_pos hleft, hlast]
    refine ⟨by simp; omega, fun q => ?_⟩
    rw [getD_concat, BitVec.xor_assoc]
    by_cases hq : q = M.length
    · simp only [hq, if_true]; rfl
    · simp only [hq, if_false]; rfl
  · have hassoc : M ++ (0x01 :: List.replicate (r - M.length - 2) 0 ++ [0x80]) =
        M ++ [0x01] ++ List.replicate (r - M.length - 2) 0 ++ [0x80] := by simp
    have hlen : (M ++ [0x01] ++ List.replicate (r - M.length - 2) (0 : Byte)).length = r - 1 := by
      simp; omega
    rw [if_neg hleft, hassoc]
    refine ⟨by rw [List.length_append, hlen, List.length_singleton]; omega, fun q => ?_⟩
    rw [getD_concat, hlen, getD_append_zeros, getD_concat]

/-- The blocks of `P` XORed in and permuted one after the other. -/
def absorbBlocks (w : Width) (S : Lanes) (P : List Byte) : Lanes :=
  (List.range (P.length / w.rate)).foldl
    (fun S b => absorbBlock w.rate S ((P.drop (b * w.rate)).take w.rate)) S

theorem blockSponge_eq (w : Width) (M : List Byte) :
    blockSponge w M = absorbBlocks w (Vector.replicate 25 0) (padMessage w.rate M) := rfl

@[simp] theorem absorbBlocks_nil (w : Width) (S : Lanes) : absorbBlocks w S [] = S := by
  simp [absorbBlocks]

theorem absorbBlocks_append (w : Width) (S : Lanes) {M : List Byte} (h : M.length = w.rate)
    (P : List Byte) : absorbBlocks w S (M ++ P) = absorbBlocks w (absorbBlock w.rate S M) P := by
  have hlen : (M ++ P).length / w.rate = P.length / w.rate + 1 := by
    rw [List.length_append, h, Nat.add_div_left _ (rate_pos w)]
  have hdrop : ∀ b, (M ++ P).drop ((b + 1) * w.rate) = P.drop (b * w.rate) := fun b => by
    rw [Nat.succ_mul, Nat.add_comm, ← h, List.drop_length_add_append]
  have htake : (M ++ P).take w.rate = M := by rw [← h, List.take_left]
  rw [absorbBlocks, hlen, List.range_succ_eq_map, List.foldl_cons, List.foldl_map]
  simp only [Nat.succ_eq_add_one, hdrop, Nat.zero_mul, List.drop_zero, htake, absorbBlocks]

/-- From any lanes, absorbing and finishing byte by byte is absorbing the padded message by blocks: one full
block after the other, and then the block the padding fills. -/
theorem finish_absorbAll_lanes (w : Width) (S : Lanes) (ph : Phase) (M : List Byte) :
    (Sponge.absorbAll ⟨S, ph, w, 0⟩ M).finish.lanes = absorbBlocks w S (padMessage w.rate M) := by
  rcases Nat.lt_or_ge M.length w.rate with hlt | hge
  · obtain ⟨T, hT, himage⟩ := Sponge.absorbAll_partial S ph w hlt
    obtain ⟨hlen, hpad⟩ := padMessage_partial hlt
    have hlast := absorbBlocks_append w S hlen []
    rw [List.append_nil, absorbBlocks_nil] at hlast
    rw [hT, hlast, Sponge.finish_lanes, Sponge.padded_eq_absorbByte]
    refine (absorbBlock_eq_keccakF w hlen.le fun q hq => ?_).symm
    rw [image_absorbByte _ _ _ hq, image_absorbByte _ _ _ hq, himage q hq, hpad q, BitVec.xor_assoc,
      BitVec.xor_assoc, BitVec.xor_assoc]
  · have hlen : (M.take w.rate).length = w.rate := by simp; omega
    have hpos := rate_pos w
    rw [← M.take_append_drop w.rate, Sponge.absorbAll_append, Sponge.absorbAll_block S ph w hlen,
      padMessage_append hlen, absorbBlocks_append w S hlen]
    exact finish_absorbAll_lanes w _ ph _
termination_by M.length
decreasing_by rw [List.length_drop]; omega

/-- Settles O9. -/
theorem oneShotHashIsTheBlockSponge : Obligations.OneShotHashIsTheBlockSponge :=
  fun w M => (finish_absorbAll_lanes w _ _ M).trans (blockSponge_eq w M).symm

end Sys2Proof.Machine
end

section
/-!
PROOFS. The sponge commands one by one: the command word, the errors in their order (by `exec_of_errorOf`),
and what a command does once its checks have passed (40_keccak.md R107 to R119).
-/

namespace Sys2Proof.Machine

/-! ## Command words (R70) -/

theorem setWidth_append_eq_or {m n w : Nat} (hi : BitVec m) (lo : BitVec n) :
    (hi ++ lo).setWidth w = lo.setWidth w ||| hi.setWidth w <<< n := by
  apply BitVec.eq_of_getLsbD_eq
  intro i hw
  by_cases h : i < n
  · simp [BitVec.getLsbD_append, h, hw]
  · simp [BitVec.getLsbD_append, h, hw, BitVec.getLsbD_of_ge lo i (Nat.le_of_not_lt h)]

/-- The fields of an assembled word, each shifted to its place (R70). -/
theorem assemble_eq_or (op : BitVec 8) (rd ra rb rc : RegIdx) :
    assemble op rd ra rb rc =
      op.setWidth 32 ||| (rd.setWidth 32 <<< 8) ||| (ra.setWidth 32 <<< 12) |||
        (rb.setWidth 32 <<< 16) ||| (rc.setWidth 32 <<< 20) := by
  rw [← BitVec.setWidth_eq (assemble op rd ra rb rc), assemble]
  simp only [setWidth_append_eq_or, BitVec.shiftLeft_or_distrib, ← BitVec.shiftLeft_add,
    BitVec.setWidth_zero, BitVec.zero_shiftLeft, BitVec.or_zero, ← BitVec.or_assoc]

/-! ## The checks, in their order (R51, R107, R202) -/

section Errors

variable {s : State} {o o' : Option ErrInfo} {p : ErrInfo} {r : RegIdx} {n : Nat}

theorem firstError_first (h : o = some p) : (o <|> o') = some p :=
  (Option.orElse_eq_some o o' p).2 (.inl h)

theorem firstError_second (h : o = none) (h' : o' = some p) : (o <|> o') = some p :=
  (Option.orElse_eq_some o o' p).2 (.inr ⟨h, h'⟩)

theorem busError_of_lt (hn : n ≠ 0) (h : s.cfg.memBytes < (s.readX r).toNat + n) :
    s.busError r n = some (.busFault, s.readX r) :=
  busError_eq_some.2 ⟨s.not_valid_of_lt hn h, rfl, rfl⟩

theorem busError_of_valid (h : s.valid (s.unsignedOp r) n = true) : s.busError r n = none := by
  simp [State.busError, h]

theorem phaseError_of_ne {ph : Phase} (h : s.sponge.sph ≠ ph) : s.phaseError ph = some (.sequence, 0) :=
  phaseError_eq_some.2 ⟨h, rfl, rfl⟩

end Errors

theorem exec_sabsorb_sequence {s : State} (h : s.sponge.sph ≠ .absorb) (ra rb : RegIdx) :
    exec (.sabsorb ra rb) s = .next (s.raise .sequence 0) :=
  exec_of_errorOf (firstError_first (phaseError_of_ne h))

theorem exec_sfinal_sequence {s : State} (h : s.sponge.sph ≠ .absorb) :
    exec .sfinal s = .next (s.raise .sequence 0) :=
  exec_of_errorOf (phaseError_of_ne h)

theorem exec_ssqueeze_sequence {s : State} (h : s.sponge.sph ≠ .squeeze) (ra : RegIdx) :
    exec (.ssqueeze ra) s = .next (s.raise .sequence 0) :=
  exec_of_errorOf (firstError_first (phaseError_of_ne h))

/-! ## The commands once their checks have passed -/

section Passed

variable {s : State} {ra rb rc : RegIdx}

theorem exec_sload_valid (hv : s.valid (s.unsignedOp ra) 200 = true) :
    exec (.sload ra) s =
      .next (s.setSponge { s.sponge with lanes := toLanes (s.memRead (s.unsignedOp ra) 200) }) := by
  rw [exec_sload, execSload, if_pos hv]

theorem exec_sstore_valid (hv : s.valid (s.unsignedOp ra) 200 = true) :
    exec (.sstore ra) s = .next (s.memWrite (s.unsignedOp ra) (ofLanes 200 s.sponge.lanes).toList) := by
  rw [exec_sstore, execSstore, if_pos hv]

theorem exec_sabsorb_valid (hp : s.sponge.sph = .absorb)
    (hv : s.valid (s.unsignedOp ra) (s.unsignedOp rb) = true) :
    exec (.sabsorb ra rb) s =
      .next (s.setSponge (s.sponge.absorbAll (s.memRead (s.unsignedOp ra) (s.unsignedOp rb)).toList)) := by
  rw [exec_sabsorb, execSabsorb, if_neg (not_not_intro hp), if_pos hv]

theorem exec_sfinal_absorb (hp : s.sponge.sph = .absorb) :
    exec .sfinal s = .next (s.setSponge s.sponge.finish) := by
  rw [exec_sfinal, execSfinal, if_neg (not_not_intro hp)]

theorem exec_ssqueeze_valid (hp : s.sponge.sph = .squeeze)
    (hv : s.valid (s.unsignedOp ra) s.sponge.sw.dlen = true) :
    exec (.ssqueeze ra) s =
      .next (s.memWrite (s.unsignedOp ra) (ofLanes s.sponge.sw.dlen s.sponge.lanes).toList) := by
  rw [exec_ssqueeze, execSsqueeze, if_neg (not_not_intro hp), if_pos hv]

theorem hashRegion_valid {d : Nat} (hash : List Byte → Bytes d)
    (ha : s.valid (s.unsignedOp ra) (s.unsignedOp rb) = true) (hc : s.valid (s.unsignedOp rc) d = true) :
    hashRegion hash ra rb rc s =
      .next (s.memWrite (s.unsignedOp rc)
        (hash (s.memRead (s.unsignedOp ra) (s.unsignedOp rb)).toList).toList) := by
  rw [hashRegion, ha, hc]
  rfl

end Passed

/-! ## The width of the sponge (R25) -/

theorem Width.rate_eq_ite (w : Width) : w.rate = if w = .w256 then 136 else 72 := by cases w <;> rfl

theorem Width.dlen_eq_ite (w : Width) : w.dlen = if w = .w256 then 32 else 64 := by cases w <;> rfl

/-- The last lane of a block (R116). -/
theorem Width.lastLane_eq_ite (w : Width) : w.rate / 8 - 1 = if w = .w256 then 16 else 8 := by
  cases w <;> rfl

theorem Width.dlen_ne_zero (w : Width) : w.dlen ≠ 0 := by cases w <;> decide

/-! ## The permutation and the state image (R110 to R112) -/

/-- Settles O12. -/
theorem keccakfPermutesTheState : Obligations.KeccakfPermutesTheState := ⟨rfl, fun _ => rfl⟩

/-- Settles O13: a lane of the loaded image is its eight bytes of MEM. -/
theorem sloadLoadsTheStateImage : Obligations.SloadLoadsTheStateImage := by
  intro ra s
  refine ⟨by simp [encode, assemble_eq_or], fun hle => ⟨_, fun i hi k hk => ?_,
    exec_sload_valid (s.valid_of_le hle)⟩, fun hlt => exec_of_errorOf (busError_of_lt (by decide) hlt)⟩
  rw [elem_toLanes _ hi, byteOf_le64 _ i k hk, State.memRead, Memory.elem_readBytes _ _ (by omega),
    Nat.add_assoc]
  rfl

/-- Settles O14: the bytes written are the state image. -/
theorem sstoreStoresTheStateImage : Obligations.SstoreStoresTheStateImage := by
  intro ra s
  obtain ⟨hin, hout⟩ := s.memWrite_mem_read (s.unsignedOp ra) (ofLanes 200 s.sponge.lanes)
  refine ⟨by simp [encode, assemble_eq_or], fun hle => ⟨_, exec_sstore_valid (s.valid_of_le hle),
    fun i hi k hk => ?_, hout⟩, fun hlt => exec_of_errorOf (busError_of_lt (by decide) hlt)⟩
  rw [Nat.add_assoc, ← elem_image _ hi hk]
  exact hin _ (by omega)

/-! ## Starting, absorbing, finishing and squeezing (R113 to R117) -/

/-- Settles O15. -/
theorem sinitStartsASponge : Obligations.SinitStartsASponge :=
  ⟨rfl, rfl, fun _ => ⟨Vector.replicate 25 0, fun i _ => elem_replicate_zero i, rfl, rfl⟩⟩

/-- One pass more of the absorb loop (R115). -/
theorem Sponge.absorbAll_map_range_succ (sp : Sponge) (f : Nat → Byte) (k : Nat) :
    sp.absorbAll ((List.range (k + 1)).map f) = (sp.absorbAll ((List.range k).map f)).absorbNext (f k) := by
  rw [List.range_succ, List.map_append, absorbAll_append]
  rfl

/-- Settles O16: the sponge after `k` passes is the one that has absorbed the first `k` bytes. -/
theorem sabsorbAbsorbsByteByByte : Obligations.SabsorbAbsorbsByteByByte := by
  intro ra rb s r hr
  refine ⟨by simp [encode, assemble_eq_or], fun hp => exec_sabsorb_sequence hp ra rb, fun hp hn hlt =>
    exec_of_errorOf (firstError_second (phaseError_eq_none.2 hp) (busError_of_lt hn hlt)),
    fun hp hv => ?_⟩
  let byte (k : Nat) : Byte := s.mem.read ((s.readX ra).toNat + k)
  refine ⟨fun k => s.sponge.absorbAll ((List.range k).map byte),
    rfl, fun k _ => ?_, ?_⟩
  · have hrate : r = (s.sponge.absorbAll ((List.range k).map byte)).sw.rate := by
      rw [Sponge.absorbAll_sw, hr, Width.rate_eq_ite]
    subst hrate
    exact Sponge.absorbAll_map_range_succ _ _ k
  · rw [exec_sabsorb_valid hp ((s.valid_iff _ _).2 hv), s.memRead_toList]
    rfl

/-- Settles O17: the padding is two XORs into lanes, AbsorbByte of 0x01 and the top bit. -/
theorem sfinalPadsAndPermutes : Obligations.SfinalPadsAndPermutes := by
  refine ⟨rfl, fun s r last _ hlast => ⟨exec_sfinal_sequence, fun hp _ => ?_⟩⟩
  refine ⟨s.sponge.padded, fun i hi => ?_, exec_sfinal_absorb hp⟩
  rw [hlast, ← Width.lastLane_eq_ite, Sponge.padded, elem_xorLane_eq_xor _ _ _ hi,
    elem_absorbByte _ _ _ hi]
  rfl

/-- Settles O18. -/
theorem ssqueezeWritesTheDigest : Obligations.SsqueezeWritesTheDigest := by
  intro ra s d hd
  obtain rfl : d = s.sponge.sw.dlen := hd.trans (Width.dlen_eq_ite _).symm
  obtain ⟨hin, hout⟩ := s.memWrite_mem_read (s.unsignedOp ra) (ofLanes s.sponge.sw.dlen s.sponge.lanes)
  exact ⟨by simp [encode, assemble_eq_or], fun hp => exec_ssqueeze_sequence hp ra,
    fun hp hlt => exec_of_errorOf
      (firstError_second (phaseError_eq_none.2 hp) (busError_of_lt (Width.dlen_ne_zero _) hlt)),
    fun hp hle => ⟨_, exec_ssqueeze_valid hp (s.valid_of_le hle),
      fun k hk => (hin k hk).trans (elem_ofLanes _ hk), hout⟩⟩

/-- Settles O11: the commands that move the controller by their rules, every other one by its shape. -/
theorem spongePhasesFollowTheTable : Obligations.SpongePhasesFollowTheTable := by
  intro s r hr hpos
  obtain rfl : r = s.sponge.sw.rate := hr.trans (Width.rate_eq_ite _).symm
  refine ⟨⟨_, rfl, rfl, rfl, rfl⟩, ⟨_, rfl, rfl, rfl, rfl⟩, fun ra rb hp hv => ?_,
    fun hp => ⟨_, exec_sfinal_absorb hp, rfl, rfl, rfl⟩,
    fun hp => ⟨exec_sabsorb_sequence hp, exec_sfinal_sequence hp⟩, exec_ssqueeze_sequence,
    fun i t hm h => exec_spongeController h hm⟩
  refine ⟨_, exec_sabsorb_valid hp ((s.valid_iff _ _).2 hv), (s.sponge.absorbAll_sph _).trans hp,
    s.sponge.absorbAll_sw _, ?_⟩
  rw [State.setSponge_sponge, Sponge.absorbAll_spos _ _ hpos, Vector.length_toList]
  rfl

/-! ## The one-shot commands (R118, R119) -/

/-- What the one-shot commands leave in MEM: the hash of the source as it was, and the rest as before. -/
theorem hashRegion_writes {s : State} {ra rb rc : RegIdx} {d : Nat} (hash : List Byte → Bytes d)
    {M : List Byte}
    (hM : M = (List.range (s.readX rb).toNat).map fun k => s.mem.read ((s.readX ra).toNat + k))
    (ha : s.valid (s.unsignedOp ra) (s.unsignedOp rb) = true)
    (hle : (s.readX rc).toNat + d ≤ s.cfg.memBytes) :
    ∃ m : Memory, hashRegion hash ra rb rc s = .next { s with mem := m } ∧
      (∀ k < d, m.read ((s.readX rc).toNat + k) = elem (hash M) k) ∧
      ∀ b, b < (s.readX rc).toNat ∨ (s.readX rc).toNat + d ≤ b → m.read b = s.mem.read b := by
  obtain rfl : M = (s.memRead (s.unsignedOp ra) (s.unsignedOp rb)).toList :=
    hM.trans (s.memRead_toList _ _).symm
  exact ⟨_, hashRegion_valid hash ha (s.valid_of_le hle), s.memWrite_mem_read _ _⟩

/-- Settles O19: both commands are `hashRegion`, with the source's check before the destination's. -/
theorem oneShotCommandsWriteTheHash : Obligations.OneShotCommandsWriteTheHash := by
  rintro ra rb rc s a n c M rfl rfl rfl hM
  refine ⟨by simp [encode, assemble_eq_or], by simp [encode, assemble_eq_or], fun hn hlt => ?_,
    fun hv => ?_⟩
  · have source := busError_of_lt (s := s) hn hlt
    exact ⟨exec_of_errorOf (firstError_first source), exec_of_errorOf (firstError_first source)⟩
  · have ha : s.valid (s.unsignedOp ra) (s.unsignedOp rb) = true := (s.valid_iff _ _).2 hv
    have source := busError_of_valid ha
    exact ⟨fun hlt => exec_of_errorOf (firstError_second source (busError_of_lt (by decide) hlt)),
      fun hlt => exec_of_errorOf (firstError_second source (busError_of_lt (by decide) hlt)),
      hashRegion_writes k256 hM ha, hashRegion_writes k512 hM ha⟩

/-! ## A whole sponge run (R108) -/

theorem execAll_cons {i : Instr} {is : List Instr} {s t : State} (h : exec i s = .next t) :
    execAll (i :: is) s = execAll is t := by
  rw [execAll, h]

theorem execAll_append {is js : List Instr} {s t : State} (h : execAll is s = .next t) :
    execAll (is ++ js) s = execAll js t := by
  induction is generalizing s with
  | nil => cases h; rfl
  | cons i is ih =>
    cases hi : exec i s with
    | next u => rw [List.cons_append, execAll_cons hi, ih (execAll_cons hi ▸ h)]
    | fault f => simp [execAll, hi] at h
    | refused f => simp [execAll, hi] at h

/-- The bytes of the region named by an (address, length) register pair. -/
def State.pieceBytes (s : State) (p : RegIdx × RegIdx) : List Byte :=
  (s.memRead (s.unsignedOp p.1) (s.unsignedOp p.2)).toList

/-- The commands of a sponge run: start, absorb each region, finish, squeeze (R108). -/
def spongeRun (init : Instr) (pieces : List (RegIdx × RegIdx)) (rc : RegIdx) : List Instr :=
  init :: pieces.map (fun p => .sabsorb p.1 p.2) ++ [.sfinal, .ssqueeze rc]

section SpongeRun

variable {s : State} {pieces : List (RegIdx × RegIdx)}
  (hv : ∀ p ∈ pieces, s.valid (s.unsignedOp p.1) (s.unsignedOp p.2) = true)
include hv

/-- SABSORBs one after the other absorb the concatenation of their regions (R108, R115). -/
theorem execAll_sabsorbs {sp : Sponge} (hp : sp.sph = .absorb) :
    execAll (pieces.map fun p => .sabsorb p.1 p.2) (s.setSponge sp) =
      .next (s.setSponge (sp.absorbAll (pieces.flatMap s.pieceBytes))) := by
  induction pieces generalizing sp with
  | nil => rfl
  | cons p pieces ih =>
    have hfirst : exec (.sabsorb p.1 p.2) (s.setSponge sp) =
        .next (s.setSponge (sp.absorbAll (s.pieceBytes p))) :=
      exec_sabsorb_valid (s := s.setSponge sp) hp (hv p List.mem_cons_self)
    have hrest := ih (fun q hq => hv q (List.mem_cons_of_mem p hq)) (sp := sp.absorbAll (s.pieceBytes p))
      ((Sponge.absorbAll_sph _ _).trans hp)
    rw [List.map_cons, execAll_cons hfirst, hrest, List.flatMap_cons, Sponge.absorbAll_append]

/-- A sponge run writes the digest of the concatenation, for either width. -/
theorem execAll_spongeRun {init : Instr} (w : Width) (rc : RegIdx)
    (hinit : exec init s = .next (s.setSponge (Sponge.start w)))
    (hc : s.valid (s.unsignedOp rc) w.dlen = true) :
    execAll (spongeRun init pieces rc) s =
      .next ((s.setSponge (hashed w (pieces.flatMap s.pieceBytes))).memWrite (s.unsignedOp rc)
        (ofLanes w.dlen (hashed w (pieces.flatMap s.pieceBytes)).lanes).toList) := by
  let sp := (Sponge.start w).absorbAll (pieces.flatMap s.pieceBytes)
  have hsph : sp.sph = .absorb := Sponge.absorbAll_sph _ _
  have hsw : sp.sw = w := Sponge.absorbAll_sw _ _
  have habsorb : execAll (init :: pieces.map fun p => .sabsorb p.1 p.2) s = .next (s.setSponge sp) :=
    (execAll_cons hinit).trans (execAll_sabsorbs hv rfl)
  have hfinal : exec .sfinal (s.setSponge sp) = .next (s.setSponge sp.finish) :=
    exec_sfinal_absorb (s := s.setSponge sp) hsph
  have hsqueeze : exec (.ssqueeze rc) (s.setSponge sp.finish) =
      .next ((s.setSponge sp.finish).memWrite (s.unsignedOp rc)
        (ofLanes sp.sw.dlen sp.finish.lanes).toList) :=
    exec_ssqueeze_valid (s := s.setSponge sp.finish) rfl (hsw.symm ▸ hc)
  rw [spongeRun, execAll_append habsorb, execAll_cons hfinal, execAll_cons hsqueeze, hsw]
  rfl

theorem execAll_spongeRun_digest {init : Instr} (w : Width) (rc : RegIdx)
    (hinit : exec init s = .next (s.setSponge (Sponge.start w)))
    (hc : (s.readX rc).toNat + w.dlen ≤ s.cfg.memBytes) :
    ∃ t, execAll (spongeRun init pieces rc) s = .next t ∧
      ∀ k < w.dlen, t.mem.read ((s.readX rc).toNat + k) =
        elem (ofLanes w.dlen (hashed w (pieces.flatMap s.pieceBytes)).lanes) k :=
  ⟨_, execAll_spongeRun hv w rc hinit (s.valid_of_le hc), (State.memWrite_mem_read _ _ _).1⟩

end SpongeRun

/-- Settles O10: K256 and K512 are the digests of the two widths. -/
theorem spongeRunEqualsOneShotHash : Obligations.SpongeRunEqualsOneShotHash := by
  intro s pieces rc M hin hM
  have hv : ∀ p ∈ pieces, s.valid (s.unsignedOp p.1) (s.unsignedOp p.2) = true :=
    fun p hp => (s.valid_iff _ _).2 (hin p hp)
  obtain rfl : M = pieces.flatMap s.pieceBytes :=
    hM.trans (List.flatMap_congr fun p _ => (s.memRead_toList _ _).symm)
  exact ⟨execAll_spongeRun_digest hv .w256 rc rfl, execAll_spongeRun_digest hv .w512 rc rfl⟩

end Sys2Proof.Machine
end

section
/-!
PROOFS. The FNV mixer as arithmetic and word by word, and its two commands (41_fnv.md R130 to R133).
-/

namespace Sys2Proof.Machine

/-! ## The mixer -/

/-- The mixer by exact arithmetic: the product loses its high 32 bits, the XOR comes after (R130). -/
theorem toNat_fnv1 (u v : Word32) :
    (fnv1 u v).toNat = u.toNat * 0x01000193 % 2 ^ 32 ^^^ v.toNat := by
  rw [fnv1, BitVec.toNat_xor, BitVec.toNat_mul]
  rfl

theorem toNat_low32Op (s : State) (r : RegIdx) : (s.low32Op r).toNat = (s.readX r).toNat % 2 ^ 32 :=
  BitVec.toNat_setWidth 32 (s.readX r)

/-- Byte `k` of word `j` of a mixed vector is a byte of the two mixed words (R131). -/
theorem elem_fnv1v (A B : Bytes 64) {j k : Nat} (hj : j < 16) (hk : k < 4) :
    elem (fnv1v A B) (4 * j + k) = byteOf (fnv1 (le32 A j) (le32 B j)) k := by
  rw [fnv1v, elem_ofWords32 _ (by omega), Nat.mul_add_div (by decide), Nat.mul_add_mod,
    Nat.div_eq_of_lt hk, Nat.mod_eq_of_lt hk, Nat.add_zero, elem_ofFn _ hj]

/-! ## The commands -/

/-- Settles O20: the 32-bit result fits the register it is zero-extended into. -/
theorem fnvOneMixesTheLowHalves : Obligations.FnvOneMixesTheLowHalves := by
  intro rd ra rb s
  refine ⟨by simp [encode, assemble_eq_or], _, exec_fnv1 rd ra rb s, ?_,
    fun r hr => s.readX_writeX_of_ne _ hr, rfl⟩
  rw [State.readX_writeX_self, BitVec.toNat_setWidth_of_le (by decide), toNat_fnv1, toNat_low32Op,
    toNat_low32Op]

/-- FNV1V once its three regions are inside MEM. -/
theorem exec_fnv1v_valid {s : State} {ra rb rc : RegIdx}
    (ha : s.valid (s.unsignedOp ra) 64 = true) (hb : s.valid (s.unsignedOp rb) 64 = true)
    (hc : s.valid (s.unsignedOp rc) 64 = true) :
    exec (.fnv1v ra rb rc) s =
      .next (s.memWrite (s.unsignedOp rc)
        (fnv1v (s.memRead (s.unsignedOp ra) 64) (s.memRead (s.unsignedOp rb) 64)).toList) := by
  rw [exec_fnv1v, execFnv1v, ha, hb, hc]
  rfl

/-- Settles O21: the errors are the rows of R204 in their order, the words those of `fnv1v`. -/
theorem fnvVectorMixesSixteenWords : Obligations.FnvVectorMixesSixteenWords := by
  rintro ra rb rc s a b c rfl rfl rfl
  have inside {r : RegIdx} (hle : (s.readX r).toNat + 64 ≤ s.cfg.memBytes) :
      s.valid (s.unsignedOp r) 64 = true := s.valid_of_le hle
  have passes {r : RegIdx} (hle : (s.readX r).toNat + 64 ≤ s.cfg.memBytes) : s.busError r 64 = none :=
    busError_of_valid (inside hle)
  have fails {r : RegIdx} (hlt : s.cfg.memBytes < (s.readX r).toNat + 64) :
      s.busError r 64 = some (.busFault, s.readX r) := busError_of_lt (by decide) hlt
  refine ⟨by simp [encode, assemble_eq_or],
    fun ha => exec_of_errorOf (firstError_first (fails ha)),
    fun ha hb => exec_of_errorOf (firstError_second (passes ha) (firstError_first (fails hb))),
    fun ha hb hc => exec_of_errorOf
      (firstError_second (passes ha) (firstError_second (passes hb) (fails hc))),
    fun ha hb hc => ⟨_, exec_fnv1v_valid (inside ha) (inside hb) (inside hc), ?_⟩⟩
  obtain ⟨hin, hout⟩ := s.memWrite_mem_read (s.unsignedOp rc)
    (fnv1v (s.memRead (s.unsignedOp ra) 64) (s.memRead (s.unsignedOp rb) 64))
  refine ⟨fun j hj k hk => ?_, hout⟩
  rw [Nat.add_assoc, ← State.memRead, ← State.memRead, ← elem_fnv1v _ _ hj hk]
  exact hin (4 * j + k) (by omega)

end Sys2Proof.Machine
end

section
/-!
PROOFS. The epoch commands: ESEED and ECIP with their checked epoch operand, ECRST, and ENUM as its lookup
(42_epoch.md R140 to R148).
-/

namespace Sys2Proof.Machine

/-! ## The epoch operand (R141) -/

section EpochOperand

variable {s : State} {ra rc rd : RegIdx}

theorem epochError_of_out_of_range (h : (s.readX ra).toInt < 0 ∨ 2 ^ 31 - 1 < (s.readX ra).toInt) :
    s.epochError ra = some (.invalidEpoch, 0) :=
  epochError_eq_some.2 ⟨(s.validEpochOp_false_iff ra).2 h, rfl, rfl⟩

theorem exec_eseed_valid (he : s.validEpochOp ra = true) (hv : s.valid (s.unsignedOp rc) 32 = true) :
    exec (.eseed ra rc) s =
      .next (s.memWrite (s.unsignedOp rc) (epochSeed (s.epochOp ra)).toList) := by
  rw [exec_eseed, execEseed, he, hv]
  rfl

theorem exec_ecip_valid (he : s.validEpochOp ra = true) :
    exec (.ecip rd ra) s =
      .next (s.writeX rd (BitVec.ofNat 64 (effectiveEpoch (s.epochOp ra)))) := by
  rw [exec_ecip, execEcip, he]
  rfl

/-- The effective epoch of a valid operand fits the register it is written to (R147). -/
theorem toNat_ofNat_effectiveEpoch (he : s.validEpochOp ra = true) :
    (BitVec.ofNat 64 (effectiveEpoch (s.epochOp ra))).toNat = effectiveEpoch (s.epochOp ra) := by
  have hle := effectiveEpoch_le (s.epochOp ra)
  have hlt := s.epochOp_lt ra he
  exact (BitVec.toNat_ofNat _ 64).trans (Nat.mod_eq_of_lt (by omega))

end EpochOperand

/-- Settles O22: the chain is `epochSeed`, and the errors are the rows of R204 in their order. -/
theorem eseedWritesTheHashChain : Obligations.EseedWritesTheHashChain := by
  rintro ra rc s c rfl
  have valid (h0 : 0 ≤ (s.readX ra).toInt) (hmax : (s.readX ra).toInt ≤ 2 ^ 31 - 1) :
      s.validEpochOp ra = true := (s.validEpochOp_iff ra).2 ⟨h0, hmax⟩
  exact ⟨by simp [encode, assemble_eq_or],
    fun h => exec_of_errorOf (firstError_first (epochError_of_out_of_range h)),
    fun h0 hmax hlt => exec_of_errorOf
      (firstError_second (epochError_eq_none.2 (valid h0 hmax)) (busError_of_lt (by decide) hlt)),
    fun h0 hmax hle => ⟨epochSeed, _, fun k _ => elem_zeros k, epochSeed_succ,
      exec_eseed_valid (valid h0 hmax) (s.valid_of_le hle), s.memWrite_mem_read _ _⟩⟩

/-- Settles O26: a valid operand reads the same signed or unsigned. -/
theorem ecipHalvesFrom390 : Obligations.EcipHalvesFrom390 := by
  intro rd ra s
  refine ⟨by simp [encode, assemble_eq_or],
    fun h => exec_of_errorOf (epochError_of_out_of_range h), fun h0 hmax => ?_⟩
  have he : s.validEpochOp ra = true := (s.validEpochOp_iff ra).2 ⟨h0, hmax⟩
  refine ⟨_, exec_ecip_valid he, ?_, fun r hr => s.readX_writeX_of_ne _ hr, rfl⟩
  rw [State.readX_writeX_self, toNat_ofNat_effectiveEpoch he, s.epochOp_eq_toNat ra h0]
  rfl

/-- Settles O25. -/
theorem ecrstRestoresTheResetPair : Obligations.EcrstRestoresTheResetPair :=
  ⟨rfl, fun _ => ⟨zeros 32, fun k _ => elem_zeros k, rfl⟩⟩

/-! ## The reverse lookup and ENUM (R143, R144, R148) -/

/-- Whatever the lookup finds is cached with the seed asked for (R143). -/
theorem epochLookup_caches_found {c : EpochCache} {q : Bytes 32} {v : Word}
    (h : (epochLookup c q).1 = some v) : (epochLookup c q).2 = ⟨v, q⟩ := by
  obtain rfl | ⟨h1, h2⟩ | ⟨h1, h2, i, hi, hq, hmin⟩ | ⟨h1, h2, hno⟩ := epochLookup_cases c q
  · rw [epochLookup_cached] at h ⊢; cases h; rfl
  · rw [epochLookup_next h1 h2] at h ⊢; cases h; rfl
  · rw [epochLookup_scan h1 h2 hi hq hmin] at h ⊢; cases h; rfl
  · rw [epochLookup_notFound h1 h2 hno] at h; cases h

/-- NotFound is the failure of all three tests (R143). -/
theorem epochLookup_eq_none_iff {c : EpochCache} {q : Bytes 32} :
    (epochLookup c q).1 = none ↔
      (∀ i < enumLimit, epochSeed i ≠ q) ∧ q ≠ c.ecseed ∧ q ≠ seedNext c.ecseed := by
  refine ⟨fun h => ?_, fun ⟨hno, h1, h2⟩ => by rw [epochLookup_notFound h1 h2 hno]⟩
  obtain rfl | ⟨h1, h2⟩ | ⟨h1, h2, i, hi, hq, hmin⟩ | ⟨h1, h2, hno⟩ := epochLookup_cases c q
  · rw [epochLookup_cached] at h; cases h
  · rw [epochLookup_next h1 h2] at h; cases h
  · rw [epochLookup_scan h1 h2 hi hq hmin] at h; cases h
  · exact ⟨hno, h1, h2⟩

/-- What ENUM leaves behind, given its lookup's answer and cache: X[rd] if there is an answer, NF, the
cache, and the rest as before (R144). -/
structure EnumLeaves (rd : RegIdx) (s t : State) (l : Option Word × EpochCache) : Prop where
  answer : t.readX rd = l.1.getD (s.readX rd)
  nf : t.status.nf = l.1.isNone
  cache : t.ecache = l.2
  others : ∀ r, r ≠ rd → t.readX r = s.readX r
  frame : t = { s with x := t.x, ecache := t.ecache, status := { s.status with nf := t.status.nf } }

theorem exec_enum_valid {rd ra : RegIdx} {s : State} (hv : s.valid (s.unsignedOp ra) 32 = true) :
    ∃ t, exec (.enum rd ra) s = .next t ∧
      EnumLeaves rd s t (epochLookup s.ecache (s.memRead (s.unsignedOp ra) 32)) := by
  rw [exec_enum]
  match hl : epochLookup s.ecache (s.memRead (s.unsignedOp ra) 32) with
  | (none, c) => exact ⟨_, execEnum_notFound hv hl, rfl, rfl, rfl, fun _ _ => rfl, rfl⟩
  | (some v, c) =>
    exact ⟨_, execEnum_found hv hl, State.readX_writeX_self _ _ _, rfl, rfl,
      fun _ hr => State.readX_writeX_of_ne _ _ hr, rfl⟩

section EnumLeaves

variable {rd : RegIdx} {s t : State} {c : EpochCache} {q : Bytes 32}
  (h : EnumLeaves rd s t (epochLookup c q))
include h

theorem EnumLeaves.notFound_iff :
    t.status.nf = true ↔
      (∀ i < enumLimit, epochSeed i ≠ q) ∧ q ≠ c.ecseed ∧ q ≠ seedNext c.ecseed := by
  rw [h.nf, Option.isNone_iff_eq_none, epochLookup_eq_none_iff]

/-- After a hit, X[rd] and the seed asked for are the cached pair. -/
theorem EnumLeaves.cache_of_found (hnf : t.status.nf = false) : t.ecache = ⟨t.readX rd, q⟩ := by
  obtain ⟨v, hv⟩ : ∃ v, (epochLookup c q).1 = some v :=
    Option.isSome_iff_exists.1 (Option.isNone_eq_false_iff.1 (h.nf.symm.trans hnf))
  rw [h.cache, h.answer, epochLookup_caches_found hv, hv]
  rfl

end EnumLeaves

/-- Settles O23: each clause is the lookup's lemma for its case. -/
theorem enumFollowsTheLookupOrder : Obligations.EnumFollowsTheLookupOrder := by
  rintro rd ra s q rfl
  refine ⟨by simp [encode, assemble_eq_or],
    fun hlt => exec_of_errorOf (busError_of_lt (by decide) hlt), fun hle => ?_⟩
  obtain ⟨t, ht, answer, nf, cache, others, frame⟩ := exec_enum_valid (rd := rd) (s.valid_of_le hle)
  have leaves {v : Option Word} {c : EpochCache}
      (hl : epochLookup s.ecache (s.memRead (s.unsignedOp ra) 32) = (v, c)) :
      t.readX rd = v.getD (s.readX rd) ∧ t.status.nf = v.isNone ∧ t.ecache = c := by
    rw [hl] at answer nf cache
    exact ⟨answer, nf, cache⟩
  exact ⟨t, ht,
    fun h => leaves ((congrArg (epochLookup s.ecache) h).trans (epochLookup_cached s.ecache)),
    fun h hn => leaves (epochLookup_next h hn),
    fun h hn => ⟨fun i hi hq hmin => leaves (epochLookup_scan h hn hi hq hmin),
      fun hno => leaves (epochLookup_notFound h hn hno)⟩, others, frame⟩

/-- Settles O24: a hit leaves X[rd] and `q` as the cached pair, and ENUM keeps that pair true (R28). -/
theorem enumAnswersATrueEpoch : Obligations.EnumAnswersATrueEpoch := by
  rintro rd ra s t q rfl htrue hwrap hle ht
  obtain ⟨t', ht', hleaves⟩ := exec_enum_valid (rd := rd) (s.valid_of_le hle)
  cases ht'.symm.trans ht
  have hpair : t.ecache.ecseed = epochSeed t.ecache.ecepoch.toNat := exec_seedTrue htrue hwrap ht
  refine ⟨fun hnf => ?_, fun ⟨i, hi, hq⟩ => ?_, hleaves.notFound_iff⟩
  · rw [hleaves.cache_of_found hnf] at hpair
    exact hpair.symm
  · exact Bool.eq_false_iff.2 fun hnf => (hleaves.notFound_iff.1 hnf).1 i hi hq

end Sys2Proof.Machine
end

section
/-!
PROOFS. The prime-size calculators: what PRIME, LCOUNT and DCOUNT write is the result of the prime search,
which fits 64 bits because its bound does (43_size.md R160 to R169).
-/

namespace Sys2Proof.Machine

/-! ## The search's result as a register value, and its growth (R160) -/

theorem toNat_ofNat_largestPrimeAtMost {b : Nat} (h : b < 2 ^ 64) :
    (BitVec.ofNat 64 (largestPrimeAtMost b)).toNat = largestPrimeAtMost b :=
  (BitVec.toNat_ofNat _ 64).trans (Nat.mod_eq_of_lt (largestPrimeAtMost_le.trans_lt h))

theorem largestPrimeAtMost_mono {b c : Nat} (h2 : 2 ≤ b) (h : b ≤ c) :
    largestPrimeAtMost b ≤ largestPrimeAtMost c := by
  obtain ⟨hprime, hle, -⟩ := largestPrimeAtMost_spec h2
  obtain ⟨-, -, hmax⟩ := largestPrimeAtMost_spec (h2.trans h)
  exact hmax _ hprime (hle.trans h)

/-! ## PRIME (R162) -/

/-- Settles O27: a bound from 2 on is a natural number below 2^63. -/
theorem primeWritesTheLargestPrime : Obligations.PrimeWritesTheLargestPrime := by
  intro rd ra s
  refine ⟨by simp [encode, assemble_eq_or], _, exec_prime rd ra s, fun hlt => ?_, fun h2 => ?_,
    fun r hr => s.readX_writeX_of_ne _ hr, rfl⟩
  · rw [State.readX_writeX_self, State.sintOp, largestPrimeAtMost_of_lt hlt]
    rfl
  · have hfit := BitVec.toInt_lt (x := s.readX ra)
    rw [State.readX_writeX_self, State.sintOp]
    lift (s.readX ra).toInt to Nat using by omega with b
    rw [toNat_ofNat_largestPrimeAtMost (by omega)]
    exact_mod_cast largestPrimeAtMost_spec (b := b) (by omega)

/-! ## The counts (R164, R165, R169) -/

theorem lightCount_eq (e : Nat) : lightCount e = largestPrimeAtMost (262144 + 2048 * e : Nat) := rfl

theorem fullCount_eq (e : Nat) : fullCount e = largestPrimeAtMost (8388608 + 65536 * e : Nat) := rfl

/-- Settles O29: the bounds are at least 2 and do not decrease in `e`. -/
theorem countsArePrimeAndNonDecreasing : Obligations.CountsArePrimeAndNonDecreasing := by
  intro e _
  simp only [lightCount_eq, fullCount_eq]
  exact ⟨(largestPrimeAtMost_spec (by omega)).1, (largestPrimeAtMost_spec (by omega)).1,
    largestPrimeAtMost_mono (by omega) (by omega), largestPrimeAtMost_mono (by omega) (by omega)⟩

/-! ## LCOUNT and DCOUNT (R166, R167) -/

/-- What LCOUNT and DCOUNT share: with a valid epoch operand, a count whose bound is linear in the epoch
and fits 64 bits is written as it is. -/
theorem countOp_writes_largestPrime {count : Nat → Nat} {init growth : Nat} {rd ra : RegIdx} {s : State}
    (hcount : ∀ e : Nat, count e = largestPrimeAtMost (init + growth * e : Nat))
    (h2 : 2 ≤ init) (hfit : init + growth * 2 ^ 31 < 2 ^ 64) (he : s.validEpochOp ra = true) :
    ∃ t, countOp count rd ra s = .next t ∧ (t.readX rd).toNat.Prime ∧
      (t.readX rd).toNat ≤ init + growth * (s.readX ra).toNat ∧
      (∀ p : Nat, p.Prime → p ≤ init + growth * (s.readX ra).toNat → p ≤ (t.readX rd).toNat) ∧
      (∀ r, r ≠ rd → t.readX r = s.readX r) ∧ t = { s with x := t.x } := by
  have hexec : countOp count rd ra s =
      .next (s.writeX rd (BitVec.ofNat 64 (count (s.epochOp ra)))) := by
    rw [countOp, he]
    rfl
  have hepoch : s.epochOp ra = (s.readX ra).toNat :=
    s.epochOp_eq_toNat ra ((s.validEpochOp_iff ra).1 he).1
  have hbound : growth * (s.readX ra).toNat ≤ growth * 2 ^ 31 :=
    Nat.mul_le_mul_left growth (hepoch ▸ s.epochOp_lt ra he).le
  obtain ⟨hprime, hle, hmax⟩ :=
    largestPrimeAtMost_spec (b := init + growth * (s.readX ra).toNat) (by omega)
  refine ⟨_, hexec, ?_⟩
  rw [State.readX_writeX_self, hcount, hepoch, toNat_ofNat_largestPrimeAtMost (by omega)]
  exact ⟨hprime, hle, hmax, fun r hr => s.readX_writeX_of_ne _ hr, rfl⟩

/-- Settles O28: the errors are the rows of R204, and the counts those of `countOp`. -/
theorem countsAreLargestPrimesBelowTheirBounds : Obligations.CountsAreLargestPrimesBelowTheirBounds := by
  intro rd ra s
  refine ⟨by simp [encode, assemble_eq_or], by simp [encode, assemble_eq_or], fun h => ?_,
    fun h0 hmax => ?_⟩
  · have herr := epochError_of_out_of_range h
    exact ⟨exec_of_errorOf herr, exec_of_errorOf herr⟩
  · have he : s.validEpochOp ra = true := (s.validEpochOp_iff ra).2 ⟨h0, hmax⟩
    exact ⟨countOp_writes_largestPrime lightCount_eq (by decide) (by decide) he,
      countOp_writes_largestPrime fullCount_eq (by decide) (by decide) he⟩

end Sys2Proof.Machine
end

section
/-!
PROOFS. The light cache: CTXSET and its checks, BUILDLC as a sequence of item writes, and what the items it
leaves depend on (44_cache.md R170 to R174).
-/

namespace Sys2Proof.Machine

/-! ## CTXSET (R170) -/

theorem exec_ctxset_valid {s : State} {ra rb : RegIdx}
    (hn : ¬(s.unsignedOp rb = 0 ∨ s.unsignedOp rb > lccountMax))
    (hv : s.valid (s.unsignedOp ra) (64 * s.unsignedOp rb) = true) :
    exec (.ctxset ra rb) s = .next (s.setCtx { lcbase := s.readX ra, lccount := s.readX rb }) := by
  rw [exec_ctxset, execCtxset, if_neg hn, hv]
  rfl

/-- Settles O30: the errors are the row of R204, the count before the region. -/
theorem ctxsetSetsTheContext : Obligations.CtxsetSetsTheContext := by
  rintro ra rb s n rfl
  have legal (h1 : 1 ≤ (s.readX rb).toNat) (hmax : (s.readX rb).toNat ≤ 2 ^ 32 - 1) :
      ¬(s.unsignedOp rb = 0 ∨ s.unsignedOp rb > lccountMax) :=
    not_or.2 ⟨Nat.ne_of_gt h1, Nat.not_lt.2 hmax⟩
  refine ⟨by simp [encode, assemble_eq_or],
    fun h => exec_of_errorOf (firstError_first (countError_eq_some.2 ⟨h, rfl, rfl⟩)),
    fun h1 hmax hlt => exec_of_errorOf (firstError_second (countError_eq_none.2 (legal h1 hmax))
      (busError_of_lt (Nat.mul_ne_zero (by decide) (Nat.ne_of_gt h1)) hlt)),
    fun h1 hmax hle => exec_ctxset_valid (legal h1 hmax) (s.valid_of_le hle)⟩

/-! ## The build as a sequence of memories (R171) -/

namespace Context

/-- Without a further item the chain stage is the write of item 0 (R171). -/
theorem chain_one (c : Context) (seed : Bytes 32) (m : Memory) :
    c.chain 1 seed m = c.putItem m 0 (k512 seed.toList) := rfl

/-- The chain stage, one item longer (R171). -/
theorem chain_succ (c : Context) (i : Nat) (seed : Bytes 32) (m : Memory) :
    c.chain (i + 2) seed m =
      c.putItem (c.chain (i + 1) seed m) (i + 1) (k512 (c.item (c.chain (i + 1) seed m) i).toList) :=
  foldl_range_succ _ _ i

/-- The memory in smoothing pass `p` of a build of `n` items, when the indices below `i` are done. -/
def smoothing (c : Context) (n : Nat) (seed : Bytes 32) (m : Memory) (p i : Nat) : Memory :=
  (List.range i).foldl (c.smoothItem n) (Nat.repeat (c.smoothPass n) p (c.chain n seed m))

section Smoothing

variable (c : Context) (n : Nat) (seed : Bytes 32) (m : Memory)

theorem smoothing_start : c.smoothing n seed m 0 0 = c.chain n seed m := rfl

/-- A pass begins where the one before has done all its indices. -/
theorem smoothing_next_pass (p : Nat) :
    c.smoothing n seed m (p + 1) 0 = c.smoothing n seed m p n := rfl

theorem smoothing_succ (p i : Nat) :
    c.smoothing n seed m p (i + 1) = c.smoothItem n (c.smoothing n seed m p i) i :=
  foldl_range_succ _ _ i

/-- The build is done when a fourth pass would begin. -/
theorem smoothing_end : c.smoothing c.lccount.toNat seed m 3 0 = c.buildLightCache seed m := rfl

end Smoothing

/-- One index of a pass, written out at the addresses of its items (R171). -/
theorem smoothItem_eq_write (c : Context) (n : Nat) (m : Memory) (i : Nat) :
    c.smoothItem n m i = m.write (c.lcbase.toNat + 64 * i)
      (k512 ((List.range 64).map fun k =>
        m.read (c.lcbase.toNat +
            64 * ((le32 (m.readBytes (c.lcbase.toNat + 64 * i) 64) 0).toNat % n) + k) ^^^
          m.read (c.lcbase.toNat + 64 * ((n + i - 1) % n) + k))).toList := by
  rw [← xorBytes_item_toList]
  rfl

end Context

/-! ## BUILDLC (R172) -/

theorem exec_buildlc_valid {s : State} {ra : RegIdx} (hn : s.ctx.lccount ≠ 0)
    (ha : (s.readX ra).toNat + 32 ≤ s.cfg.memBytes)
    (hc : s.ctx.lcbase.toNat + 64 * s.ctx.lccount.toNat ≤ s.cfg.memBytes) :
    exec (.buildlc ra) s =
      .next { s with mem := s.ctx.buildLightCache (s.memRead (s.unsignedOp ra) 32) s.mem } :=
  execBuildlc_built hn (s.valid_of_le ha) (s.valid_of_le hc)

/-- BUILDLC answers a next state after its checks only with the light cache built. -/
theorem mem_of_exec_buildlc {s t : State} {ra : RegIdx} (hn : s.ctx.lccount ≠ 0)
    (ha : (s.readX ra).toNat + 32 ≤ s.cfg.memBytes) (h : exec (.buildlc ra) s = .next t) :
    t.mem = s.ctx.buildLightCache (s.memRead (s.unsignedOp ra) 32) s.mem := by
  have hv : s.valid (s.unsignedOp ra) 32 = true := s.valid_of_le ha
  rw [exec_buildlc] at h
  cases hc : s.lightCacheInMem with
  | true => cases (execBuildlc_built hn hv hc).symm.trans h; rfl
  | false => cases (execBuildlc_outside hn hv hc).symm.trans h

/-- Settles O31: `C i` is the memory after a chain of `i + 1` items, `P p i` the one before index `i` of
pass `p`. -/
theorem buildlcRunsChainAndPasses : Obligations.BuildlcRunsChainAndPasses := by
  rintro ra s n base seed rfl rfl rfl
  refine ⟨by simp [encode, assemble_eq_or], fun h0 => ?_, fun hn hlt => ?_, fun hn ha hc => ?_⟩
  · exact execBuildlc_context (BitVec.eq_of_toNat_eq h0)
  · exact execBuildlc_bus (lccount_ne_zero.2 hn) (s.not_valid_of_lt (by decide) hlt)
  · let seed := s.memRead (s.unsignedOp ra) 32
    refine ⟨fun i => s.ctx.chain (i + 1) seed s.mem, s.ctx.smoothing s.ctx.lccount.toNat seed s.mem,
      s.ctx.chain_one seed s.mem, fun i _ => s.ctx.chain_succ i seed s.mem,
      (s.ctx.smoothing_start _ seed s.mem).trans
        (congrArg (s.ctx.chain · seed s.mem) (Nat.sub_one_add_one hn).symm),
      fun p _ => s.ctx.smoothing_next_pass _ seed s.mem p, ?_, ?_, fun b hb => ?_⟩
    · rintro p - i - v w rfl rfl
      rw [Context.smoothing_succ, Context.smoothItem_eq_write]
    · rw [Context.smoothing_end]
      exact exec_buildlc_valid (lccount_ne_zero.2 hn) ha hc
    · rw [Context.smoothing_end]
      exact s.ctx.buildLightCache_read_of_outside seed s.mem hn hb

/-! ## What the build depends on (R174) -/

namespace Context

/-- Two light caches, each in its own memory, hold the same first `n` items. -/
def SameItems (c c' : Context) (n : Nat) (m m' : Memory) : Prop :=
  ∀ i < n, c.item m i = c'.item m' i

section SameItems

variable {c c' : Context} {n : Nat} {m m' : Memory}

/-- One value written to one item on both sides: that item need not have been the same before. -/
theorem SameItems.putItem {i : Nat} {v : Bytes 64}
    (h : ∀ j < n, j ≠ i → c.item m j = c'.item m' j) :
    SameItems c c' n (c.putItem m i v) (c'.putItem m' i v) := by
  intro j hj
  by_cases hji : j = i
  · rw [hji, item_putItem_self, item_putItem_self]
  · rw [item_putItem_of_ne _ _ _ hji, item_putItem_of_ne _ _ _ hji, h j hj hji]

theorem chain_sameItems (seed : Bytes 32) (k : Nat) :
    SameItems c c' (k + 1) (c.chain (k + 1) seed m) (c'.chain (k + 1) seed m') := by
  induction k with
  | zero => exact SameItems.putItem fun j hj hne => absurd (Nat.lt_one_iff.1 hj) hne
  | succ k ih =>
    rw [chain_succ, chain_succ, ih k (Nat.lt_succ_self k)]
    exact SameItems.putItem fun j hj hne => ih j (by omega)

theorem smoothItem_sameItems (h : SameItems c c' n m m') {i : Nat} (hi : i < n) :
    SameItems c c' n (c.smoothItem n m i) (c'.smoothItem n m' i) := by
  have hn : 0 < n := Nat.zero_lt_of_lt hi
  unfold smoothItem
  dsimp only
  rw [h i hi, h _ (Nat.mod_lt _ hn), h _ (Nat.mod_lt _ hn)]
  exact SameItems.putItem fun j hj _ => h j hj

theorem smoothPass_sameItems (h : SameItems c c' n m m') :
    SameItems c c' n (c.smoothPass n m) (c'.smoothPass n m') :=
  List.foldl_rel h fun _ hi _ _ hm => smoothItem_sameItems hm (List.mem_range.1 hi)

theorem buildLightCache_sameItems (hc : c.lccount = c'.lccount) (hn : c.lccount.toNat ≠ 0)
    (seed : Bytes 32) :
    SameItems c c' c.lccount.toNat (c.buildLightCache seed m) (c'.buildLightCache seed m') := by
  have hchain : SameItems c c' c.lccount.toNat (c.chain c.lccount.toNat seed m)
      (c'.chain c.lccount.toNat seed m') := by
    rw [← Nat.sub_one_add_one hn]
    exact chain_sameItems seed _
  rw [buildLightCache_eq, buildLightCache_eq, ← hc]
  exact smoothPass_sameItems (smoothPass_sameItems (smoothPass_sameItems hchain))

/-- The bytes of two regions that hold the same items are the same (R26). -/
theorem SameItems.read_eq (h : SameItems c c' n m m') {j : Nat} (hj : j < 64 * n) :
    m.read (c.lcbase.toNat + j) = m'.read (c'.lcbase.toNat + j) := by
  have hk : j % 64 < 64 := Nat.mod_lt _ (by decide)
  have key := congrArg (elem · (j % 64)) (h (j / 64) (Nat.div_lt_of_lt_mul hj))
  simpa only [elem_item _ _ _ hk, itemAddr, Nat.add_assoc, Nat.div_add_mod] using key

end SameItems

end Context

/-- Settles O32: two builds from one seed make the same items, stage by stage. -/
theorem buildlcDependsOnCountAndSeedAlone : Obligations.BuildlcDependsOnCountAndSeedAlone := by
  intro ra ra' s s' t t' hcount hn hseed ha ha' h h' j hj
  have hmem' : t'.mem = s'.ctx.buildLightCache (s.memRead (s.unsignedOp ra) 32) s'.mem :=
    (mem_of_exec_buildlc (hcount ▸ hn) ha' h').trans
      (congrArg (s'.ctx.buildLightCache · s'.mem) hseed.symm)
  rw [mem_of_exec_buildlc hn ha h, hmem']
  exact (Context.buildLightCache_sameItems hcount (lccount_ne_zero.1 hn) _).read_eq hj

/-! ## A light cache of one item (R172) -/

theorem xorBytes_self {n : Nat} (A : Bytes n) : xorBytes A A = zeros n := by
  apply vector_ext_elem
  intro k hk
  rw [elem_xorBytes _ _ hk, BitVec.xor_self, elem_zeros]

/-- With one item, both items of the XOR are that item (R171, R172). -/
theorem Context.smoothItem_of_one (c : Context) (m : Memory) :
    c.smoothItem 1 m 0 = c.putItem m 0 (k512 (List.replicate 64 0)) := by
  unfold smoothItem
  dsimp only
  rw [Nat.mod_one, Nat.mod_one, xorBytes_self]
  rfl

/-- Settles O33: the last pass overwrites the item, whatever the earlier stages left. -/
theorem buildlcOfOneItemForgetsTheSeed : Obligations.BuildlcOfOneItemForgetsTheSeed := by
  intro ra s hone ha hc
  have hn : s.ctx.lccount.toNat = 1 := congrArg BitVec.toNat hone
  refine ⟨_, exec_buildlc_valid (lccount_ne_zero.2 (by omega)) ha (by omega), fun k hk => ?_⟩
  dsimp only
  rw [Context.buildLightCache_eq, hn]
  exact (congrArg (Memory.read · _) (s.ctx.smoothItem_of_one _)).trans
    (Memory.read_write_vector _ _ _ hk)

end Sys2Proof.Machine
end

section
/-!
PROOFS. Dataset items: the one changed word of the first mix, the mix as a sequence of rounds, the parts of
the two wider items, and what a dataset item depends on (45_dataset.md R180 to R186).
-/

namespace Sys2Proof.Machine

/-! ## One word of a byte string replaced (R14) -/

/-- A word of any width is its bytes. -/
theorem bitVec_ext_byteOf {w : Nat} {u v : BitVec w} (h : ∀ k, 8 * k < w → byteOf u k = byteOf v k) :
    u = v := by
  apply BitVec.eq_of_getLsbD_eq
  intro i hi
  have hbyte := congrArg (·.getLsbD (i % 8)) (h (i / 8) (by omega))
  have hlt : i % 8 < 8 := Nat.mod_lt _ (by decide)
  simpa [byteOf, BitVec.getLsbD_extractLsb', hlt, Nat.div_add_mod] using hbyte

theorem elem_setWord32 {n : Nat} (B : Bytes n) (j : Nat) (v : Word32) {i : Nat} (h : i < n) :
    elem (setWord32 B j v) i = if i / 4 = j then byteOf v (i % 4) else elem B i := by
  rw [setWord32, elem_ofFn _ h]

theorem le32_setWord32 {n : Nat} (B : Bytes n) (j : Nat) (v : Word32) {i : Nat} (h : 4 * i + 4 ≤ n) :
    le32 (setWord32 B j v) i = if i = j then v else le32 B i := by
  apply bitVec_ext_byteOf
  intro k hk
  have hk4 : k < 4 := by omega
  have hdiv : (4 * i + k) / 4 = i := by omega
  have hmod : (4 * i + k) % 4 = k := by omega
  rw [byteOf_le32 _ _ _ hk4, elem_setWord32 _ _ _ (by omega), hdiv, hmod]
  split
  · rfl
  · rw [byteOf_le32 _ _ _ hk4]

/-! ## The mix as a sequence (R180) -/

/-- The mix of item `idx` after `r` rounds. -/
def mixAfter (c : Context) (m : Memory) (idx : Word) (r : Nat) : Bytes 64 :=
  (List.range r).foldl (mixRound c m (idx.setWidth 32)) (mixStart c m idx)

theorem mixAfter_zero (c : Context) (m : Memory) (idx : Word) :
    mixAfter c m idx 0 = mixStart c m idx := rfl

theorem mixAfter_succ (c : Context) (m : Memory) (idx : Word) (r : Nat) :
    mixAfter c m idx (r + 1) = mixRound c m (idx.setWidth 32) (mixAfter c m idx r) r :=
  foldl_range_succ _ _ r

theorem item512_eq_mixAfter (c : Context) (m : Memory) (idx : Word) :
    item512 c m idx = k512 (mixAfter c m idx 256).toList := rfl

/-- The first mix, with the address of its item written out (R26, R180). -/
theorem mixStart_eq (c : Context) (m : Memory) (idx : Word) {A : Bytes 64}
    (hA : A = m.readBytes (c.lcbase.toNat + 64 * (idx.toNat % c.lccount.toNat)) 64) :
    mixStart c m idx = k512 (setWord32 A 0 (le32 A 0 ^^^ idx.setWidth 32)).toList := by
  rw [hA, ← Context.item_eq, mixStart]

/-- One round, with the address of its parent item written out (R26, R180). -/
theorem mixRound_eq (c : Context) (m : Memory) (sd : Word32) (mix : Bytes 64) (r : Nat) :
    mixRound c m sd mix r = fnv1v mix (m.readBytes (c.lcbase.toNat +
      64 * ((fnv1 (sd ^^^ BitVec.ofNat 32 r) (le32 mix (r % 16))).toNat % c.lccount.toNat)) 64) := by
  rw [mixRound, Context.item_eq]

/-! ## The parts of the wider items (R181, R182) -/

/-- Index arithmetic on 64-bit words is arithmetic mod 2^64. -/
theorem ofNat_mul_toNat_add (a h : Nat) (k : Word) :
    BitVec.ofNat 64 (a * k.toNat + h) = BitVec.ofNat 64 a * k + BitVec.ofNat 64 h := by
  rw [BitVec.ofNat_add, BitVec.ofNat_mul, BitVec.ofNat_toNat, BitVec.setWidth_eq]

theorem elem_item1024 (c : Context) (m : Memory) (k : Word) {h j : Nat} (hh : h < 2) (hj : j < 64) :
    elem (item1024 c m k) (64 * h + j) =
      elem (item512 c m (BitVec.ofNat 64 (2 * k.toNat + h))) j := by
  rw [ofNat_mul_toNat_add, item1024]
  obtain rfl | rfl : h = 0 ∨ h = 1 := by omega
  · rw [BitVec.add_zero, Nat.mul_zero, Nat.zero_add]
    exact elem_append_left _ _ hj
  · exact elem_append_right _ _ hj

theorem elem_item2048 (c : Context) (m : Memory) (k : Word) {h j : Nat} (hh : h < 4) (hj : j < 64) :
    elem (item2048 c m k) (64 * h + j) =
      elem (item512 c m (BitVec.ofNat 64 (4 * k.toNat + h))) j := by
  rw [ofNat_mul_toNat_add, item2048]
  obtain rfl | rfl | rfl | rfl : h = 0 ∨ h = 1 ∨ h = 2 ∨ h = 3 := by omega
  · rw [elem_append_left _ _ (by omega), elem_append_left _ _ (by omega), BitVec.add_zero,
      Nat.mul_zero, Nat.zero_add]
    exact elem_append_left _ _ hj
  · rw [elem_append_left _ _ (by omega), elem_append_left _ _ (by omega)]
    exact elem_append_right _ _ hj
  · rw [elem_append_left _ _ (by omega)]
    exact elem_append_right _ _ hj
  · exact elem_append_right _ _ hj

/-! ## The commands (R183 to R185) -/

section DatasetOp

variable {d : Nat} {make : Context → Memory → Word → Bytes d} {ra rc : RegIdx} {s : State}

theorem datasetOp_busFault (hd : d ≠ 0) (hn : s.ctx.lccount ≠ 0)
    (hlt : s.cfg.memBytes < (s.readX rc).toNat + d) :
    datasetOp make ra rc s = .next (s.raise .busFault (s.readX rc)) :=
  datasetOp_bus hn (s.not_valid_of_lt hd hlt)

/-- What the DITEM commands leave in MEM: the item made from the memory before, and the rest as before. -/
theorem datasetOp_writes (hn : s.ctx.lccount ≠ 0) (hle : (s.readX rc).toNat + d ≤ s.cfg.memBytes)
    (hc : s.ctx.lcbase.toNat + 64 * s.ctx.lccount.toNat ≤ s.cfg.memBytes) :
    ∃ m : Memory, datasetOp make ra rc s = .next { s with mem := m } ∧
      (∀ k < d, m.read ((s.readX rc).toNat + k) = elem (make s.ctx s.mem (s.readX ra)) k) ∧
      ∀ b, b < (s.readX rc).toNat ∨ (s.readX rc).toNat + d ≤ b → m.read b = s.mem.read b :=
  ⟨_, datasetOp_made hn (s.valid_of_le hle) (s.valid_of_le hc), s.memWrite_mem_read _ _⟩

/-- A DITEM command answers a next state after its checks only with the item written. -/
theorem read_of_datasetOp {t : State} (hn : s.ctx.lccount ≠ 0)
    (hle : (s.readX rc).toNat + d ≤ s.cfg.memBytes) (h : datasetOp make ra rc s = .next t)
    {k : Nat} (hk : k < d) :
    t.mem.read ((s.readX rc).toNat + k) = elem (make s.ctx s.mem (s.readX ra)) k := by
  have hv : s.valid (s.unsignedOp rc) d = true := s.valid_of_le hle
  cases hc : s.lightCacheInMem with
  | true =>
    cases (datasetOp_made hn hv hc).symm.trans h
    exact (s.memWrite_mem_read _ _).1 k hk
  | false => cases (datasetOp_outside hn hv hc).symm.trans h

end DatasetOp

/-- Settles O34: the mix runs through `mixAfter`, and its first word is changed by `setWord32`. -/
theorem ditemDerivesOneItem : Obligations.DitemDerivesOneItem := by
  rintro ra rc s n c sd A rfl rfl rfl hA
  refine ⟨by simp [encode, assemble_eq_or], fun h0 => ?_, fun hn hlt => ?_, fun hn hle hc => ?_⟩
  · exact datasetOp_context (BitVec.eq_of_toNat_eq h0)
  · exact datasetOp_busFault (by decide) (lccount_ne_zero.2 hn) hlt
  · obtain ⟨m, hexec, hin, hout⟩ :=
      datasetOp_writes (make := item512) (ra := ra) (lccount_ne_zero.2 hn) hle hc
    rw [item512_eq_mixAfter] at hin
    refine ⟨setWord32 A 0 (le32 A 0 ^^^ (s.readX ra).setWidth 32), mixAfter s.ctx s.mem (s.readX ra), m,
      ?_, fun j hj hne => ?_, ?_, fun r _ => ?_, hexec, hin, hout⟩
    · rw [le32_setWord32 _ _ _ (by decide), if_pos rfl]
    · rw [le32_setWord32 _ _ _ (by omega), if_neg hne]
    · rw [mixAfter_zero, mixStart_eq _ _ _ hA]
    · rw [mixAfter_succ, mixRound_eq]

/-- Settles O35: both commands are `datasetOp`, and the parts of their items are `item512` of consecutive
indices. -/
theorem ditemGroupsAreConsecutiveItems : Obligations.DitemGroupsAreConsecutiveItems := by
  rintro ra rc s k c rfl rfl
  refine ⟨by simp [encode, assemble_eq_or], by simp [encode, assemble_eq_or],
    fun h0 => ⟨datasetOp_context h0, datasetOp_context h0⟩,
    fun hn => ⟨datasetOp_busFault (by decide) hn, datasetOp_busFault (by decide) hn⟩,
    fun hn hc => ⟨fun hle => ?_, fun hle => ?_⟩⟩
  · obtain ⟨m, hexec, hin, hout⟩ := datasetOp_writes (make := item1024) (ra := ra) hn hle hc
    refine ⟨m, hexec, fun h hh j hj => ?_, hout⟩
    rw [Nat.add_assoc, hin _ (by omega), elem_item1024 _ _ _ hh hj]
  · obtain ⟨m, hexec, hin, hout⟩ := datasetOp_writes (make := item2048) (ra := ra) hn hle hc
    refine ⟨m, hexec, fun h hh j hj => ?_, hout⟩
    rw [Nat.add_assoc, hin _ (by omega), elem_item2048 _ _ _ hh hj]

/-! ## What a dataset item depends on (R186) -/

/-- Two regions of the same bytes hold the same items (R26). -/
theorem Context.SameItems.of_read_eq {c c' : Context} {n : Nat} {m m' : Memory}
    (h : ∀ j < 64 * n, m.read (c.lcbase.toNat + j) = m'.read (c'.lcbase.toNat + j)) :
    SameItems c c' n m m' := by
  intro i hi
  apply item_congr
  intro k hk
  rw [itemAddr, itemAddr, Nat.add_assoc, Nat.add_assoc, h (64 * i + k) (by omega)]

section SameItems

variable {c c' : Context} {m m' : Memory}

theorem mixStart_congr (hc : c.lccount = c'.lccount) (hn : c.lccount.toNat ≠ 0)
    (h : Context.SameItems c c' c.lccount.toNat m m') (idx : Word) :
    mixStart c m idx = mixStart c' m' idx := by
  rw [mixStart, mixStart, ← hc, h _ (Nat.mod_lt _ (Nat.pos_of_ne_zero hn))]

theorem item512_congr (hc : c.lccount = c'.lccount) (hn : c.lccount.toNat ≠ 0)
    (h : Context.SameItems c c' c.lccount.toNat m m') : item512 c m = item512 c' m' := by
  funext idx
  have hround : mixRound c m (idx.setWidth 32) = mixRound c' m' (idx.setWidth 32) :=
    funext₂ (mixRound_congr hc hn h _)
  rw [item512, item512, hround, mixStart_congr hc hn h]

end SameItems

/-- Two machines whose items agree leave the same bytes at their destinations. -/
theorem datasetOp_read_congr {d : Nat} {make : Context → Memory → Word → Bytes d}
    {ra rc ra' rc' : RegIdx} {s s' t t' : State} (hra : s.readX ra = s'.readX ra')
    (hmake : make s.ctx s.mem (s'.readX ra') = make s'.ctx s'.mem (s'.readX ra'))
    (hn : s.ctx.lccount ≠ 0) (hn' : s'.ctx.lccount ≠ 0)
    (hle : (s.readX rc).toNat + d ≤ s.cfg.memBytes) (hle' : (s'.readX rc').toNat + d ≤ s'.cfg.memBytes)
    (h : datasetOp make ra rc s = .next t) (h' : datasetOp make ra' rc' s' = .next t')
    {j : Nat} (hj : j < d) :
    t.mem.read ((s.readX rc).toNat + j) = t'.mem.read ((s'.readX rc').toNat + j) := by
  rw [read_of_datasetOp hn hle h hj, read_of_datasetOp hn' hle' h' hj, hra, hmake]

/-- Settles O36: equal bytes are equal items, and each command makes its item of `item512`. -/
theorem datasetItemsDependOnTheCacheAlone : Obligations.DatasetItemsDependOnTheCacheAlone := by
  intro ra rc ra' rc' s s' hra hcount hn hread d i i' hi hle hle' t t' h h' j hj
  have hn' : s'.ctx.lccount ≠ 0 := hcount ▸ hn
  have hitem : item512 s.ctx s.mem = item512 s'.ctx s'.mem :=
    item512_congr hcount (lccount_ne_zero.1 hn) (.of_read_eq hread)
  obtain ⟨rfl, rfl, rfl⟩ | ⟨rfl, rfl, rfl⟩ | ⟨rfl, rfl, rfl⟩ := hi
  · exact datasetOp_read_congr hra (by rw [hitem]) hn hn' hle hle' h h' hj
  · exact datasetOp_read_congr hra (by rw [item1024, item1024, hitem]) hn hn' hle hle' h h' hj
  · exact datasetOp_read_congr hra (by rw [item2048, item2048, hitem]) hn hn' hle hle' h h' hj

end Sys2Proof.Machine
end

section
/-!
PROOFS. Errors: the first error of R204's table, error entry and its precision, and the return from it
(60_exceptions.md R200 to R206).
-/

namespace Sys2Proof.Machine

/-- Settles O38: `raise` keeps the information of BUS_FAULT alone. -/
theorem errorEntryWritesTheRecord : Obligations.ErrorEntryWritesTheRecord :=
  ⟨by decide, fun s e a => by cases e <;> rfl⟩

/-! ## The first error (R202, R204) -/

/-- A next state has ERR, ECODE, ERRCMD and ERRADDR as `s` has them. -/
def ErrorRecordKept (s : State) (o : Result) : Prop :=
  ∀ t, o = .next t →
    t.status.err = s.status.err ∧ t.status.ecode = s.status.ecode ∧ t.errcmd = s.errcmd ∧
    t.erraddr = s.erraddr

section ErrorRecordKept

variable {s : State} {rd ra rb rc : RegIdx}

theorem ErrorRecordKept.next {u : State} (herr : u.status.err = s.status.err)
    (hecode : u.status.ecode = s.status.ecode) (hcmd : u.errcmd = s.errcmd)
    (haddr : u.erraddr = s.erraddr) : ErrorRecordKept s (.next u) := by
  rintro _ ⟨⟩
  exact ⟨herr, hecode, hcmd, haddr⟩

theorem ErrorRecordKept.setSponge (sp : Sponge) : ErrorRecordKept s (.next (s.setSponge sp)) :=
  .next rfl rfl rfl rfl

theorem ErrorRecordKept.writeX (r : RegIdx) (v : Word) : ErrorRecordKept s (.next (s.writeX r v)) :=
  .next rfl rfl rfl rfl

theorem ErrorRecordKept.setCtx (c : Context) : ErrorRecordKept s (.next (s.setCtx c)) :=
  .next rfl rfl rfl rfl

theorem ErrorRecordKept.setEcache (c : EpochCache) : ErrorRecordKept s (.next (s.setEcache c)) :=
  .next rfl rfl rfl rfl

theorem ErrorRecordKept.withMem (m : Memory) : ErrorRecordKept s (.next { s with mem := m }) :=
  .next rfl rfl rfl rfl

theorem ErrorRecordKept.memWrite (a : Nat) (bs : List Byte) :
    ErrorRecordKept s (.next (s.memWrite a bs)) :=
  .withMem _

theorem hashRegion_errorRecordKept {d : Nat} (hash : List Byte → Bytes d)
    (h : (s.busError ra (s.unsignedOp rb) <|> s.busError rc d) = none) :
    ErrorRecordKept s (hashRegion hash ra rb rc s) := by
  obtain ⟨ha, hc⟩ := (Option.orElse_eq_none _ _).1 h
  rw [hashRegion_valid hash (busError_eq_none ha) (busError_eq_none hc)]
  exact .memWrite _ _

theorem countOp_errorRecordKept (count : Nat → Nat) (h : s.epochError ra = none) :
    ErrorRecordKept s (countOp count rd ra s) := by
  rw [countOp, epochError_eq_none.1 h]
  exact .writeX _ _

theorem datasetOp_errorRecordKept {d : Nat} (make : Context → Memory → Word → Bytes d)
    (h : (s.contextError <|> s.busError rc d) = none) :
    ErrorRecordKept s (datasetOp make ra rc s) := by
  obtain ⟨hn, hv⟩ := (Option.orElse_eq_none _ _).1 h
  rw [contextError_eq_none] at hn
  cases hc : s.lightCacheInMem with
  | true =>
    rw [datasetOp_made hn (busError_eq_none hv) hc]
    exact .memWrite _ _
  | false =>
    rw [datasetOp_outside hn (busError_eq_none hv) hc]
    exact nofun

theorem execBuildlc_errorRecordKept (h : (s.contextError <|> s.busError ra 32) = none) :
    ErrorRecordKept s (execBuildlc ra s) := by
  obtain ⟨hn, hv⟩ := (Option.orElse_eq_none _ _).1 h
  rw [contextError_eq_none] at hn
  cases hc : s.lightCacheInMem with
  | true =>
    rw [execBuildlc_built hn (busError_eq_none hv) hc]
    exact .withMem _
  | false =>
    rw [execBuildlc_outside hn (busError_eq_none hv) hc]
    exact nofun

theorem execEnum_errorRecordKept (h : s.busError ra 32 = none) :
    ErrorRecordKept s (execEnum rd ra s) := by
  match hl : epochLookup s.ecache (s.memRead (s.unsignedOp ra) 32) with
  | (some v, c) =>
    rw [execEnum_found (busError_eq_none h) hl]
    exact .next rfl rfl rfl rfl
  | (none, c) =>
    rw [execEnum_notFound (busError_eq_none h) hl]
    exact .next rfl rfl rfl rfl

/-- A command whose checks all pass leaves the error record alone (R203, R204). -/
theorem exec_errorRecordKept {i : Instr} (h : errorOf i s = none) : ErrorRecordKept s (exec i s) := by
  cases i with
  | keccakf | sinit256 | sinit512 => exact .setSponge _
  | fnv1 | prime => exact .writeX _ _
  | ecrst => exact .setEcache _
  | sload ra =>
    rw [exec_sload_valid (busError_eq_none h)]
    exact .setSponge _
  | sstore ra =>
    rw [exec_sstore_valid (busError_eq_none h)]
    exact .memWrite _ _
  | sabsorb ra rb =>
    obtain ⟨hp, hv⟩ := (Option.orElse_eq_none _ _).1 h
    rw [exec_sabsorb_valid (phaseError_eq_none.1 hp) (busError_eq_none hv)]
    exact .setSponge _
  | sfinal =>
    rw [exec_sfinal_absorb (phaseError_eq_none.1 h)]
    exact .setSponge _
  | ssqueeze ra =>
    obtain ⟨hp, hv⟩ := (Option.orElse_eq_none _ _).1 h
    rw [exec_ssqueeze_valid (phaseError_eq_none.1 hp) (busError_eq_none hv)]
    exact .memWrite _ _
  | keccak256 ra rb rc => exact hashRegion_errorRecordKept k256 h
  | keccak512 ra rb rc => exact hashRegion_errorRecordKept k512 h
  | fnv1v ra rb rc =>
    obtain ⟨ha, h⟩ := (Option.orElse_eq_none _ _).1 h
    obtain ⟨hb, hc⟩ := (Option.orElse_eq_none _ _).1 h
    rw [exec_fnv1v_valid (busError_eq_none ha) (busError_eq_none hb) (busError_eq_none hc)]
    exact .memWrite _ _
  | eseed ra rc =>
    obtain ⟨he, hv⟩ := (Option.orElse_eq_none _ _).1 h
    rw [exec_eseed_valid (epochError_eq_none.1 he) (busError_eq_none hv)]
    exact .memWrite _ _
  | enum rd ra =>
    rw [exec_enum]
    exact execEnum_errorRecordKept h
  | ecip rd ra =>
    rw [exec_ecip_valid (epochError_eq_none.1 h)]
    exact .writeX _ _
  | lcount rd ra => exact countOp_errorRecordKept lightCount h
  | dcount rd ra => exact countOp_errorRecordKept fullCount h
  | ctxset ra rb =>
    obtain ⟨hn, hv⟩ := (Option.orElse_eq_none _ _).1 h
    rw [exec_ctxset_valid (countError_eq_none.1 hn) (busError_eq_none hv)]
    exact .setCtx _
  | buildlc ra => exact execBuildlc_errorRecordKept h
  | ditem512 ra rc => exact datasetOp_errorRecordKept item512 h
  | ditem1024 ra rc => exact datasetOp_errorRecordKept item1024 h
  | ditem2048 ra rc => exact datasetOp_errorRecordKept item2048 h

end ErrorRecordKept

/-- Settles O39: with an error in its row a command answers error entry, and with none its checks all pass. -/
theorem commandsRaiseTheirFirstError : Obligations.CommandsRaiseTheirFirstError :=
  fun _ _ => ⟨fun _ _ => exec_of_errorOf, exec_errorRecordKept⟩

/-- Settles O40: from ERR = 0 the engine comes to ERR = 1 only by error entry, which writes the error record
alone. -/
theorem errorsArePrecise : Obligations.ErrorsArePrecise := by
  intro s t hm herr ht hterr
  rw [step_engine hm] at ht
  obtain ⟨_, rfl⟩ | ⟨i, u, _, hu, rfl⟩ := engineStep_cases ht
  · exact ⟨rfl, rfl, rfl, rfl, rfl, rfl⟩
  · cases he : errorOf i s with
    | some p =>
      cases (exec_of_errorOf he).symm.trans hu
      exact ⟨rfl, rfl, rfl, rfl, rfl, rfl⟩
    | none =>
      have huerr : u.status.err = s.status.err := (exec_errorRecordKept he u hu).1
      exact absurd hterr (by simp [huerr, herr])

end Sys2Proof.Machine
end

section
/-!
PROOFS. The host's window, access by access: what a step does with it, and what each offset writes and reads
(10_state.md R25, R29; 60_exceptions.md R205, R206, R208, R214, R215).
-/

namespace Sys2Proof.Machine

/-! ## The step of a window access (R214) -/

section Access

variable {s : State} {off : Nat} {rest : List HostAction}

theorem step_windowWrite {v : Word}
    (hq : s.hostQueue = .write .b64 (s.cfg.windowBase + off) v :: rest)
    (h8 : off % 8 = 0) (hlt : off < 256) : step s = .next ((s.setQueue rest).hostWrite off v) := by
  rw [step_action hq (by simp), hostStep, State.setQueue_cfg, definedAccess_of_offset _ h8 hlt]

theorem step_windowRead (hq : s.hostQueue = .read .b64 (s.cfg.windowBase + off) :: rest)
    (h8 : off % 8 = 0) (hlt : off < 256) : step s = .next ((s.setQueue rest).hostRead off) := by
  rw [step_action hq (by simp), hostStep, State.setQueue_cfg, definedAccess_of_offset _ h8 hlt]

theorem step_windowRead_idle (hq : s.hostQueue = .read .b64 (s.cfg.windowBase + off) :: rest)
    (h8 : off % 8 = 0) (hlt : off < 256) (hb : s.status.busy = false) :
    step s = .next ((s.setQueue rest).setReply (.word (s.windowWord off))) := by
  have hidle : ¬(s.setQueue rest).status.busy = true := by simp [hb]
  rw [step_windowRead hq h8 hlt, State.hostRead, if_neg hidle]
  rfl

end Access

/-! ## What an offset writes (R215) -/

namespace State

variable {s : State} {off : Nat} {v : Word}

theorem hostWrite_x (hb : s.status.busy = false) (r : RegIdx) (v : Word) :
    s.hostWrite (8 * r.toNat) v = s.writeX r v := by
  have hlt : 8 * r.toNat < 0x080 := by have := r.isLt; omega
  simp [hostWrite, hlt, hb]

/-- A CMD write is discarded while ERR = 1 (R205). -/
theorem hostWrite_cmd_discarded (hb : s.status.busy = false) (he : s.status.err = true) (v : Word) :
    s.hostWrite 0x080 v = s := by
  simp [hostWrite, hb, he]

/-- A write to CMD or an X register is an overrun while BUSY = 1 (R208). -/
theorem hostWrite_overrun (hb : s.status.busy = true) (hoff : off ≤ 0x080) (v : Word) :
    s.hostWrite off v = s.setOvr := by
  obtain hlt | rfl := Nat.lt_or_eq_of_le hoff
  · rw [hostWrite, if_pos hlt, if_pos hb]
  · rw [hostWrite, if_neg (by decide), if_pos rfl, if_pos hb]

theorem hostWrite_status (s : State) (v : Word) : s.hostWrite 0x088 v = s.writeStatus v := rfl

/-- Above STATUS every offset is read-only or reserved (R214). -/
theorem hostWrite_ignored (s : State) (hoff : 0x088 < off) (v : Word) : s.hostWrite off v = s := by
  rw [hostWrite, if_neg (by omega), if_neg (by omega), if_neg (by omega)]

/-- The return from an error is a STATUS write with bit 1 set and bit 3 clear (R206). -/
theorem writeStatus_clearErr (s : State) (h1 : v.getLsbD 1 = true) (h3 : v.getLsbD 3 = false) :
    s.writeStatus v = s.clearErr := by
  rw [writeStatus, h1, h3]
  rfl

/-- A STATUS write changes the three fields that its bits 1 and 3 clear (R29). -/
theorem writeStatus_eq (s : State) (v : Word) :
    s.writeStatus v = { s with
      status := { s.status with
        err := s.status.err && !v.getLsbD 1
        ecode := if v.getLsbD 1 then .none else s.status.ecode
        ovr := s.status.ovr && !v.getLsbD 3 } } := by
  rw [writeStatus]
  cases v.getLsbD 1 <;> cases v.getLsbD 3 <;> simp [clearErr, clearOvr]

theorem hostWrite_hostQueue (s : State) (off : Nat) (v : Word) :
    (s.hostWrite off v).hostQueue = s.hostQueue := by
  obtain e | ⟨e, _⟩ | ⟨r, e, _⟩ | ⟨e, _, _⟩ | ⟨e, _⟩ := hostWrite_cases s off v <;> rw [e]
  · rfl
  · rfl
  · rfl
  · rw [writeStatus_eq]

end State

/-- Settles O41: the action is used up before the write, which leaves the rest as it is. -/
theorem cmdWriteIsDiscardedWhileErr : Obligations.CmdWriteIsDiscardedWhileErr := by
  intro s v rest hq hb he
  rw [step_windowWrite hq (by decide) (by decide),
    State.hostWrite_cmd_discarded (s := s.setQueue rest) hb he]
  rfl

/-- Settles O42: offsets up to CMD are all an overrun, and the action is used up before it. -/
theorem overrunIsIgnoredAndRecorded : Obligations.OverrunIsIgnoredAndRecorded := by
  intro s v off rest hq h8 hoff hb
  rw [step_windowWrite hq h8 (by omega), State.hostWrite_overrun (s := s.setQueue rest) hb hoff]
  rfl

/-- Settles O43: the STATUS write leaves ERR = 0, so the CMD write after it is latched. -/
theorem clearingErrRestoresNothingElse : Obligations.ClearingErrRestoresNothingElse := by
  intro s v w rest hq hb h1 h3
  have hclear : step s =
      .next (s.setQueue (.write .b64 (s.cfg.windowBase + 0x080) w :: rest)).clearErr := by
    rw [step_windowWrite hq (by decide) (by decide), State.hostWrite_status,
      State.writeStatus_clearErr _ h1 h3]
  refine ⟨_, hclear, rfl, (step_windowWrite rfl (by decide) (by decide)).trans ?_⟩
  exact congrArg Host.Outcome.next (hostWrite_cmd (s := (s.setQueue rest).clearErr) hb rfl w)

/-- Settles O44: the offsets clause by clause. -/
theorem idleHostWritesFollowTheTable : Obligations.IdleHostWritesFollowTheTable := by
  intro s v off rest hq h8 hlt
  refine ⟨_, step_windowWrite hq h8 hlt, State.hostWrite_hostQueue _ off v, fun hb => ⟨?_, ?_, ?_⟩,
    ?_, ?_, ?_⟩
  · rintro r rfl
    rw [State.hostWrite_x (s := s.setQueue rest) hb]
    exact ⟨State.readX_writeX_self _ r v, fun q hne => State.readX_writeX_of_ne _ v hne, rfl⟩
  · rintro rfl he
    exact hostWrite_cmd (s := s.setQueue rest) hb he v
  · rintro rfl he
    exact State.hostWrite_cmd_discarded (s := s.setQueue rest) hb he v
  · intro hb hoff
    exact State.hostWrite_overrun (s := s.setQueue rest) hb hoff v
  · rintro rfl
    exact (s.setQueue rest).writeStatus_eq v
  · intro hoff
    exact (s.setQueue rest).hostWrite_ignored hoff v

/-! ## What an offset reads (R214, R215) -/

/-- The parts of STATUS laid side by side, each at its own bits. -/
theorem statusBits_fields (v : BitVec (52 + 4 + 4 + 1 + 1 + 1 + 1)) (code : BitVec 4)
    (ovr nf err busy : Bool)
    (h : v = 0#52 ++ code ++ 0#4 ++ BitVec.ofBool ovr ++ BitVec.ofBool nf ++ BitVec.ofBool err ++
      BitVec.ofBool busy) :
    v.getLsbD 0 = busy ∧ v.getLsbD 1 = err ∧ v.getLsbD 2 = nf ∧ v.getLsbD 3 = ovr ∧
      v.extractLsb' 8 4 = code ∧ v.extractLsb' 4 4 = 0 ∧ v.extractLsb' 12 52 = 0 := by
  subst h
  simp [BitVec.getElem_append, BitVec.extractLsb'_append_eq_of_le,
    BitVec.extractLsb'_append_eq_of_add_le, -Nat.reduceAdd]

/-- The fields of STATUS at the bits of R29, and 0 at its reserved bits. -/
theorem Status.word_fields (st : Status) :
    st.word.getLsbD 0 = st.busy ∧ st.word.getLsbD 1 = st.err ∧ st.word.getLsbD 2 = st.nf ∧
      st.word.getLsbD 3 = st.ovr ∧ st.word.extractLsb' 8 4 = st.ecode.code ∧
      st.word.extractLsb' 4 4 = 0 ∧ st.word.extractLsb' 12 52 = 0 :=
  statusBits_fields st.word _ _ _ _ _ rfl

/-- STATUS while BUSY = 1 is STATUS with BUSY = 1, ERR = 0 and ECODE = 0 (R215). -/
theorem State.busyStatus_fields (s : State) (nf : Bool) :
    (s.busyStatus nf).getLsbD 0 = true ∧ (s.busyStatus nf).getLsbD 1 = false ∧
      (s.busyStatus nf).getLsbD 2 = nf ∧ (s.busyStatus nf).getLsbD 3 = s.status.ovr ∧
      (s.busyStatus nf).extractLsb' 8 4 = 0 ∧ (s.busyStatus nf).extractLsb' 4 4 = 0 ∧
      (s.busyStatus nf).extractLsb' 12 52 = 0 :=
  Status.word_fields _

/-- The parts of SCTRL laid side by side, each at its own bits. -/
theorem sctrlBits_fields (v : BitVec (48 + 8 + 5 + 1 + 2)) (spos : Byte) (sw : BitVec 1) (sph : BitVec 2)
    (h : v = 0#48 ++ spos ++ 0#5 ++ sw ++ sph) :
    v.extractLsb' 0 2 = sph ∧ v.getLsbD 2 = sw.getLsbD 0 ∧ v.extractLsb' 8 8 = spos ∧
      v.extractLsb' 3 5 = 0 ∧ v.extractLsb' 16 48 = 0 := by
  subst h
  simp [BitVec.getElem_append, BitVec.extractLsb'_append_eq_of_le,
    BitVec.extractLsb'_append_eq_of_add_le, -Nat.reduceAdd]

/-- The fields of SCTRL at the bits of R25, and 0 at its reserved bits. -/
theorem Sponge.sctrl_fields (sp : Sponge) :
    sp.sctrl.extractLsb' 0 2 = sp.sph.code ∧ sp.sctrl.getLsbD 2 = sp.sw.code.getLsbD 0 ∧
      sp.sctrl.extractLsb' 8 8 = BitVec.ofNat 8 sp.spos ∧
      sp.sctrl.extractLsb' 3 5 = 0 ∧ sp.sctrl.extractLsb' 16 48 = 0 :=
  sctrlBits_fields sp.sctrl _ _ _ rfl

theorem Width.code_bit (w : Width) : w.code.getLsbD 0 = decide (w = .w512) := by cases w <;> rfl

namespace State

theorem windowWord_x (s : State) (r : RegIdx) : s.windowWord (8 * r.toNat) = s.readX r := by
  have hlt : 8 * r.toNat < 0x080 := by have := r.isLt; omega
  simp [windowWord, hlt, readX]

theorem windowWord_ecseed (s : State) {j : Nat} (hj : j < 4) :
    s.windowWord (0x0C0 + 8 * j) = le64 s.ecache.ecseed j := by
  obtain rfl | rfl | rfl | rfl : j = 0 ∨ j = 1 ∨ j = 2 ∨ j = 3 := by omega
  all_goals rfl

theorem windowWord_reserved (s : State) {off : Nat} (h : 0x0E0 ≤ off) : s.windowWord off = 0 := by
  grind [windowWord]

/-- STATUS while BUSY = 1 is one more free value drawn, for NF (R215, U4). -/
theorem hostRead_busyStatus {s : State} (hb : s.status.busy = true) :
    s.hostRead 0x088 =
      (s.setReply (.word (s.busyStatus ((Config.freeWord s.draws).getLsbD 0)))).draw := by
  rw [hostRead, if_pos hb, if_pos rfl]

/-- The reserved offsets read 0 while BUSY = 1 too (log 4). -/
theorem hostRead_busyReserved {s : State} {off : Nat} (hb : s.status.busy = true) (hoff : 0x0E0 ≤ off) :
    s.hostRead off = s.setReply (.word 0) := by
  rw [hostRead, if_pos hb, if_neg (by omega), if_pos hoff]

end State

/-- Settles O45: while BUSY = 0 the value is the register at the offset, and the fields of STATUS and SCTRL
are those of their layouts. -/
theorem idleWindowReadsShowTheRegisters : Obligations.IdleWindowReadsShowTheRegisters := by
  intro s off rest hq h8 hlt hb hpos
  refine ⟨s.windowWord off, step_windowRead_idle hq h8 hlt hb, ?_, fun h => h ▸ rfl, ?_,
    fun h => h ▸ rfl, fun h => h ▸ rfl, fun h => h ▸ rfl, fun h => h ▸ rfl, ?_, fun h => h ▸ rfl,
    ?_, s.windowWord_reserved⟩
  · rintro r rfl
    exact s.windowWord_x r
  · rintro rfl
    obtain ⟨hbusy, herr, hnf, hovr, hecode, hlow, hhigh⟩ := s.status.word_fields
    exact ⟨hbusy.trans hb, herr, hnf, hovr, hecode, hlow, hhigh⟩
  · rintro rfl
    obtain ⟨hsph, hsw, hspos, hlow, hhigh⟩ := s.sponge.sctrl_fields
    refine ⟨hsph, hsw.trans (Width.code_bit _), ?_, hlow, hhigh⟩
    exact (congrArg BitVec.toNat hspos).trans (Nat.mod_eq_of_lt hpos)
  · rintro j hj rfl k hk
    rw [State.windowWord_ecseed s hj, byteOf_le64 _ _ _ hk]

/-- Settles O46: STATUS has its layout while BUSY = 1 too, and above it a register reads as a free value or a
reserved offset as 0. -/
theorem busyStatusReadsShowOvr : Obligations.BusyStatusReadsShowOvr := by
  intro s off rest hq h8 hlt hb
  rw [step_windowRead hq h8 hlt]
  by_cases hstatus : off = 0x088
  · subst hstatus
    rw [State.hostRead_busyStatus (s := s.setQueue rest) hb]
    obtain ⟨hbusy, herr, _, hovr, hecode, hlow, hhigh⟩ :=
      s.busyStatus_fields ((Config.freeWord s.draws).getLsbD 0)
    exact ⟨_, _, rfl, fun _ => ⟨hbusy, herr, hovr, hecode, hlow, hhigh⟩, fun h => absurd h (by decide)⟩
  · obtain ⟨v, d, hread⟩ := hostRead_eq (s.setQueue rest) off
    refine ⟨v, d, congrArg _ hread, fun h => absurd h hstatus, fun hres => ?_⟩
    rw [State.hostRead_busyReserved (s := s.setQueue rest) hb hres] at hread
    injection congrArg State.reply hread with hv
    exact hv.symm

end Sys2Proof.Machine
end

section
/-!
PROOFS. Reset, and the actions from outside that break a duty (10_state.md R34; 70_reset_and_hazards.md R230
to R232; logs 6, 7 and 10).
-/

namespace Sys2Proof.Machine

/-! ## Reset (R230 to R232) -/

section Reset

variable {s : State} {rest : List HostAction}

/-- A reset happens whoever would move next (R230, R231). -/
theorem step_reset (hq : s.hostQueue = .reset :: rest) : step s = .next (s.setQueue rest).platformReset :=
  step_action hq (by simp)

/-- What is pending is no part of a command's destination. -/
theorem destOf_setQueue (i : Instr) (s : State) (q : List HostAction) :
    destOf i (s.setQueue q) = destOf i s := by
  cases i <;> rfl

theorem platformReset_mem (s : State) : s.platformReset.mem = s.memAfterReset := rfl

/-- Every X register is 0 after a reset (R34). -/
theorem platformReset_readX (s : State) (r : RegIdx) : s.platformReset.readX r = 0 :=
  elem_replicate_zero r.toNat

end Reset

/-- Settles O49: the reset of an action taken is the reset state in every register. -/
theorem resetGivesEveryRegisterItsValue : Obligations.ResetGivesEveryRegisterItsValue := by
  intro s rest hq
  exact ⟨_, step_reset hq, platformReset_readX _, fun i _ => elem_replicate_zero i, rfl, rfl, rfl, rfl, rfl,
    rfl, fun k _ => elem_replicate_zero k, rfl, rfl, rfl, rfl, rfl, rfl⟩

/-- Settles O50: MEM after a reset is MEM, or MEM with the destination of a legal command in flight
overwritten. -/
theorem resetKeepsMemoryOutsideTheDestination : Obligations.ResetKeepsMemoryOutsideTheDestination := by
  intro s t rest hq ht
  cases (step_reset hq).symm.trans ht
  rw [platformReset_mem]
  obtain hm | ⟨i, r, bs, hb, hd, -, hdest, hlen, hm⟩ := memAfterReset_cases (s.setQueue rest) <;> rw [hm]
  · exact ⟨fun _ => rfl, fun _ _ _ _ => rfl, fun _ => rfl⟩
  · refine ⟨fun hidle => absurd (hidle.symm.trans hb) (by decide), fun j hj b hout => ?_, fun hw => ?_⟩
    · obtain rfl : i = j := Except.ok.inj (hd.symm.trans hj)
      rw [destOf_setQueue] at hdest
      exact Memory.read_write_of_outside _ _ _ (hlen ▸ hout r hdest)
    · have hwell := (decoderAcceptsExactlyWellFormedWords s.cmdlatch).1 ⟨i, hd⟩
      exact absurd (hw.symm.trans hwell) (by decide)

/-! ## Actions that break a duty (U2, U3; logs 6, 7, 10) -/

/-- An access that is not 64 bits wide, not inside the window or not aligned is no defined one (R214). -/
theorem definedAccess_eq_none {cfg : Config} {width : AccessWidth} {addr : Nat}
    (h : width ≠ .b64 ∨ addr < cfg.windowBase ∨ cfg.windowBase + 256 ≤ addr ∨
      (addr - cfg.windowBase) % 8 ≠ 0) : definedAccess cfg width addr = none := by
  rw [Option.eq_none_iff_forall_ne_some]
  intro off hoff
  obtain ⟨rfl, rfl, hlt, h8⟩ := definedAccess_some hoff
  obtain hwidth | h := h
  · exact hwidth rfl
  · rw [Nat.add_sub_cancel_left] at h
    omega

section BrokenDuty

variable {s : State} {a n : Nat} {rest : List HostAction}

theorem step_windowAccess_refused {width : AccessWidth} {addr : Nat} {v : Word}
    (hq : s.hostQueue = .write width addr v :: rest ∨ s.hostQueue = .read width addr :: rest)
    (hnone : definedAccess s.cfg width addr = none) : step s = .refused .windowAccess := by
  obtain hq | hq := hq <;> rw [step_action hq (by simp), hostStep, State.setQueue_cfg, hnone]

theorem hostMemory_outside (k : State) (hv : s.valid a n = false) :
    s.hostMemory a n k = .fault .hostAccessOutsideMem := by
  simp [State.hostMemory, hv]

theorem hostMemory_inFlight (k : State) (hv : s.valid a n = true) (ht : s.touchesInFlight a n = true) :
    s.hostMemory a n k = .refused .memoryInFlight := by
  simp [State.hostMemory, hv, ht]

/-- A host write or read of MEM is an access by `hostMemory`, for some effect. -/
theorem step_hostMemory {bs : List Byte}
    (hq : s.hostQueue = .memWrite a bs :: rest ∨ s.hostQueue = .memRead a bs.length :: rest) :
    ∃ k, step s = (s.setQueue rest).hostMemory a bs.length k := by
  obtain hq | hq := hq <;> exact ⟨_, step_action hq (by simp)⟩

/-- A region that holds byte `b` meets every access to `b`. -/
theorem Region.meets_of_shared {r : Region} {b : Nat} (ha : a ≤ b) (hn : b < a + n) (hr : r.base ≤ b)
    (hlen : b < r.base + r.len) : r.meets a n = true := by
  simp only [Region.meets, Bool.and_eq_true, decide_eq_true_eq]
  omega

/-- The command in flight is the one latched, when it raises no error (R200). -/
theorem inFlight_eq_some {i : Instr} (hb : s.status.busy = true) (hd : decode s.cmdlatch = .ok i)
    (he : errorOf i s = none) : s.inFlight = some i := by
  simp [State.inFlight, hb, hd, he]

/-- An access that shares a byte with a region of the command in flight touches it (R62). -/
theorem touchesInFlight_of_meets {i : Instr} {r : Region} (hi : s.inFlight = some i)
    (hr : r ∈ sourcesOf i s ++ (destOf i s).toList) (hm : r.meets a n = true) :
    s.touchesInFlight a n = true := by
  rw [State.touchesInFlight, hi]
  exact List.any_eq_true.2 ⟨r, hr, hm⟩

end BrokenDuty

/-- Settles O47: such a window access is no defined one, and of a MEM access `hostMemory` checks the region
first and then the command in flight. -/
theorem undutifulHostActionsStop : Obligations.UndutifulHostActionsStop := by
  intro s width addr a v bs rest
  refine ⟨fun hq h => step_windowAccess_refused hq (definedAccess_eq_none h), fun hq hne => ?_⟩
  obtain ⟨k, hstep⟩ := step_hostMemory hq
  rw [hstep]
  refine ⟨fun hlt => hostMemory_outside k ?_, fun hle i hb hd he r hr b ha hn hbase hlen => ?_⟩
  · exact (s.setQueue rest).not_valid_of_lt (mt List.length_eq_zero_iff.1 hne) hlt
  · have htouch := touchesInFlight_of_meets (inFlight_eq_some hb hd he) hr
      (Region.meets_of_shared ha hn hbase hlen)
    exact hostMemory_inFlight k ((s.setQueue rest).valid_of_le hle)
      ((touchesInFlight_setQueue s rest _ _).trans htouch)

end Sys2Proof.Machine
end

section
/-!
PROOFS. The CreateEpochContext procedure, directive by directive (70_reset_and_hazards.md R236; 43_size.md R161,
R168). Each directive starts on a ready machine; a run that ends without an error went through all of them.
-/

namespace Sys2Proof.Machine

/-! ## One directive on a ready machine (R77) -/

/-- Idle, without an error and with nothing pending: the next directive finds the machine so. -/
structure State.Ready (s : State) : Prop where
  queue : s.hostQueue = []
  idle : s.status.busy = false
  noErr : s.status.err = false

theorem State.Ready.writeX {s : State} (h : s.Ready) (r : RegIdx) (v : Word) :
    (s.writeX r v).Ready := { h with }

theorem setQueue_nil {s : State} (hq : s.hostQueue = []) : s.setQueue [] = s := by
  rw [← hq]
  rfl

/-- The directive `set` takes one step, the write of its X register (R77, R215). -/
theorem perform_set {s : State} (h : s.Ready) (n : RegIdx) (v : Word) :
    perform (.set n v) s = .next (s.writeX n v) := by
  have hlt := n.isLt
  have hx : (s.setQueue []).hostWrite (8 * n.toNat) v = s.writeX n v := by
    rw [setQueue_nil h.queue, State.hostWrite_x h.idle]
  have hwrite : step (s.setQueue [Directive.writeAt s.cfg (8 * n.toNat) v]) = .next (s.writeX n v) :=
    (step_windowWrite rfl (by omega) (by omega)).trans (congrArg _ hx)
  calc perform (.set n v) s
    _ = settle 3 (s.setQueue [Directive.writeAt s.cfg (8 * n.toNat) v]) := by rw [perform, h.queue]; rfl
    _ = settle 2 (s.writeX n v) := settle_step rfl hwrite 2
    _ = .next (s.writeX n v) := settle_rest (s := s.writeX n v) h.queue h.idle 2

/-- The state a command directive's CMD write leaves: the command latched, and the host waits. -/
def State.issued (s : State) (i : Instr) : State := (s.setQueue [.wait]).latch (encode i)

/-- A machine with an action pending comes to rest only through its next step. -/
theorem settle_pending {s t : State} {act : HostAction} {rest : List HostAction} {fuel : Nat}
    (hq : s.hostQueue = act :: rest) (h : settle (fuel + 1) s = .next t) : ∃ u, step s = .next u := by
  cases hs : step s with
  | next u => exact ⟨u, rfl⟩
  | fault _ => simp [settle, hq, hs] at h
  | refused _ => simp [settle, hq, hs] at h

/-- A command directive that comes to rest is its command's rule and then BUSY = 0 (R31, R77). -/
theorem perform_command_next {s t : State} {i : Instr} (h : s.Ready)
    (hp : perform (.command i) s = .next t) :
    ∃ u, exec i (s.issued i) = .next u ∧ t = u.complete.setQueue [] := by
  have hissue : step (s.setQueue (Directive.issue s.cfg (encode i))) = .next (s.issued i) :=
    step_issue (s := s.setQueue _) rfl h.idle h.noErr
  have hrun : settle 4 (s.issued i) = .next t := by
    rw [← hp, perform, h.queue]
    exact (settle_step rfl hissue 4).symm
  obtain ⟨u, hu⟩ := settle_pending rfl hrun
  obtain ⟨⟨r, hr⟩, -⟩ | ⟨j, v, hj, hv, -⟩ := engineStep_cases ((step_engine rfl).symm.trans hu)
  · exact absurd ((decode_encode i).symm.trans hr) (by simp)
  · obtain rfl : i = j := Except.ok.inj ((decode_encode i).symm.trans hj)
    exact ⟨v, hv, by simpa using hp.symm.trans (perform_command h.queue h.idle h.noErr hv)⟩

/-! ## What a command directive leaves when it raises no error -/

/-- The directive of `i` takes `s` to `t` without an error. -/
inductive Completes (i : Instr) (s : State) : State → Prop where
  | ran (u : State) (h : exec i (s.issued i) = .next u) (hok : u.status.err = false) :
      Completes i s (u.complete.setQueue [])

namespace Completes

variable {s t : State}

theorem ready {i : Instr} (h : Completes i s t) : t.Ready := by
  obtain ⟨u, -, hok⟩ := h
  exact ⟨rfl, rfl, hok⟩

theorem readX_of_ne {i : Instr} (h : Completes i s t) {r : RegIdx} (hr : destReg i ≠ some r) :
    t.readX r = s.readX r := by
  obtain ⟨u, hu, -⟩ := h
  exact exec_readX_of_ne hu hr

theorem ctx {i : Instr} (h : Completes i s t) (hi : ∀ ra rb, i ≠ .ctxset ra rb) : t.ctx = s.ctx := by
  obtain ⟨u, hu, -⟩ := h
  exact (exec_ctx hu hi : u.ctx = (s.issued i).ctx)

/-- A command that raised no error passed every check of its row in R204's table. -/
theorem errorOf_eq_none {i : Instr} (h : Completes i s t) : errorOf i (s.issued i) = none := by
  obtain ⟨u, hu, hok⟩ := h
  cases he : errorOf i (s.issued i) with
  | none => rfl
  | some p =>
    cases (exec_of_errorOf he).symm.trans hu
    cases hok

/-- ECIP without an error: the operand is a valid epoch, and X[rd] its effective epoch (R147). -/
theorem ecip {rd ra : RegIdx} (h : Completes (.ecip rd ra) s t) :
    s.validEpochOp ra = true ∧ t.readX rd = BitVec.ofNat 64 (effectiveEpoch (s.epochOp ra)) := by
  have hvalid : s.validEpochOp ra = true := epochError_eq_none.1 h.errorOf_eq_none
  obtain ⟨u, hu, -⟩ := h
  cases (exec_ecip_valid (s := s.issued _) hvalid).symm.trans hu
  exact ⟨hvalid, State.readX_writeX_self _ rd _⟩

/-- LCOUNT and DCOUNT without an error: X[rd] is the count (R166, R167). -/
theorem count {i : Instr} {count : Nat → Nat} {rd ra : RegIdx}
    (hi : ∀ s, exec i s = countOp count rd ra s) (h : Completes i s t) :
    t.readX rd = BitVec.ofNat 64 (count (s.epochOp ra)) := by
  obtain ⟨u, hu, hok⟩ := h
  obtain rfl | ⟨-, rfl⟩ := countOp_cases ((hi _).symm.trans hu)
  · cases hok
  · exact State.readX_writeX_self _ rd _

/-- CTXSET without an error: LCBASE and LCCOUNT are its operands (R170). -/
theorem ctxset {ra rb : RegIdx} (h : Completes (.ctxset ra rb) s t) :
    t.ctx = ⟨s.readX ra, s.readX rb⟩ := by
  obtain ⟨hn, hv⟩ := (Option.orElse_eq_none _ _).1 h.errorOf_eq_none
  obtain ⟨u, hu, -⟩ := h
  cases (exec_ctxset_valid (countError_eq_none.1 hn) (busError_eq_none hv)).symm.trans hu
  rfl

end Completes

/-! ## A run that ends without an error (R234, R236) -/

section Run

variable {s t : State} {ds : List Directive}

theorem performAll_set (h : s.Ready) {n : RegIdx} {v : Word}
    (hp : performAll true (.set n v :: ds) s = .next t) : performAll true ds (s.writeX n v) = .next t := by
  rw [performAll, perform_set h] at hp
  simpa [h.noErr] using hp

/-- The first command of a run that ends without an error raised none, or the run had stopped there. -/
theorem performAll_command (h : s.Ready) {i : Instr} (hp : performAll true (.command i :: ds) s = .next t)
    (hok : t.status.err = false) : ∃ u, Completes i s u ∧ performAll true ds u = .next t := by
  rw [performAll] at hp
  cases hd : perform (.command i) s with
  | fault _ => simp [hd] at hp
  | refused _ => simp [hd] at hp
  | next u =>
    obtain ⟨v, hv, rfl⟩ := perform_command_next h hd
    rw [hd] at hp
    cases he : v.status.err with
    | false => exact ⟨_, .ran v hv he, by simpa [he] using hp⟩
    | true =>
      obtain rfl : v.complete.setQueue [] = t := by simpa [he] using hp
      exact absurd (he.symm.trans hok) (by decide)

/-- A `set`, or a command other than CTXSET: the directives that leave LCBASE and LCCOUNT alone (R26). -/
inductive KeepsContext : Directive → Prop where
  | set (n : RegIdx) (v : Word) : KeepsContext (.set n v)
  | command (i : Instr) (hi : ∀ ra rb, i ≠ .ctxset ra rb) : KeepsContext (.command i)

theorem performAll_keepsContext (hds : ∀ d ∈ ds, KeepsContext d) (h : s.Ready)
    (hp : performAll true ds s = .next t) (hok : t.status.err = false) : t.Ready ∧ t.ctx = s.ctx := by
  induction ds generalizing s with
  | nil => cases hp; exact ⟨h, rfl⟩
  | cons d ds ih =>
    obtain ⟨hd, htail⟩ := List.forall_mem_cons.1 hds
    cases hd with
    | set n v => exact ih (s := s.writeX n v) htail (h.writeX n v) (performAll_set h hp)
    | command i hi =>
      obtain ⟨u, hu, hp⟩ := performAll_command h hp hok
      obtain ⟨hready, hctx⟩ := ih htail hu.ready hp
      exact ⟨hready, hctx.trans (hu.ctx hi)⟩

end Run

/-! ## The sizes (R161, R166, R167) -/

/-- A count whose bound is linear in the epoch and fits 64 bits is written as it is. -/
theorem toNat_ofNat_count {count : Nat → Nat} {init growth e : Nat}
    (hcount : ∀ e : Nat, count e = largestPrimeAtMost (init + growth * e : Nat))
    (hfit : init + growth * 2 ^ 31 < 2 ^ 64) (he : e ≤ 2 ^ 31) :
    (BitVec.ofNat 64 (count e)).toNat = count e := by
  have hbound : growth * e ≤ growth * 2 ^ 31 := Nat.mul_le_mul_left growth he
  rw [hcount, toNat_ofNat_largestPrimeAtMost (by omega)]

/-- An epoch that a command wrote to a register is read back as it is (R141). -/
theorem State.epochOp_of_readX_eq (s : State) {r : RegIdx} {e : Nat} (hlt : e < 2 ^ 31)
    (h : s.readX r = BitVec.ofNat 64 e) : s.epochOp r = e := by
  have hnat : (s.readX r).toNat = e := by
    rw [h, BitVec.toNat_ofNat, Nat.mod_eq_of_lt (by omega)]
  have hint : (s.readX r).toInt = e := by
    rw [BitVec.toInt_eq_toNat_of_lt (by omega), hnat]
  rw [s.epochOp_eq_toNat r (by omega), hnat]

/-- What the sizes part leaves: a valid epoch `e`, and both counts of its effective epoch. -/
structure SizesOf (e : Word) (t : State) : Prop where
  ready : t.Ready
  nonneg : 0 ≤ e.toInt
  le_max : e.toInt ≤ 2 ^ 31 - 1
  light : (t.readX 3).toNat = lightCount (effectiveEpoch e.toNat)
  full : (t.readX 4).toNat = fullCount (effectiveEpoch e.toNat)

theorem sizesOf_performAll {e : Word} {s t : State} (h : s.Ready)
    (hp : performAll true (sizeDirectives e) s = .next t) (hok : t.status.err = false) : SizesOf e t := by
  obtain ⟨u, hecip, hp⟩ := performAll_command (h.writeX 1 e) (performAll_set h hp) hok
  obtain ⟨v, hlight, hp⟩ := performAll_command hecip.ready hp hok
  obtain ⟨w, hfull, hp⟩ := performAll_command hlight.ready hp hok
  cases hp
  obtain ⟨hvalid, h2⟩ := hecip.ecip
  obtain ⟨h0, hmax⟩ := (State.validEpochOp_iff _ 1).1 hvalid
  have hepoch : (s.writeX 1 e).epochOp 1 = e.toNat := by
    rw [State.epochOp_eq_toNat _ 1 h0, State.readX_writeX_self]
  have hlt : effectiveEpoch e.toNat < 2 ^ 31 :=
    (effectiveEpoch_le _).trans_lt (hepoch ▸ State.epochOp_lt _ 1 hvalid)
  rw [hepoch] at h2
  rw [State.readX_writeX_self] at h0 hmax
  have hu2 : u.epochOp 2 = effectiveEpoch e.toNat := u.epochOp_of_readX_eq hlt h2
  have hv2 : v.epochOp 2 = effectiveEpoch e.toNat :=
    v.epochOp_of_readX_eq hlt ((hlight.readX_of_ne (by simp [destReg])).trans h2)
  refine ⟨hfull.ready, h0, hmax, ?_, ?_⟩
  · rw [hfull.readX_of_ne (by simp [destReg]), hlight.count (fun _ => rfl), hu2]
    exact toNat_ofNat_count lightCount_eq (by decide) hlt.le
  · rw [hfull.count (fun _ => rfl), hv2]
    exact toNat_ofNat_count fullCount_eq (by decide) hlt.le

/-! ## The light cache's context (R170) -/

theorem performAll_cacheDirectives {b : Buffers} {ds : List Directive} {s t : State}
    (hds : ∀ d ∈ ds, KeepsContext d) (h : s.Ready)
    (hp : performAll true (cacheDirectives b ++ ds) s = .next t) (hok : t.status.err = false) :
    t.Ready ∧ t.ctx = ⟨b.lb, s.readX 3⟩ := by
  obtain ⟨u, heseed, hp⟩ := performAll_command (h.writeX 5 b.sb) (performAll_set h hp) hok
  obtain ⟨v, hctxset, hp⟩ :=
    performAll_command (heseed.ready.writeX 6 b.lb) (performAll_set heseed.ready hp) hok
  obtain ⟨w, hbuild, hp⟩ := performAll_command hctxset.ready hp hok
  obtain ⟨hready, hctx⟩ := performAll_keepsContext hds hbuild.ready hp hok
  have h3 : (u.writeX 6 b.lb).readX 3 = s.readX 3 := by
    rw [State.readX_writeX_of_ne _ _ (by decide), heseed.readX_of_ne (by simp [destReg]),
      State.readX_writeX_of_ne _ _ (by decide)]
  refine ⟨hready, ?_⟩
  rw [hctx, hbuild.ctx (by simp), hctxset.ctxset, State.readX_writeX_self, h3]

theorem keepsContext_of_mem_l1Directives {b : Buffers} {d : Directive} (hd : d ∈ l1Directives b) :
    KeepsContext d := by
  obtain ⟨k, -, hk⟩ := List.mem_flatMap.1 hd
  simp only [l1Stride, List.mem_cons, List.not_mem_nil, or_false] at hk
  obtain rfl | rfl | rfl := hk
  · exact .set _ _
  · exact .set _ _
  · exact .command _ (by simp)

/-! ## The procedure (R236) -/

/-- The context the procedure makes of the counts in x3 and x4 and the host's buffers (R236). -/
def EpochContext.ofSizes (e : Word) (buildFull : Bool) (s : State) (b : Buffers) : EpochContext :=
  { epochNumber := e
    lightCacheItemCount := (s.readX 3).toNat
    lightCacheSizeBytes := lightItem * (s.readX 3).toNat
    fullDatasetItemCount := (s.readX 4).toNat
    fullDatasetSizeBytes := fullItem * (s.readX 4).toNat
    lightCache := b.lb
    l1Cache := if buildFull then none else some b.items
    fullDataset := if buildFull then some b.items else none }

/-- A context is returned only when both runs of directives end without an error and the host obtains the
buffers in between. -/
theorem createEpochContext_eq_context {e : Word} {buildFull : Bool} {allocate : Nat → Nat → Option Buffers}
    {s t : State} {c : EpochContext} (h : createEpochContext e buildFull allocate s = .context c t) :
    ∃ u b, performAll true (sizeDirectives e) s = .next u ∧ u.status.err = false ∧
      allocate (u.readX 3).toNat (u.readX 4).toNat = some b ∧
      performAll true (cacheDirectives b ++ if buildFull then [] else l1Directives b) u = .next t ∧
      t.status.err = false ∧ c = .ofSizes e buildFull u b := by
  unfold createEpochContext at h
  split at h
  · cases h
  · cases h
  · rename_i u hsize
    split at h
    · cases h
    · rename_i hu
      dsimp only at h
      split at h
      · cases h
      · rename_i b hb
        split at h
        · cases h
        · cases h
        · rename_i t' hcache
          split at h
          · cases h
          · rename_i ht
            cases h
            exact ⟨u, b, hsize, by simpa using hu, hb, hcache, by simpa using ht, rfl⟩

/-- Settles O60: the first run leaves the sizes, and after it only CTXSET changes the context, to LB and x3. -/
theorem epochContextHasTheEffectiveCounts : Obligations.EpochContextHasTheEffectiveCounts := by
  intro e buildFull allocate s t c hq hb he h
  obtain ⟨u, b, hsize, hu, halloc, hcache, ht, rfl⟩ := createEpochContext_eq_context h
  have hsizes := sizesOf_performAll ⟨hq, hb, he⟩ hsize hu
  have hds : ∀ d ∈ if buildFull then [] else l1Directives b, KeepsContext d := by
    cases buildFull
    · exact fun d => keepsContext_of_mem_l1Directives
    · exact fun d hd => nomatch hd
  obtain ⟨hready, hctx⟩ := performAll_cacheDirectives hds hsizes.ready hcache ht
  exact ⟨hsizes.nonneg, hsizes.le_max, rfl, hsizes.light, hsizes.full, rfl, rfl, b, halloc, rfl, rfl, rfl,
    congrArg Context.lcbase hctx, congrArg (·.lccount.toNat) hctx, hready.noErr, hready.idle, hready.queue⟩

end Sys2Proof.Machine
end
